-- ==== Sys2Proof/Word.lean ====
section
/-! DEFINITION. The word and byte types of PFDEC (`00_scope.md` rules R6, R7). -/

namespace Sys2Proof

/-- A register's contents: `REGW` = 32 bits, bit 0 least significant (R6, R7). -/
abbrev Word := BitVec 32

/-- The unit of the SRC and DST spaces (R43, R60). -/
abbrev Byte := BitVec 8

/-- The size in bytes of the SRC space and of the DST space: `AW` = 32 address bits (R6, R43). -/
abbrev spaceSize : Nat := 2 ^ 32

end Sys2Proof
end

