-- ==== Sys2Proof/Syntax.lean ====
section
/-! DEFINITION. The encoded objects of PFDEC as data: the ten operations of the opcode table, the
descriptor word's fields, the ROM entry, the error codes, the register names and the host script's
lines. -/

namespace Sys2Proof

/-- The ten operations (R93), one constructor per row of `spec/opcode_table.json`. A command has no
operand field: its operands are registers (R91). -/
inductive Instr where
  /-- NOP (R158). -/
  | nop
  /-- RESOLVE (R152). -/
  | resolve
  /-- CLOSE (R159). -/
  | close
  /-- DECODE.PLANAR (R170). -/
  | decodePlanar
  /-- DECODE.NV (R180). -/
  | decodeNv
  /-- DECODE.P01X (R182). -/
  | decodeP01x
  /-- DECODE.YUV422 (R190). -/
  | decodeYuv422
  /-- DECODE.RGB24 (R201). -/
  | decodeRgb24
  /-- DECODE.RGB32 (R202). -/
  | decodeRgb32
  /-- DECODE.RGB48 (R203). -/
  | decodeRgb48
  deriving DecidableEq, Repr

/-- The seven decoder variants (R94). Code 7 is reserved and has no constructor. -/
inductive Variant where
  | planar
  | nvSemiplanar
  | p01xSemiplanar16
  | packedYuv422
  | packedRgb24
  | packedRgb32
  | packedRgb48
  deriving DecidableEq, Repr

/-- A destination plane index 0, 1 or 2. -/
inductive Plane where
  | p0
  | p1
  | p2
  deriving DecidableEq, Repr

/-- The fields of the 64-bit descriptor word, in the order of R95's table, least significant first,
the fields marked zero among them, so that no bit of the word is lost. -/
structure Descriptor where
  /-- bits 2:0, VARIANT -/
  variant : BitVec 3
  /-- bit 3, marked zero -/
  zeroA : BitVec 1
  /-- bits 7:4, ORDER0 -/
  order0 : BitVec 4
  /-- bits 11:8, ORDER1 -/
  order1 : BitVec 4
  /-- bits 15:12, ORDER2 -/
  order2 : BitVec 4
  /-- bits 19:16, ORDER3 -/
  order3 : BitVec 4
  /-- bits 23:20, SUB_H, the factor itself -/
  subH : BitVec 4
  /-- bits 27:24, SUB_V, the factor itself -/
  subV : BitVec 4
  /-- bits 31:28, marked zero -/
  zeroB : BitVec 4
  /-- bits 39:32, BPP -/
  bpp : BitVec 8
  /-- bits 44:40, DEPTH -/
  depth : BitVec 5
  /-- bits 47:45, marked zero -/
  zeroC : BitVec 3
  /-- bits 49:48, PLANES -/
  planes : BitVec 2
  /-- bits 51:50, FAMILY: 0 GRAY, 1 YUV, 2 RGB -/
  family : BitVec 2
  /-- bits 63:52, marked zero -/
  zeroD : BitVec 12
  deriving DecidableEq, Repr

/-- A ROM entry: 160 bits, DESC in bits 63:0 and NAME in bits 159:64 (R96). -/
abbrev RomEntry := BitVec 160

/-- A format ROM: the array of entries `RomRead(0) .. RomRead(NENTRIES-1)` (R120). -/
abbrev Rom := List RomEntry

/-- The error causes a command can end with (R221). -/
inductive ErrCode where
  | unsupportedFormat
  | invalidGeometry
  | illegalCmd
  | sequence
  | dstConfig
  | range
  deriving DecidableEq, Repr

/-- The eighteen registers of R20. -/
inductive Reg where
  | cmd
  | status
  | width
  | height
  | tag0
  | tag1
  | tag2
  | fmtIndex
  | descLo
  | descHi
  | payloadSize
  | srcBase
  | dstBase0
  | dstBase1
  | dstBase2
  | dstStride0
  | dstStride1
  | dstStride2
  deriving DecidableEq, Repr

/-- The width of a host register access; only `word` has a meaning (R64, U8). -/
inductive AccessWidth where
  | byte
  | half
  | word
  deriving DecidableEq, Repr

/-- What the outside world can do to PFDEC: the lines of the host script (R101), the host's accesses
to DST (R43) and the reset event (R250). -/
inductive HostAction where
  /-- `WR`: the host writes `v` at register offset `off`. -/
  | regWrite (w : AccessWidth) (off : Nat) (v : Word)
  /-- `RD`: the host reads the register at offset `off`. -/
  | regRead (w : AccessWidth) (off : Nat)
  /-- `WAIT`: the completion step of the command in flight happens here. -/
  | wait
  /-- `SRC[a..] = bs`: the host stores bytes in SRC. -/
  | srcStore (a : Nat) (bs : List Byte)
  /-- The host reads one byte of DST. -/
  | dstLoad (a : Nat)
  /-- The host stores bytes in DST. -/
  | dstStore (a : Nat) (bs : List Byte)
  /-- The reset event. -/
  | reset
  deriving DecidableEq, Repr

end Sys2Proof
end

