-- ==== Sys2Proof/Config.lean ====
section
/-! DEFINITION. What a build of PFDEC fixes (the parameters of R6 with their defaults) and the free
values of the spec: constants without a body, so that no proof can know what they are. -/

namespace Sys2Proof.Config

/-- A free byte, one for each draw: what a tail padding byte holds after a word-gather row (R77, U3).
DESIGN CHOICE of form, log 4. -/
opaque freeByte : Nat → Byte

/-- A free bit, one for each draw: whether a reset that cuts a DECODE short finds a given byte already
written (R250, U9). DESIGN CHOICE of form, log 6. -/
opaque freeBit : Nat → Bool

/-- A free word, one for each draw: PENDING after the reset event (R42, R250, U10). Log 5. -/
opaque freeWord : Nat → Word

/-- `MAXDIM`'s default (R6). -/
def defaultMaxDim : Nat := 16383

/-- A ROM entry from its NAME words in the packing of TAG0 to TAG2 and its DESC words (R96). -/
def romEntry (name0 name1 name2 lo hi : Word) : RomEntry :=
  name2 ++ name1 ++ name0 ++ hi ++ lo

/-- Rows 0 to 12 of the reference ROM (R135), from `format_rom.json`. -/
def referenceRowsA : Rom :=
  [romEntry 0x30323449 0x00000000 0x00000000 0x02292100 0x0007080c,  -- 0 I420
   romEntry 0x56555949 0x00000000 0x00000000 0x02292100 0x0007080c,  -- 1 IYUV
   romEntry 0x32315659 0x00000000 0x00000000 0x02291200 0x0007080c,  -- 2 YV12
   romEntry 0x34565559 0x38503032 0x00000000 0x02292100 0x0007080c,  -- 3 YUV420P8
   romEntry 0x32323449 0x00000000 0x00000000 0x01292100 0x00070810,  -- 4 I422
   romEntry 0x36315659 0x00000000 0x00000000 0x01291200 0x00070810,  -- 5 YV16
   romEntry 0x34565559 0x38503232 0x00000000 0x01292100 0x00070810,  -- 6 YUV422P8
   romEntry 0x34343449 0x00000000 0x00000000 0x01192100 0x00070818,  -- 7 I444
   romEntry 0x34325659 0x00000000 0x00000000 0x01191200 0x00070818,  -- 8 YV24
   romEntry 0x34565559 0x38503434 0x00000000 0x01192100 0x00070818,  -- 9 YUV444P8
   romEntry 0x34565559 0x38503131 0x00000000 0x01492100 0x0007080c,  -- 10 YUV411P8
   romEntry 0x34565559 0x38503031 0x00000000 0x04492100 0x00070809,  -- 11 YUV410P8
   romEntry 0x34565559 0x38503034 0x00000000 0x02192100 0x00070810]  -- 12 YUV440P8

/-- Rows 13 to 24 of the reference ROM (R135), from `format_rom.json`. -/
def referenceRowsB : Rom :=
  [romEntry 0x00003859 0x00000000 0x00000000 0x01199900 0x00010808,  -- 13 Y8
   romEntry 0x59415247 0x00000000 0x00000000 0x01199900 0x00010808,  -- 14 GRAY
   romEntry 0x59415247 0x00003631 0x00000000 0x01199900 0x00011010,  -- 15 GRAY16
   romEntry 0x34565559 0x39503032 0x00000000 0x02292100 0x00070918,  -- 16 YUV420P9
   romEntry 0x34565559 0x31503032 0x00000030 0x02292100 0x00070a18,  -- 17 YUV420P10
   romEntry 0x34565559 0x31503032 0x00000036 0x02292100 0x00071018,  -- 18 YUV420P16
   romEntry 0x34565559 0x39503232 0x00000000 0x01292100 0x00070920,  -- 19 YUV422P9
   romEntry 0x34565559 0x31503232 0x00000030 0x01292100 0x00070a20,  -- 20 YUV422P10
   romEntry 0x34565559 0x31503232 0x00000036 0x01292100 0x00071020,  -- 21 YUV422P16
   romEntry 0x34565559 0x39503434 0x00000000 0x01192100 0x00070930,  -- 22 YUV444P9
   romEntry 0x34565559 0x31503434 0x00000030 0x01192100 0x00070a30,  -- 23 YUV444P10
   romEntry 0x34565559 0x31503434 0x00000036 0x01192100 0x00071030]  -- 24 YUV444P16

/-- Rows 25 to 36 of the reference ROM (R135), from `format_rom.json`. -/
def referenceRowsC : Rom :=
  [romEntry 0x50424752 0x00000038 0x00000000 0x01192100 0x000b0818,  -- 25 RGBP8
   romEntry 0x50524247 0x00000038 0x00000000 0x01190210 0x000b0818,  -- 26 GBRP8
   romEntry 0x50424752 0x00003631 0x00000000 0x01192100 0x000b1030,  -- 27 RGBP16
   romEntry 0x50524247 0x00003631 0x00000000 0x01190210 0x000b1030,  -- 28 GBRP16
   romEntry 0x3231564e 0x00000000 0x00000000 0x02292101 0x0007080c,  -- 29 NV12
   romEntry 0x3132564e 0x00000000 0x00000000 0x02291201 0x0007080c,  -- 30 NV21
   romEntry 0x3631564e 0x00000000 0x00000000 0x01292101 0x00070810,  -- 31 NV16
   romEntry 0x3136564e 0x00000000 0x00000000 0x01291201 0x00070810,  -- 32 NV61
   romEntry 0x30313050 0x00000000 0x00000000 0x02292102 0x00071018,  -- 33 P010
   romEntry 0x36313050 0x00000000 0x00000000 0x02292102 0x00071018,  -- 34 P016
   romEntry 0x30313250 0x00000000 0x00000000 0x01292102 0x00071020,  -- 35 P210
   romEntry 0x36313250 0x00000000 0x00000000 0x01292102 0x00071020]  -- 36 P216

/-- Rows 37 to 49 of the reference ROM (R135), from `format_rom.json`. -/
def referenceRowsD : Rom :=
  [romEntry 0x32595559 0x00000000 0x00000000 0x01220103 0x00070810,  -- 37 YUY2
   romEntry 0x56595559 0x00000000 0x00000000 0x01220103 0x00070810,  -- 38 YUYV
   romEntry 0x59565955 0x00000000 0x00000000 0x01202013 0x00070810,  -- 39 UYVY
   romEntry 0x55595659 0x00000000 0x00000000 0x01210203 0x00070810,  -- 40 YVYU
   romEntry 0x59555956 0x00000000 0x00000000 0x01201023 0x00070810,  -- 41 VYUY
   romEntry 0x00424752 0x00000000 0x00000000 0x01192104 0x000b0818,  -- 42 RGB
   romEntry 0x00524742 0x00000000 0x00000000 0x01190124 0x000b0818,  -- 43 BGR
   romEntry 0x41424752 0x00000000 0x00000000 0x01192105 0x000b0820,  -- 44 RGBA
   romEntry 0x41524742 0x00000000 0x00000000 0x01190125 0x000b0820,  -- 45 BGRA
   romEntry 0x42475241 0x00000000 0x00000000 0x01121095 0x000b0820,  -- 46 ARGB
   romEntry 0x52474241 0x00000000 0x00000000 0x01101295 0x000b0820,  -- 47 ABGR
   romEntry 0x34424752 0x00000038 0x00000000 0x01192106 0x000b1030,  -- 48 RGB48
   romEntry 0x34524742 0x00000038 0x00000000 0x01190126 0x000b1030]  -- 49 BGR48

/-- The reference ROM, 50 entries (R135), the spec's default (D12). -/
def referenceRom : Rom :=
  referenceRowsA ++ referenceRowsB ++ referenceRowsC ++ referenceRowsD

end Sys2Proof.Config
end

