-- ==== Sys2Proof/WellFormed.lean ====
section
/-! DEFINITION. Well-formedness: which descriptors, names, ROM entries and tables are legal
(`40_format_rom.md` rules R120, R123 to R132). A command itself has no operand field and so no check
(R91): every `Instr` is well formed. -/

namespace Sys2Proof

/-- The slot value 9, "no plane" (R11, R98). -/
def noPlane : Nat := 9

/-- The plane a slot value names, none for `NOPLANE` and for the reserved values (R98). -/
def Plane.ofCode : Nat → Option Plane
  | 0 => some .p0
  | 1 => some .p1
  | 2 => some .p2
  | _ => none

/-- A plane's index. -/
def Plane.code : Plane → Nat
  | .p0 => 0
  | .p1 => 1
  | .p2 => 2

/-- The variant's 3-bit code (R94). -/
def Variant.code : Variant → BitVec 3
  | .planar => 0
  | .nvSemiplanar => 1
  | .p01xSemiplanar16 => 2
  | .packedYuv422 => 3
  | .packedRgb24 => 4
  | .packedRgb32 => 5
  | .packedRgb48 => 6

/-- `d.ORDER[i]` as a number (R95). -/
def Descriptor.order (d : Descriptor) : Nat → Nat
  | 0 => d.order0.toNat
  | 1 => d.order1.toNat
  | 2 => d.order2.toNat
  | _ => d.order3.toNat

/-- `bps`: bytes per sample, 1 up to depth 8 and 2 above (R9). -/
def Descriptor.bps (d : Descriptor) : Nat :=
  if d.depth.toNat ≤ 8 then 1 else 2

/-- A legal slot value: 0, 1, 2 or 9 (R98, R124). -/
def slotLegal (n : Nat) : Bool :=
  n == 0 || n == 1 || n == 2 || n == noPlane

/-- A legal subsampling factor: 1, 2 or 4 (R124). -/
def factorLegal (n : Nat) : Bool :=
  n == 1 || n == 2 || n == 4

/-- The field ranges of R124 but for VARIANT, and every bit R95 marks zero. -/
def Descriptor.fieldsLegal (d : Descriptor) : Bool :=
  slotLegal d.order0.toNat && slotLegal d.order1.toNat && slotLegal d.order2.toNat &&
  slotLegal d.order3.toNat && factorLegal d.subH.toNat && factorLegal d.subV.toNat &&
  decide (8 ≤ d.depth.toNat) && decide (d.depth.toNat ≤ 16) &&
  (d.planes.toNat == 1 || d.planes.toNat == 3) && decide (d.family.toNat ≤ 2) &&
  d.zeroA == 0 && d.zeroB == 0 && d.zeroC == 0 && d.zeroD == 0

/-- Canonical format consistency (R125). -/
def Descriptor.canonicalLegal (d : Descriptor) : Bool :=
  ((d.family.toNat == 0) == (d.planes.toNat == 1)) &&
  (d.planes.toNat != 1 || (d.variant == Variant.planar.code && d.subH.toNat == 1 && d.subV.toNat == 1)) &&
  (d.family.toNat != 2 || (d.subH.toNat == 1 && d.subV.toNat == 1))

/-- The three values are a permutation of 0, 1, 2. -/
def isPermutation (a b c : Nat) : Bool :=
  decide (a ≤ 2) && decide (b ≤ 2) && decide (c ≤ 2) && a != b && a != c && b != c

/-- PLANAR entries (R126). -/
def Descriptor.planarLegal (d : Descriptor) : Bool :=
  if d.planes.toNat == 1 then
    d.order 0 == 0 && d.order 1 == noPlane && d.order 2 == noPlane && d.order 3 == noPlane
  else
    isPermutation (d.order 0) (d.order 1) (d.order 2) && d.order 3 == noPlane

/-- What R128 asks of both semi-planar variants. -/
def Descriptor.semiPlanarLegal (d : Descriptor) : Bool :=
  d.planes.toNat == 3 && d.order 0 == 0 &&
  ((d.order 1 == 1 && d.order 2 == 2) || (d.order 1 == 2 && d.order 2 == 1)) &&
  d.order 3 == noPlane

/-- How many of the four slots hold `n`. -/
def Descriptor.slotCount (d : Descriptor) (n : Nat) : Nat :=
  [d.order 0, d.order 1, d.order 2, d.order 3].count n

/-- PACKED_YUV422 entries (R129): the slots are 0, 0, 1, 2 in some order. -/
def Descriptor.yuv422Legal (d : Descriptor) : Bool :=
  d.planes.toNat == 3 && d.depth.toNat == 8 && d.subH.toNat == 2 && d.subV.toNat == 1 &&
  d.slotCount 0 == 2 && d.slotCount 1 == 1 && d.slotCount 2 == 1

/-- What R130 asks of all three packed RGB variants. -/
def Descriptor.packedLegal (d : Descriptor) : Bool :=
  d.planes.toNat == 3 && d.subH.toNat == 1 && d.subV.toNat == 1

/-- ORDER of a packed RGB entry without a leading unused byte (R130). -/
def Descriptor.trailingOrder (d : Descriptor) : Bool :=
  isPermutation (d.order 0) (d.order 1) (d.order 2) && d.order 3 == noPlane

/-- ORDER of a PACKED_RGB32 entry with the sentinel in position 0 (R130). -/
def Descriptor.leadingOrder (d : Descriptor) : Bool :=
  d.order 0 == noPlane && isPermutation (d.order 1) (d.order 2) (d.order 3)

/-- The bits-per-pixel-group law for the planar and semi-planar layouts (R127):
`8 * bps` for one plane, `8 * bps * (s + 2) / s` exactly for three. -/
def Descriptor.planeBppLegal (d : Descriptor) : Bool :=
  let s := d.subH.toNat * d.subV.toNat
  if d.planes.toNat == 1 then d.bpp.toNat == 8 * d.bps
  else d.bpp.toNat * s == 8 * d.bps * (s + 2)

/-- The rule of the entry's own variant (R126, R128 to R130) with its line of R127. -/
def Descriptor.variantLegal (d : Descriptor) : Bool :=
  match d.variant.toNat with
  | 0 => d.planarLegal && d.planeBppLegal
  | 1 => d.semiPlanarLegal && d.depth.toNat == 8 && d.subH.toNat == 2 && d.planeBppLegal
  | 2 => d.semiPlanarLegal && decide (9 ≤ d.depth.toNat) && d.planeBppLegal
  | 3 => d.yuv422Legal && d.bpp.toNat == 16
  | 4 => d.packedLegal && d.depth.toNat == 8 && d.trailingOrder && d.bpp.toNat == 24
  | 5 => d.packedLegal && d.depth.toNat == 8 && (d.trailingOrder || d.leadingOrder) &&
      d.bpp.toNat == 32
  | 6 => d.packedLegal && decide (9 ≤ d.depth.toNat) && d.trailingOrder && d.bpp.toNat == 48
  | _ => false

/-- A legal descriptor: R124 to R130. -/
def Descriptor.legal (d : Descriptor) : Bool :=
  d.fieldsLegal && d.canonicalLegal && d.variantLegal

/-- A legal byte of a NAME: 0x21 to 0x7E and no lower-case letter (R96, R123). -/
def nameByteLegal (b : Byte) : Bool :=
  decide (0x21 ≤ b.toNat) && decide (b.toNat ≤ 0x7E) &&
  !(decide (0x61 ≤ b.toNat) && decide (b.toNat ≤ 0x7A))

/-- A zero byte is followed by zero bytes only, and every nonzero byte is legal (R123). -/
def nameTailLegal : List Byte → Bool
  | [] => true
  | b :: bs => if b == 0 then bs.all (· == 0) else nameByteLegal b && nameTailLegal bs

/-- A legal NAME: 12 bytes, not empty (R123). -/
def nameLegal (bs : List Byte) : Bool :=
  bs.length == 12 && bs.head? != some 0 && nameTailLegal bs

/-- `MAXDIM^2 * 48 / 8 < 2^32`, the bound of U18 under which PAYLOAD_SIZE cannot wrap (R160). -/
def maxDimLegal (m : Nat) : Bool :=
  decide (m * m * 48 / 8 < 2 ^ 32)

end Sys2Proof
end

