-- ==== Sys2Proof/Decode.lean ====
section
/-! DEFINITION. Reading the encoded objects and writing them: the dispatch word (R91 to R93, R100),
the descriptor word (R95), the ROM entry (R96), the register offsets (R20), and the legality of ROM
entries and tables, which is judged on what is read (R120, R123 to R132). -/

namespace Sys2Proof

/-- Why a dispatch word is no operation (R100). -/
inductive DecodeError where
  /-- one of bits 31:4 of the command word is 1 -/
  | nonzeroHighBits
  /-- OPCODE is 4 to 15 -/
  | reservedOpcode
  /-- DECODE with `d.VARIANT` = 7 -/
  | reservedVariant
  deriving DecidableEq, Repr

/-- The operation a DECODE performs, by the variant code (R92, R94). -/
def decodeVariant (v : BitVec 3) : Except DecodeError Instr :=
  match v.toNat with
  | 0 => .ok .decodePlanar
  | 1 => .ok .decodeNv
  | 2 => .ok .decodeP01x
  | 3 => .ok .decodeYuv422
  | 4 => .ok .decodeRgb24
  | 5 => .ok .decodeRgb32
  | 6 => .ok .decodeRgb48
  | _ => .error .reservedVariant

/-- The operation a dispatch word selects: bits 31:0 the command word, bits 34:32 `d.VARIANT`
(R91, R92). -/
def decode (dw : BitVec 35) : Except DecodeError Instr :=
  if dw.extractLsb' 4 28 ≠ 0 then .error .nonzeroHighBits
  else
    match (dw.extractLsb' 0 4).toNat with
    | 0 => .ok .nop
    | 1 => .ok .resolve
    | 2 => decodeVariant (dw.extractLsb' 32 3)
    | 3 => .ok .close
    | _ => .error .reservedOpcode

/-- The row's match word (R93), which is also the operation's encoding, the ignored variant bits of
NOP, RESOLVE and CLOSE being 0. -/
def encode : Instr → BitVec 35
  | .nop => 0x000000000
  | .resolve => 0x000000001
  | .close => 0x000000003
  | .decodePlanar => 0x000000002
  | .decodeNv => 0x100000002
  | .decodeP01x => 0x200000002
  | .decodeYuv422 => 0x300000002
  | .decodeRgb24 => 0x400000002
  | .decodeRgb32 => 0x500000002
  | .decodeRgb48 => 0x600000002

/-- The row's mask word (R93). -/
def rowMask : Instr → BitVec 35
  | .nop | .resolve | .close => 0x0FFFFFFFF
  | .decodePlanar | .decodeNv | .decodeP01x | .decodeYuv422 | .decodeRgb24 | .decodeRgb32
  | .decodeRgb48 => 0x7FFFFFFFF

/-- The command word the host writes for an operation (R91). -/
def commandWord (i : Instr) : Word := (encode i).extractLsb' 0 32

/-- The operation read from bits `w` of an opcode-table row, bit 0 the least significant bit of the
dispatch word; none where the word is no operation or holds a bit above bit 34 (log 17). -/
def decodeTableWord (nbits w : Nat) : Option Instr :=
  if w % 2 ^ nbits < 2 ^ 35 then (decode (BitVec.ofNat 35 (w % 2 ^ nbits))).toOption else none

/-! ## The descriptor word -/

/-- The fields of a descriptor word (R95). -/
def Descriptor.unpack (w : BitVec 64) : Descriptor where
  variant := w.extractLsb' 0 3
  zeroA := w.extractLsb' 3 1
  order0 := w.extractLsb' 4 4
  order1 := w.extractLsb' 8 4
  order2 := w.extractLsb' 12 4
  order3 := w.extractLsb' 16 4
  subH := w.extractLsb' 20 4
  subV := w.extractLsb' 24 4
  zeroB := w.extractLsb' 28 4
  bpp := w.extractLsb' 32 8
  depth := w.extractLsb' 40 5
  zeroC := w.extractLsb' 45 3
  planes := w.extractLsb' 48 2
  family := w.extractLsb' 50 2
  zeroD := w.extractLsb' 52 12

/-- The descriptor word with the given fields (R95). -/
def Descriptor.pack (d : Descriptor) : BitVec 64 :=
  d.zeroD ++ d.family ++ d.planes ++ d.zeroC ++ d.depth ++ d.bpp ++ d.zeroB ++ d.subV ++ d.subH ++
  d.order3 ++ d.order2 ++ d.order1 ++ d.order0 ++ d.zeroA ++ d.variant

/-! ## The ROM entry and the table -/

/-- Byte `j` of a word, byte 0 in bits 7:0 (R62, R97). -/
def leByte {n : Nat} (w : BitVec n) (j : Nat) : Byte := w.extractLsb' (8 * j) 8

/-- The DESC field, bits 63:0 of an entry (R96). -/
def RomEntry.descWord (e : RomEntry) : BitVec 64 := e.extractLsb' 0 64

/-- The 12 bytes of the NAME field, bits 159:64 of an entry, byte 0 lowest (R96). -/
def RomEntry.nameBytes (e : RomEntry) : List Byte :=
  (List.range 12).map (fun j => leByte e (8 + j))

/-- An entry's descriptor. -/
def RomEntry.desc (e : RomEntry) : Descriptor := Descriptor.unpack e.descWord

/-- A legal entry: R123 of its NAME, R124 to R130 of its descriptor. -/
def RomEntry.legal (e : RomEntry) : Bool := nameLegal e.nameBytes && e.desc.legal

/-- The NAME fields are pairwise distinct (R131). -/
def Rom.namesDistinct : Rom → Bool
  | [] => true
  | e :: es => es.all (fun e' => e.extractLsb' 64 96 != e'.extractLsb' 64 96) && Rom.namesDistinct es

/-- A legal PFDEC ROM: 1 to 256 entries (R120), each legal, names distinct (R131). -/
def Rom.legal (r : Rom) : Bool :=
  decide (1 ≤ r.length) && decide (r.length ≤ 256) && r.all RomEntry.legal && Rom.namesDistinct r

/-- R132(a): an 8-bit 4:2:0 three-plane PLANAR entry with ORDER 0, 1, 2, 9. -/
def Descriptor.isDefaultLayout (d : Descriptor) : Bool :=
  d.variant == Variant.planar.code && d.depth.toNat == 8 && d.subH.toNat == 2 && d.subV.toNat == 2 &&
  d.planes.toNat == 3 && d.order 0 == 0 && d.order 1 == 1 && d.order 2 == 2 && d.order 3 == noPlane

/-- The descriptor with the values 1 and 2 exchanged throughout ORDER (R134). -/
def Descriptor.swapChroma (d : Descriptor) : Descriptor :=
  let f : BitVec 4 → BitVec 4 := fun v => if v = 1 then 2 else if v = 2 then 1 else v
  { d with order0 := f d.order0, order1 := f d.order1, order2 := f d.order2, order3 := f d.order3 }

/-- The four slots of ORDER in order. -/
def Descriptor.orderSlots (d : Descriptor) : List Nat := [d.order 0, d.order 1, d.order 2, d.order 3]

/-- R132(b): the same subsampling, depth and variant, and the plane order swapped. The spec gives an
exchange of U and V as an example only; that "swapped plane order" asks for the same slot values in another
order, and for nothing more, is the model's reading (DEDUCED, log 21). -/
def Descriptor.isSwappedPair (d d' : Descriptor) : Bool :=
  d.variant == d'.variant && d.subH == d'.subH && d.subV == d'.subV && d.depth == d'.depth &&
  d.orderSlots != d'.orderSlots && d.orderSlots.isPerm d'.orderSlots

/-- R132(c): two NV_SEMIPLANAR descriptors that differ in ORDER[1] and ORDER[2]. That they may differ in
other fields too, SUB_V among them, is the model's reading (DEDUCED, log 21). -/
def Descriptor.isNvPair (d d' : Descriptor) : Bool :=
  d.variant == Variant.nvSemiplanar.code && d'.variant == Variant.nvSemiplanar.code &&
  d.order 1 != d'.order 1 && d.order 2 != d'.order 2

/-- What the document requires some entries of a legal ROM to be (R132): the default layout (a), a
swapped pair (b), an NV pair (c), every variant (d), RGB32 with and without the leading sentinel (e).
How (b) and (c) are read is log 21. -/
def Rom.hasRequiredEntries (r : Rom) : Bool :=
  let ds := r.map RomEntry.desc
  ds.any Descriptor.isDefaultLayout && ds.any (fun d => ds.any d.isSwappedPair) &&
  ds.any (fun d => ds.any d.isNvPair) &&
  [Variant.planar, .nvSemiplanar, .p01xSemiplanar16, .packedYuv422, .packedRgb24, .packedRgb32,
    .packedRgb48].all (fun v => ds.any (fun d => d.variant == v.code)) &&
  ds.any (fun d => d.variant == Variant.packedRgb32.code && d.leadingOrder) &&
  ds.any (fun d => d.variant == Variant.packedRgb32.code && d.trailingOrder)

/-! ## The register map -/

/-- The register at a byte offset, none at the reserved offsets (R20). -/
def regAt : Nat → Option Reg
  | 0x00 => some .cmd
  | 0x04 => some .status
  | 0x08 => some .width
  | 0x0C => some .height
  | 0x10 => some .tag0
  | 0x14 => some .tag1
  | 0x18 => some .tag2
  | 0x1C => some .fmtIndex
  | 0x20 => some .descLo
  | 0x24 => some .descHi
  | 0x28 => some .payloadSize
  | 0x2C => some .srcBase
  | 0x30 => some .dstBase0
  | 0x34 => some .dstBase1
  | 0x38 => some .dstBase2
  | 0x3C => some .dstStride0
  | 0x40 => some .dstStride1
  | 0x44 => some .dstStride2
  | _ => none

/-- The byte offset of a register (R20). -/
def Reg.offset : Reg → Nat
  | .cmd => 0x00
  | .status => 0x04
  | .width => 0x08
  | .height => 0x0C
  | .tag0 => 0x10
  | .tag1 => 0x14
  | .tag2 => 0x18
  | .fmtIndex => 0x1C
  | .descLo => 0x20
  | .descHi => 0x24
  | .payloadSize => 0x28
  | .srcBase => 0x2C
  | .dstBase0 => 0x30
  | .dstBase1 => 0x34
  | .dstBase2 => 0x38
  | .dstStride0 => 0x3C
  | .dstStride1 => 0x40
  | .dstStride2 => 0x44

/-- A host access the REG space is defined for: an aligned word at 0x00 to 0xFC (R64, U8). -/
def regAccessOk (w : AccessWidth) (off : Nat) : Bool :=
  w == .word && off % 4 == 0 && decide (off ≤ 0xFC)

/-- The 4-bit ERRCODE of an error cause (R221). -/
def ErrCode.code : ErrCode → BitVec 4
  | .unsupportedFormat => 1
  | .invalidGeometry => 2
  | .illegalCmd => 3
  | .sequence => 4
  | .dstConfig => 5
  | .range => 6

end Sys2Proof
end

