-- ==== Sys2Proof/Machine/State.lean ====
section
/-! DEFINITION. The state of PFDEC (`10_state.md`), the reasons a step can stop, and the state right
after reset (R45). -/

namespace Sys2Proof.Machine

/-- The contents of SRC or of DST: (address, byte) pairs in rising order of address, no byte 0 listed;
an address that is not listed holds 0 (log 7). -/
abbrev Mem := List Host.Cell

/-- The sequencer (R40), visible as STATUS.BUSY. -/
inductive Seq where
  | idle
  | busy
  deriving DecidableEq, Repr

/-- Why the machine stops with a fault. A command error is no fault: it is reported in STATUS and the
machine goes on (R225). -/
inductive Fault where
  /-- Raised by a host store or load whose bytes do not all lie below address 2^32, which the SRC and
  DST spaces do not have (R43, log 14). Safe. -/
  | outsideAddressSpace (a : Nat)
  deriving DecidableEq, Repr

/-- Why a step has no result. Each but the first stands where the spec says that a model refuses. -/
inductive Refusal where
  /-- Raised by an arm of `exec` whose instruction has no meaning yet: none in this model. Safe. -/
  | notModelled (mnemonic : String)
  /-- Raised by a DECODE that passed its checks while the footprints of two used planes overlap
  (R259, U1, log 10). Safe. -/
  | overlappingFootprints
  /-- Raised by a host load or store of DST inside a footprint while a DECODE that passes its checks
  is in flight (R72, R260, U5, log 11). Safe. -/
  | dstTouchedDuringDecode
  /-- Raised by a host store to SRC inside the source window while a DECODE that passes its checks is
  in flight (R257, U6, log 11). Safe. -/
  | srcWrittenDuringDecode
  /-- Raised by a host register access that is not an aligned 32-bit word at 0x00 to 0xFC
  (R64, U8, log 12). Safe. -/
  | badRegisterAccess
  /-- Raised by a RESOLVE whose tag matches an entry that is not legal or not indexable, or under a
  MAXDIM out of its bound (R262, U4, U18, log 3). Safe. -/
  | illegalRom
  /-- Raised by a DECODE whose resolved descriptor is not a legal one of the operation's variant, which
  no legal ROM can give (R262, U4, log 3). Safe. -/
  | illegalDescriptor
  deriving DecidableEq, Repr

/-- The state: every piece R20 names, the build's parameters, the host's two memories, and three
fields of the model's own. -/
structure State where
  /-- SEQ (R40). -/
  seq : Seq
  /-- PENDING (R42). While IDLE it holds the last command word: DESIGN CHOICE, log 20. -/
  pending : Word
  /-- STATUS.RESOLVED (R33). -/
  resolved : Bool
  /-- STATUS.DONE (R33). -/
  done : Bool
  /-- STATUS.ERR (R33). -/
  err : Bool
  /-- STATUS.ERRCODE (R33). -/
  errCode : BitVec 4
  /-- STATUS.OVR (R33). -/
  ovr : Bool
  /-- WIDTH (R21). -/
  width : Word
  /-- HEIGHT (R22). -/
  height : Word
  /-- TAG0 (R23). -/
  tag0 : Word
  /-- TAG1 (R23). -/
  tag1 : Word
  /-- TAG2 (R23). -/
  tag2 : Word
  /-- FMT_INDEX bits 7:0; its bits 31:8 read 0 (R34). -/
  fmtIndex : BitVec 8
  /-- DESC_LO (R35). -/
  descLo : Word
  /-- DESC_HI (R35). -/
  descHi : Word
  /-- PAYLOAD_SIZE (R36). -/
  payloadSize : Word
  /-- SRC_BASE (R24). -/
  srcBase : Word
  /-- DST_BASE0 (R25). -/
  dstBase0 : Word
  /-- DST_BASE1 (R25). -/
  dstBase1 : Word
  /-- DST_BASE2 (R25). -/
  dstBase2 : Word
  /-- DST_STRIDE0 (R26). -/
  dstStride0 : Word
  /-- DST_STRIDE1 (R26). -/
  dstStride1 : Word
  /-- DST_STRIDE2 (R26). -/
  dstStride2 : Word
  /-- The ROM, immutable (R20, R121, log 2). -/
  rom : Rom
  /-- The build parameter MAXDIM, immutable (R6, log 2). -/
  maxDim : Nat
  /-- The SRC space (R43). -/
  src : Mem
  /-- The DST space (R43). -/
  dst : Mem
  /-- The model's own: what the outside world does from now on, in order (R265, log 1). -/
  inputs : List HostAction
  /-- The model's own: the data the host's last read returned (log 8). -/
  rdata : Word
  /-- The model's own: which free value is drawn next (log 9). -/
  free : Nat
  deriving DecidableEq, Repr

/-- The machine right after reset (R45): every register 0, SEQ IDLE, the reference ROM; PENDING, the
memories and the model's own fields as logs 5, 7, 8 and 9 say. -/
def State.reset : State where
  seq := .idle
  pending := 0
  resolved := false
  done := false
  err := false
  errCode := 0
  ovr := false
  width := 0
  height := 0
  tag0 := 0
  tag1 := 0
  tag2 := 0
  fmtIndex := 0
  descLo := 0
  descHi := 0
  payloadSize := 0
  srcBase := 0
  dstBase0 := 0
  dstBase1 := 0
  dstBase2 := 0
  dstStride0 := 0
  dstStride1 := 0
  dstStride2 := 0
  rom := Config.referenceRom
  maxDim := Config.defaultMaxDim
  src := []
  dst := []
  inputs := []
  rdata := 0
  free := 0

end Sys2Proof.Machine
end

