-- ==== Sys2Proof/Machine/Flags.lean ====
section
/-! DEFINITION. STATUS (R33): its word, and every update of its flags. -/

namespace Sys2Proof.Machine

/-- A flag at bit `n` of a 32-bit word. -/
def flagBit (b : Bool) (n : Nat) : Word := if b then 1#32 <<< n else 0#32

/-- STATUS.BUSY: `SEQ = BUSY` (R40). -/
def State.busy (s : State) : Bool := decide (s.seq = .busy)

/-- The STATUS word (R33): BUSY 0, RESOLVED 1, DONE 2, ERR 3, ERRCODE 7:4, OVR 8, zero above. -/
def State.statusWord (s : State) : Word :=
  flagBit s.busy 0 ||| flagBit s.resolved 1 ||| flagBit s.done 2 ||| flagBit s.err 3 |||
  (s.errCode.setWidth 32 <<< 4) ||| flagBit s.ovr 8

/-- Acceptance of command word `c` (R150): PENDING and BUSY set; DONE, ERR, ERRCODE cleared. It is also
the return from an error (R229). -/
def State.accept (c : Word) (s : State) : State :=
  { s with pending := c, seq := .busy, done := false, err := false, errCode := 0 }

/-- Completion without error (R151): DONE set, BUSY cleared. PENDING, which U10 leaves open while IDLE, keeps
the command word: DESIGN CHOICE, log 20. -/
def State.complete (s : State) : State :=
  { s with done := true, seq := .idle }

/-- The sticky overrun flag of a discarded write (R33, R46). -/
def State.setOvr (s : State) : State := { s with ovr := true }

/-- The resolution dropped: RESOLVED, FMT_INDEX, DESC_LO, DESC_HI, PAYLOAD_SIZE cleared
(R47, R152, R159, R225). -/
def State.clearResolution (s : State) : State :=
  { s with resolved := false, fmtIndex := 0, descLo := 0, descHi := 0, payloadSize := 0 }

/-- `raise Err(code)`, error completion (R225): ERR and ERRCODE set, DONE and BUSY cleared. PENDING keeps the
command word: DESIGN CHOICE, log 20. -/
def State.raiseErr (code : ErrCode) (s : State) : State :=
  { s with err := true, errCode := code.code, done := false, seq := .idle }

/-- Error completion of a RESOLVE, which also drops the resolution (R152, R225). -/
def State.raiseResolveErr (code : ErrCode) (s : State) : State :=
  (s.clearResolution).raiseErr code

end Sys2Proof.Machine
end

