-- ==== Sys2Proof/Machine/Memory.lean ====
section
/-! DEFINITION. The byte operations over SRC and DST (R43, R60, R63, R64) and the canonical form of a
memory. -/

namespace Sys2Proof.Machine

/-- What an address that is not listed holds. DESIGN CHOICE, unsafe: log 7. -/
def Mem.unlisted : Byte := 0

/-- The byte at address `a`; the entries are read in rising order. -/
def Mem.read : Mem → Nat → Byte
  | [], _ => Mem.unlisted
  | (k, b) :: m, a => if a < k then Mem.unlisted else if a = k then b else Mem.read m a

/-- The entries above address `a`, from a list that stands after an entry for `a`. -/
def Mem.dropUpTo : Mem → Nat → Mem
  | [], _ => []
  | (k, b) :: m, a => if k ≤ a then Mem.dropUpTo m a else (k, b) :: m

/-- `m` with byte `b` at address `a`, in canonical form again: the value an unlisted address holds is
not listed. -/
def Mem.write : Mem → Nat → Byte → Mem
  | [], a, b => if b = Mem.unlisted then [] else [(a, b)]
  | (k, c) :: m, a, b =>
    if a < k then (if b = Mem.unlisted then (k, c) :: m else (a, b) :: (k, c) :: m)
    else if a = k then (if b = Mem.unlisted then Mem.dropUpTo m a else (a, b) :: m)
    else (k, c) :: Mem.write m a b

/-- `MemWrite(DST, a, n, v)` and the host's stores: the bytes of a list, in order, from address `a` up
(R64). -/
def Mem.writeBytes (m : Mem) (a : Nat) : List Byte → Mem
  | [] => m
  | b :: bs => Mem.writeBytes (Mem.write m a b) (a + 1) bs

/-- `MemRead(SRC, a, n)`: the `n` bytes from address `a` up, in address order (R63). -/
def Mem.readBytes (m : Mem) (a n : Nat) : List Byte :=
  (List.range n).map (fun i => Mem.read m (a + i))

/-- Addresses from `lo` up strictly rising, all below 2^32, and no listed byte equal to the unlisted
one. -/
def Mem.wfFrom (lo : Nat) : Mem → Bool
  | [] => true
  | (k, b) :: m => decide (lo ≤ k) && decide (k < spaceSize) && b != Mem.unlisted && Mem.wfFrom (k + 1) m

/-- The canonical form of a memory. -/
def Mem.wf (m : Mem) : Bool := Mem.wfFrom 0 m

end Sys2Proof.Machine
end

