-- ==== Sys2Proof/Machine/Operands.lean ====
section
/-! DEFINITION. The operands of the commands: the tag key and the ROM lookup (R97, R122), the derived
quantities of R9, the addresses of R162, the windows of R11, and the word gather's lanes (R61). -/

namespace Sys2Proof.Machine

/-! ## The tag and the ROM -/

/-- The 12 tag bytes: byte `j` in bits `8(j mod 4)+7 : 8(j mod 4)` of `TAG<j/4>` (R23). -/
def State.tagBytes (s : State) : List Byte :=
  [s.tag0, s.tag1, s.tag2].flatMap (fun w => [leByte w 0, leByte w 1, leByte w 2, leByte w 3])

/-- `a..z` to `A..Z`, every other byte itself (R97). -/
def foldByte (b : Byte) : Byte :=
  if 0x61 ≤ b.toNat ∧ b.toNat ≤ 0x7A then b - 0x20 else b

/-- The folded bytes before the first zero byte (R97). -/
def foldTag (bs : List Byte) : List Byte :=
  (bs.takeWhile (fun b => b != 0)).map foldByte

/-- A folded tag padded with zero bytes to 12 (R97). -/
def padKey (k : List Byte) : List Byte := k ++ List.replicate (12 - k.length) 0

/-- The 12-byte key RESOLVE looks up (R97). -/
def State.tagKey (s : State) : List Byte := padKey (foldTag s.tagBytes)

/-- The scan from index `i` up: the first entry whose NAME is the key, with its index (R122). -/
def romScan (key : List Byte) : Rom → Nat → Option (Nat × RomEntry)
  | [], _ => none
  | e :: es, i => if e.nameBytes = key then some (i, e) else romScan key es (i + 1)

/-- `RomLookup(key)` (R122). -/
def romLookup (r : Rom) (key : List Byte) : Option (Nat × RomEntry) := romScan key r 0

/-! ## The resolved descriptor and the geometry -/

/-- The descriptor word `d = {DESC_HI, DESC_LO}` (R35). -/
def State.descWord (s : State) : BitVec 64 := s.descHi ++ s.descLo

/-- The resolved descriptor's fields (R95). -/
def State.desc (s : State) : Descriptor := Descriptor.unpack s.descWord

/-- WIDTH and HEIGHT as numbers. -/
def State.W (s : State) : Nat := s.width.toNat

/-- HEIGHT as a number. -/
def State.H (s : State) : Nat := s.height.toNat

/-- The dispatch word: PENDING in bits 31:0, `d.VARIANT` in bits 34:32 (R92). -/
def State.dispatchWord (s : State) : BitVec 35 := s.descLo.extractLsb' 0 3 ++ s.pending

/-- `PW[p]`: the width of plane `p` in samples (R9). -/
def planeWidth (d : Descriptor) (W : Nat) : Plane → Nat
  | .p0 => W
  | .p1 => W / d.subH.toNat
  | .p2 => W / d.subH.toNat

/-- `PH[p]`: the height of plane `p` in samples (R9). -/
def planeHeight (d : Descriptor) (H : Nat) : Plane → Nat
  | .p0 => H
  | .p1 => H / d.subV.toNat
  | .p2 => H / d.subV.toNat

/-- `RB[p]`: the active bytes of a row of plane `p` (R9). -/
def rowBytes (d : Descriptor) (W : Nat) (p : Plane) : Nat := planeWidth d W p * d.bps

/-- `PAYLOAD`: the payload-byte-size (R9). -/
def payloadBytes (d : Descriptor) (W H : Nat) : Nat := W * H * d.bpp.toNat / 8

/-- `ceil4(n)`: the next multiple of 4 (R7). -/
def ceil4 (n : Nat) : Nat := 4 * ((n + 3) / 4)

/-- A geometry RESOLVE accepts for `d` (R152): both dimensions 1 to MAXDIM and multiples of their
factors. -/
def geometryOk (maxDim : Nat) (d : Descriptor) (W H : Nat) : Bool :=
  W != 0 && H != 0 && decide (W ≤ maxDim) && decide (H ≤ maxDim) &&
  W % d.subH.toNat == 0 && H % d.subV.toNat == 0

/-- The planes the canonical format has: `p < d.PLANES`, rising. -/
def usedPlanes (d : Descriptor) : List Plane := [Plane.p0, .p1, .p2].take d.planes.toNat

/-- The destination plane slot `i` names; a legal descriptor's slots that are read as planes are never
`NOPLANE` (R98). -/
def slotPlane (d : Descriptor) (i : Nat) : Plane := (Plane.ofCode (d.order i)).getD .p0

/-! ## Addresses and windows -/

/-- `x[DST_BASE_p]` (R25). -/
def State.dstBase (s : State) : Plane → Nat
  | .p0 => s.dstBase0.toNat
  | .p1 => s.dstBase1.toNat
  | .p2 => s.dstBase2.toNat

/-- `x[DST_STRIDE_p]` (R26). -/
def State.dstStride (s : State) : Plane → Nat
  | .p0 => s.dstStride0.toNat
  | .p1 => s.dstStride1.toNat
  | .p2 => s.dstStride2.toNat

/-- The DST address of byte `k` of row `y` of plane `p`: the address `D(p, y, k)` stores to (R8, R162). -/
def State.dstAddr (s : State) (p : Plane) (y k : Nat) : Nat := s.dstBase p + y * s.dstStride p + k

/-- `S(i)`: the source byte at payload offset `i` (R8). -/
def State.srcByte (s : State) (i : Nat) : Byte := Mem.read s.src (s.srcBase.toNat + i)

/-- One past the last address of plane `p`'s footprint (R11, R157). -/
def State.footprintEnd (s : State) (d : Descriptor) (p : Plane) : Nat :=
  s.dstBase p + (planeHeight d s.H p - 1) * s.dstStride p + ceil4 (rowBytes d s.W p)

/-- Address `a` lies in the footprint of plane `p` (R11). -/
def State.inFootprint (s : State) (d : Descriptor) (p : Plane) (a : Nat) : Bool :=
  decide (s.dstBase p ≤ a) && decide (a < s.footprintEnd d p)

/-- Address `a` lies in the source window (R11). -/
def State.inSourceWindow (s : State) (a : Nat) : Bool :=
  decide (s.srcBase.toNat ≤ a) && decide (a < s.srcBase.toNat + s.payloadSize.toNat)

/-- The footprints of two planes do not meet (R259). -/
def State.footprintsApart (s : State) (d : Descriptor) (p q : Plane) : Bool :=
  decide (s.footprintEnd d p ≤ s.dstBase q) || decide (s.footprintEnd d q ≤ s.dstBase p)

/-- The footprints of the used planes are pairwise disjoint (R259). -/
def State.footprintsDisjoint (s : State) (d : Descriptor) : Bool :=
  (usedPlanes d).all fun p => (usedPlanes d).all fun q => p == q || s.footprintsApart d p q

/-! ## The word gather -/

/-- The 32-bit word of four samples, sample `j` in bits `8j+7 : 8j` (R61, R181, R200). -/
def gatherWord (b0 b1 b2 b3 : Byte) : Word := b3 ++ b2 ++ b1 ++ b0

/-! ## Moves: the assignments of a decode body -/

/-- One assignment `D(plane, row, col) <- S(src)` of a decode body, or `<- any` where `src` is none. -/
structure Move where
  plane : Plane
  row : Nat
  col : Nat
  src : Option Nat
  deriving DecidableEq, Repr

/-- The DST address a move stores to. -/
def State.moveAddr (s : State) (m : Move) : Nat := s.dstAddr m.plane m.row m.col

/-- `D(p, y, k) <- S(off + y * rb + k)` for `ph` rows of `rb` bytes: one source plane copied row by row
(R170, R180, R182). -/
def copyPlane (p : Plane) (off rb ph : Nat) : List Move :=
  (List.range ph).flatMap fun y => (List.range rb).map fun k => ⟨p, y, k, some (off + y * rb + k)⟩

/-- `D(p, y, k) <- any` for `k` from `rb` to `ceil4(rb) - 1` and each plane of `ps`: the tail padding of
one row (R77). -/
def tailPadding (ps : List Plane) (y rb : Nat) : List Move :=
  (List.range (ceil4 rb - rb)).flatMap fun j => ps.map fun p => ⟨p, y, rb + j, none⟩

end Sys2Proof.Machine
end

