-- ==== Sys2Proof/Machine/Ops.lean ====
section
/-! DEFINITION. The named operations the meanings share: register reads and writes (R46, R47), the
execution of a body's moves, the DECODE front-end (R154 to R157), and the completion of commands that
are no operation (R223). -/

namespace Sys2Proof.Machine

/-! ## Registers -/

/-- The value a host read of a register returns (R46); CMD reads 0 (R32). -/
def State.readReg (s : State) : Reg → Word
  | .cmd => 0
  | .status => s.statusWord
  | .width => s.width
  | .height => s.height
  | .tag0 => s.tag0
  | .tag1 => s.tag1
  | .tag2 => s.tag2
  | .fmtIndex => s.fmtIndex.setWidth 32
  | .descLo => s.descLo
  | .descHi => s.descHi
  | .payloadSize => s.payloadSize
  | .srcBase => s.srcBase
  | .dstBase0 => s.dstBase0
  | .dstBase1 => s.dstBase1
  | .dstBase2 => s.dstBase2
  | .dstStride0 => s.dstStride0
  | .dstStride1 => s.dstStride1
  | .dstStride2 => s.dstStride2

/-- The value a host read at an offset returns; reserved offsets read 0 (R46). -/
def State.readOffset (s : State) (off : Nat) : Word :=
  match regAt off with
  | some r => s.readReg r
  | none => 0

/-- A host write to a register while IDLE: CMD accepts a command (R150), the read/write registers store
all 32 bits, geometry and tag writes also drop the resolution (R47), read-only registers ignore it
(R46). -/
def State.writeReg (s : State) (r : Reg) (v : Word) : State :=
  match r with
  | .cmd => s.accept v
  | .status => s
  | .width => { s.clearResolution with width := v }
  | .height => { s.clearResolution with height := v }
  | .tag0 => { s.clearResolution with tag0 := v }
  | .tag1 => { s.clearResolution with tag1 := v }
  | .tag2 => { s.clearResolution with tag2 := v }
  | .fmtIndex => s
  | .descLo => s
  | .descHi => s
  | .payloadSize => s
  | .srcBase => { s with srcBase := v }
  | .dstBase0 => { s with dstBase0 := v }
  | .dstBase1 => { s with dstBase1 := v }
  | .dstBase2 => { s with dstBase2 := v }
  | .dstStride0 => { s with dstStride0 := v }
  | .dstStride1 => { s with dstStride1 := v }
  | .dstStride2 => { s with dstStride2 := v }

/-- A host write at an offset (R46): while IDLE to the register there, nothing at a reserved offset;
while BUSY discarded, with OVR set. -/
def State.writeOffset (s : State) (off : Nat) (v : Word) : State :=
  match s.seq with
  | .busy => s.setOvr
  | .idle =>
    match regAt off with
    | some r => s.writeReg r v
    | none => s

/-! ## Moves -/

/-- One move carried out: the source byte, or a free byte for `any` (R77, log 4), stored to DST. -/
def State.applyMove (s : State) (m : Move) : State :=
  match m.src with
  | some i => { s with dst := Mem.write s.dst (s.moveAddr m) (s.srcByte i) }
  | none => { s with dst := Mem.write s.dst (s.moveAddr m) (Config.freeByte s.free), free := s.free + 1 }

/-- The moves of a body carried out in the order of its loops (R70, log 15). -/
def State.runMoves (s : State) : List Move → State
  | [] => s
  | m :: ms => State.runMoves (s.applyMove m) ms

/-- The moves of a body cut short by a reset: each one carried out or not, by a free bit
(R250, U9, log 6). Tail padding that no move writes, that of the planes without word gather, keeps its old
value: R250 and U9 leave it open, R77 says that it is not written; DEDUCED, log 6. -/
def State.cutMoves (s : State) : List Move → State
  | [] => s
  | m :: ms =>
    State.cutMoves
      (if Config.freeBit s.free then { s with free := s.free + 1 }.applyMove m
       else { s with free := s.free + 1 }) ms

/-! ## The DECODE front-end -/

/-- The DST_CONFIG test of plane `p` passes: base and stride multiples of 4, stride at least `RB[p]`
(R156). -/
def State.dstConfigOk (s : State) (d : Descriptor) (p : Plane) : Bool :=
  s.dstBase p % 4 == 0 && s.dstStride p % 4 == 0 && decide (rowBytes d s.W p ≤ s.dstStride p)

/-- The source window does not pass address 2^32 - 1 (R157). -/
def State.srcRangeOk (s : State) : Bool :=
  decide (s.srcBase.toNat + s.payloadSize.toNat ≤ spaceSize)

/-- The footprint of plane `p` does not pass address 2^32 - 1 (R157). -/
def State.dstRangeOk (s : State) (d : Descriptor) (p : Plane) : Bool :=
  decide (s.footprintEnd d p ≤ spaceSize)

/-- The tests after SEQUENCE, in their order: DST_CONFIG of the used planes, RANGE of the source window,
RANGE of the used planes (R154, R227); the first that fails, or none. -/
def State.windowError (s : State) (d : Descriptor) : Option ErrCode :=
  if !(usedPlanes d).all (s.dstConfigOk d) then some .dstConfig
  else if !s.srcRangeOk then some .range
  else if !(usedPlanes d).all (s.dstRangeOk d) then some .range
  else none

/-- A DECODE of variant `v` whose body's moves are `body d W H` (R154): SEQUENCE, then the tests of
`windowError`, then the body and completion. The refusals are those of logs 3 and 10. -/
def decodeWith (v : Variant) (body : Descriptor → Nat → Nat → List Move) (s : State) :
    Host.Outcome State Fault Refusal :=
  if !s.resolved then .next (s.raiseErr .sequence)
  else if !(s.desc.legal && s.desc.variant == v.code) then .refused .illegalDescriptor
  else
    match s.windowError s.desc with
    | some code => .next (s.raiseErr code)
    | none =>
      if !s.footprintsDisjoint s.desc then .refused .overlappingFootprints
      else .next (s.runMoves (body s.desc s.W s.H)).complete

/-! ## Words that are no operation -/

/-- Completion of a malformed command word (R151, R223): ILLEGAL_CMD before anything else is looked at. -/
def completeMalformed (s : State) : Host.Outcome State Fault Refusal :=
  .next (s.raiseErr .illegalCmd)

/-- Completion of a DECODE with VARIANT 7 (R154, R223): the front-end's tests, then ILLEGAL_CMD. A
descriptor with another field out of range has no behaviour (U4, log 3). -/
def completeReservedVariant (s : State) : Host.Outcome State Fault Refusal :=
  if !s.resolved then .next (s.raiseErr .sequence)
  else if !s.desc.fieldsLegal then .refused .illegalDescriptor
  else .next (s.raiseErr ((s.windowError s.desc).getD .illegalCmd))

/-- Completion of a command in flight whose dispatch word is no operation (R100, R223). -/
def completeIllegal (e : DecodeError) (s : State) : Host.Outcome State Fault Refusal :=
  match e with
  | .nonzeroHighBits => completeMalformed s
  | .reservedOpcode => completeMalformed s
  | .reservedVariant => completeReservedVariant s

end Sys2Proof.Machine
end

