-- ==== Sys2Proof/Machine/Commands.lean ====
section
/-! DEFINITION. The meanings of NOP, RESOLVE and CLOSE (`41_commands.md`): what the completion step of
each does (R151). -/

namespace Sys2Proof.Machine

/-- NOP (R158): an empty body, completed. -/
def execNop (s : State) : Host.Outcome State Fault Refusal :=
  .next s.complete

/-- The registers a successful RESOLVE writes: FMT_INDEX, DESC_LO, DESC_HI, PAYLOAD_SIZE and RESOLVED
(R152). -/
def State.setResolution (s : State) (i : Nat) (e : RomEntry) : State :=
  { s with
    resolved := true
    fmtIndex := BitVec.ofNat 8 i
    descLo := e.descWord.extractLsb' 0 32
    descHi := e.descWord.extractLsb' 32 32
    payloadSize := BitVec.ofNat 32 (payloadBytes e.desc s.W s.H) }

/-- RESOLVE (R152): lookup, then geometry, then the resolution registers. A match that is no legal
entry of an indexable ROM, or a MAXDIM out of bound, has no behaviour (U4, U18, log 3). -/
def execResolve (s : State) : Host.Outcome State Fault Refusal :=
  match romLookup s.rom s.tagKey with
  | none => .next (s.raiseResolveErr .unsupportedFormat)
  | some (i, e) =>
    if !(e.legal && decide (i < 256) && maxDimLegal s.maxDim) then .refused .illegalRom
    else if geometryOk s.maxDim e.desc s.W s.H then .next (s.setResolution i e).complete
    else .next (s.raiseResolveErr .invalidGeometry)

/-- CLOSE (R159): the resolution and OVR cleared, completed. -/
def execClose (s : State) : Host.Outcome State Fault Refusal :=
  .next ({ s.clearResolution with ovr := false }).complete

end Sys2Proof.Machine
end

