-- ==== Sys2Proof/Machine/PackedRgb.lean ====
section
/-! DEFINITION. DECODE.RGB24, DECODE.RGB32 and DECODE.RGB48 (`45_decode_packed_rgb.md`). -/

namespace Sys2Proof.Machine

/-- Row `y` of a word-gather RGB body: channel `c` of pixel `x` is byte `c + a` of the pixel's `B` bytes
and goes to the plane of slot `c + a`; then the tail padding of all three planes (R201, R202). -/
def rgbRow (d : Descriptor) (W B a y : Nat) : List Move :=
  ((List.range W).flatMap fun x => (List.range 3).map fun c =>
    ⟨slotPlane d (c + a), y, x, some ((y * W + x) * B + c + a)⟩) ++
  tailPadding [.p0, .p1, .p2] y W

/-- The body of DECODE.RGB24 (R201). -/
def rgb24Moves (d : Descriptor) (W H : Nat) : List Move :=
  (List.range H).flatMap fun y => rgbRow d W 3 0 y

/-- DECODE.RGB24 (R201) behind the front-end of R154. -/
def execDecodeRgb24 (s : State) : Host.Outcome State Fault Refusal :=
  decodeWith .packedRgb24 rgb24Moves s

/-- `a`: 1 where slot 0 holds the sentinel, else 0 (R202). -/
def alphaShift (d : Descriptor) : Nat := if d.order 0 = noPlane then 1 else 0

/-- The body of DECODE.RGB32 (R202). -/
def rgb32Moves (d : Descriptor) (W H : Nat) : List Move :=
  (List.range H).flatMap fun y => rgbRow d W 4 (alphaShift d) y

/-- DECODE.RGB32 (R202) behind the front-end of R154. -/
def execDecodeRgb32 (s : State) : Host.Outcome State Fault Refusal :=
  decodeWith .packedRgb32 rgb32Moves s

/-- The body of DECODE.RGB48 (R203): 16-bit samples moved as byte pairs, no padding written. -/
def rgb48Moves (d : Descriptor) (W H : Nat) : List Move :=
  (List.range H).flatMap fun y => (List.range W).flatMap fun x => (List.range 3).flatMap fun c =>
    [0, 1].map fun b => ⟨slotPlane d c, y, 2 * x + b, some ((y * W + x) * 6 + 2 * c + b)⟩

/-- DECODE.RGB48 (R203) behind the front-end of R154. -/
def execDecodeRgb48 (s : State) : Host.Outcome State Fault Refusal :=
  decodeWith .packedRgb48 rgb48Moves s

end Sys2Proof.Machine
end

