-- ==== Sys2Proof/Machine/PackedYuv.lean ====
section
/-! DEFINITION. DECODE.YUV422 (`44_decode_packed_yuv422.md`). -/

namespace Sys2Proof.Machine

/-- The next free byte of the row in each plane: `col[0]`, `col[1]`, `col[2]` of R190. -/
structure Columns where
  c0 : Nat
  c1 : Nat
  c2 : Nat
  deriving DecidableEq, Repr

/-- `col[p]`. -/
def Columns.get (c : Columns) : Plane → Nat
  | .p0 => c.c0
  | .p1 => c.c1
  | .p2 => c.c2

/-- `col[p] = col[p] + 1`. -/
def Columns.bump (c : Columns) : Plane → Columns
  | .p0 => { c with c0 := c.c0 + 1 }
  | .p1 => { c with c1 := c.c1 + 1 }
  | .p2 => { c with c2 := c.c2 + 1 }

/-- The byte slots `js` of one macropixel whose first byte is at payload offset `o`: each goes to the
next free byte of the plane its slot names. Answers the moves and the column counters after them
(R190). -/
def yuvSlots (d : Descriptor) (y o : Nat) : List Nat → Columns → List Move × Columns
  | [], c => ([], c)
  | j :: js, c =>
    let p := slotPlane d j
    let r := yuvSlots d y o js (c.bump p)
    (⟨p, y, c.get p, some (o + j)⟩ :: r.1, r.2)

/-- The macropixels `ms` of row `y`, whose row starts at payload offset `o` (R190). -/
def yuvMacropixels (d : Descriptor) (y o : Nat) : List Nat → Columns → List Move
  | [], _ => []
  | m :: ms, c =>
    let r := yuvSlots d y (o + 4 * m) [0, 1, 2, 3] c
    r.1 ++ yuvMacropixels d y o ms r.2

/-- The body of DECODE.YUV422 (R190): the column counters start at 0 in every row. -/
def yuv422Moves (d : Descriptor) (W H : Nat) : List Move :=
  (List.range H).flatMap fun y => yuvMacropixels d y (y * (2 * W)) (List.range (W / 2)) ⟨0, 0, 0⟩

/-- DECODE.YUV422 (R190) behind the front-end of R154. -/
def execDecodeYuv422 (s : State) : Host.Outcome State Fault Refusal :=
  decodeWith .packedYuv422 yuv422Moves s

end Sys2Proof.Machine
end

