-- ==== Sys2Proof/Machine/Planar.lean ====
section
/-! DEFINITION. DECODE.PLANAR (`42_decode_planar.md`). -/

namespace Sys2Proof.Machine

/-- The planes in payload order from offset `off`: each source plane is copied to the plane its slot
names, and the next one starts where it ends (R170). -/
def planarFrom (d : Descriptor) (W H : Nat) : List Plane → Nat → List Move
  | [], _ => []
  | p :: ps, off =>
    copyPlane p off (rowBytes d W p) (planeHeight d H p) ++
      planarFrom d W H ps (off + rowBytes d W p * planeHeight d H p)

/-- The planes the slots `0 .. PLANES-1` name, in payload order (R170). -/
def planarOrder (d : Descriptor) : List Plane := (List.range d.planes.toNat).map (slotPlane d)

/-- The body of DECODE.PLANAR (R170). -/
def planarMoves (d : Descriptor) (W H : Nat) : List Move := planarFrom d W H (planarOrder d) 0

/-- DECODE.PLANAR (R170) behind the front-end of R154. -/
def execDecodePlanar (s : State) : Host.Outcome State Fault Refusal :=
  decodeWith .planar planarMoves s

end Sys2Proof.Machine
end

