-- ==== Sys2Proof/Machine/SemiPlanar.lean ====
section
/-! DEFINITION. DECODE.NV and DECODE.P01X (`43_decode_semiplanar.md`). -/

namespace Sys2Proof.Machine

/-- The moves of chroma row `y` of DECODE.NV: the pairs split, then the tail padding of both chroma
planes (R180). `cb` is the chroma region's offset and `cw` the pairs of a row. -/
def nvRow (pa pb : Plane) (cb cw y : Nat) : List Move :=
  ((List.range cw).flatMap fun x =>
    [⟨pa, y, x, some (cb + y * (2 * cw) + 2 * x)⟩, ⟨pb, y, x, some (cb + y * (2 * cw) + 2 * x + 1)⟩]) ++
  tailPadding [pa, pb] y cw

/-- The body of DECODE.NV (R180): luma to plane 0, first byte of a pair to `ORDER[1]`, second to
`ORDER[2]`. -/
def nvMoves (d : Descriptor) (W H : Nat) : List Move :=
  copyPlane .p0 0 W H ++
  (List.range (planeHeight d H .p1)).flatMap fun y =>
    nvRow (slotPlane d 1) (slotPlane d 2) (W * H) (planeWidth d W .p1) y

/-- DECODE.NV (R180) behind the front-end of R154. -/
def execDecodeNv (s : State) : Host.Outcome State Fault Refusal :=
  decodeWith .nvSemiplanar nvMoves s

/-- The moves of chroma row `y` of DECODE.P01X: 16-bit pairs split, two bytes a sample (R182). -/
def p01xRow (pa pb : Plane) (cb cw y : Nat) : List Move :=
  (List.range cw).flatMap fun x => [0, 1].flatMap fun b =>
    [⟨pa, y, 2 * x + b, some (cb + y * (4 * cw) + 4 * x + b)⟩,
     ⟨pb, y, 2 * x + b, some (cb + y * (4 * cw) + 4 * x + 2 + b)⟩]

/-- The body of DECODE.P01X (R182). -/
def p01xMoves (d : Descriptor) (W H : Nat) : List Move :=
  copyPlane .p0 0 (2 * W) H ++
  (List.range (planeHeight d H .p1)).flatMap fun y =>
    p01xRow (slotPlane d 1) (slotPlane d 2) (2 * W * H) (planeWidth d W .p1) y

/-- DECODE.P01X (R182) behind the front-end of R154. -/
def execDecodeP01x (s : State) : Host.Outcome State Fault Refusal :=
  decodeWith .p01xSemiplanar16 p01xMoves s

end Sys2Proof.Machine
end

