-- ==== Sys2Proof/Machine/HostPort.lean ====
section
/-! DEFINITION. What the outside world does to PFDEC: register accesses (R46, R64), stores to SRC,
accesses to DST (R43, R71, R72, R257, R260), and the reset event (R250). -/

namespace Sys2Proof.Machine

/-- The body's moves by the resolved variant (R154); none for the reserved code. -/
def bodyMoves (d : Descriptor) (W H : Nat) : List Move :=
  match d.variant.toNat with
  | 0 => planarMoves d W H
  | 1 => nvMoves d W H
  | 2 => p01xMoves d W H
  | 3 => yuv422Moves d W H
  | 4 => rgb24Moves d W H
  | 5 => rgb32Moves d W H
  | 6 => rgb48Moves d W H
  | _ => []

/-- A DECODE is in flight that passes its checks, so that its body reads the source window and writes
the footprints (R154, log 11). -/
def State.bodyInFlight (s : State) : Bool :=
  s.busy && s.pending == commandWord .decodePlanar && s.resolved && s.desc.legal &&
  (s.windowError s.desc).isNone

/-- Some address of `a .. a+n-1` satisfies `f`. -/
def touches (f : Nat → Bool) (a n : Nat) : Bool := (List.range n).any fun i => f (a + i)

/-- The footprints of the used planes, as a set of addresses (R11). -/
def State.inSomeFootprint (s : State) (a : Nat) : Bool :=
  (usedPlanes s.desc).any fun p => s.inFootprint s.desc p a

/-- A host register write (R46); an access that is no aligned word in range is outside the spec
(R64, U8, log 12). -/
def hostRegWrite (w : AccessWidth) (off : Nat) (v : Word) (s : State) :
    Host.Outcome State Fault Refusal :=
  if regAccessOk w off then .next (s.writeOffset off v) else .refused .badRegisterAccess

/-- A host register read (R46): it has no effect but the data it returns. -/
def hostRegRead (w : AccessWidth) (off : Nat) (s : State) : Host.Outcome State Fault Refusal :=
  if regAccessOk w off then .next { s with rdata := s.readOffset off }
  else .refused .badRegisterAccess

/-- A host store to SRC (R43, R101): refused inside the source window of a DECODE in flight
(R257, U6). -/
def hostSrcStore (a : Nat) (bs : List Byte) (s : State) : Host.Outcome State Fault Refusal :=
  if spaceSize < a + bs.length then .fault (.outsideAddressSpace a)
  else if s.bodyInFlight && touches s.inSourceWindow a bs.length then .refused .srcWrittenDuringDecode
  else .next { s with src := Mem.writeBytes s.src a bs }

/-- A host store to DST (R43): refused inside a footprint of a DECODE in flight (R260, U5). -/
def hostDstStore (a : Nat) (bs : List Byte) (s : State) : Host.Outcome State Fault Refusal :=
  if spaceSize < a + bs.length then .fault (.outsideAddressSpace a)
  else if s.bodyInFlight && touches s.inSomeFootprint a bs.length then .refused .dstTouchedDuringDecode
  else .next { s with dst := Mem.writeBytes s.dst a bs }

/-- A host load of one byte of DST (R43): refused inside a footprint of a DECODE in flight (R72, U5). -/
def hostDstLoad (a : Nat) (s : State) : Host.Outcome State Fault Refusal :=
  if spaceSize ≤ a then .fault (.outsideAddressSpace a)
  else if s.bodyInFlight && s.inSomeFootprint a then .refused .dstTouchedDuringDecode
  else .next { s with rdata := (Mem.read s.dst a).setWidth 32 }

/-- DST as a reset finds it: the moves of a DECODE in flight partly carried out, every other byte as it was,
the tail padding of planes without word gather included (R250, R77, log 6). That a command in flight which
is no DECODE that passes its checks leaves all of DST is the model's reading (R154, R225, logs 3, 6 and 11). -/
def State.abandon (s : State) : State :=
  if s.bodyInFlight then s.cutMoves (bodyMoves s.desc s.W s.H) else s

/-- The registers after the reset event (R250): all 0, SEQ IDLE, PENDING a free word (log 5). -/
def State.clearRegisters (s : State) : State :=
  { s with
    seq := .idle, pending := Config.freeWord s.free, free := s.free + 1
    resolved := false, done := false, err := false, errCode := 0, ovr := false
    width := 0, height := 0, tag0 := 0, tag1 := 0, tag2 := 0
    fmtIndex := 0, descLo := 0, descHi := 0, payloadSize := 0, srcBase := 0
    dstBase0 := 0, dstBase1 := 0, dstBase2 := 0
    dstStride0 := 0, dstStride1 := 0, dstStride2 := 0 }

/-- The reset event (R250): a command in flight is abandoned, SRC and the ROM stay. -/
def hostReset (s : State) : Host.Outcome State Fault Refusal :=
  .next s.abandon.clearRegisters

end Sys2Proof.Machine
end

