-- ==== Sys2Proof/Machine/Dispatch.lean ====
section
/-! DEFINITION. The operation's completion step, one arm per row of the opcode table (R93, R151). -/

namespace Sys2Proof.Machine

def exec (i : Instr) (s : State) : Host.Outcome State Fault Refusal :=
  match i with
  | .nop => Sys2Proof.Machine.execNop s
  | .resolve => Sys2Proof.Machine.execResolve s
  | .close => Sys2Proof.Machine.execClose s
  | .decodePlanar => Sys2Proof.Machine.execDecodePlanar s
  | .decodeNv => Sys2Proof.Machine.execDecodeNv s
  | .decodeP01x => Sys2Proof.Machine.execDecodeP01x s
  | .decodeYuv422 => Sys2Proof.Machine.execDecodeYuv422 s
  | .decodeRgb24 => Sys2Proof.Machine.execDecodeRgb24 s
  | .decodeRgb32 => Sys2Proof.Machine.execDecodeRgb32 s
  | .decodeRgb48 => Sys2Proof.Machine.execDecodeRgb48 s

end Sys2Proof.Machine
end

