-- ==== Sys2Proof/Machine/Step.lean ====
section
/-! DEFINITION. One step: the outside world's next action, or the engine's completion step
(R151, R265, log 1). -/

namespace Sys2Proof.Machine

/-- The completion step of the command in flight (R151): the operation its dispatch word selects
(R92), or ILLEGAL_CMD where it selects none (R100). -/
def completion (s : State) : Host.Outcome State Fault Refusal :=
  match decode s.dispatchWord with
  | .ok i => exec i s
  | .error e => completeIllegal e s

/-- The engine's turn: it completes the command in flight, and has no other step (R151). While IDLE it
does nothing (R251, log 1). -/
def engineStep (s : State) : Host.Outcome State Fault Refusal :=
  match s.seq with
  | .busy => completion s
  | .idle => .next s

/-- One action of the outside world. -/
def hostStep (a : HostAction) (s : State) : Host.Outcome State Fault Refusal :=
  match a with
  | .regWrite w off v => hostRegWrite w off v s
  | .regRead w off => hostRegRead w off s
  | .wait => engineStep s
  | .srcStore a bs => hostSrcStore a bs s
  | .dstLoad a => hostDstLoad a s
  | .dstStore a bs => hostDstStore a bs s
  | .reset => hostReset s

/-- One step: the next action of `inputs`, taken off the list; with none left the engine's turn, so
that every accepted command completes (R151). -/
def step (s : State) : Host.Outcome State Fault Refusal :=
  match s.inputs with
  | [] => engineStep s
  | a :: as => hostStep a { s with inputs := as }

/-- `s` with the instruction whose dispatch word is `w` in flight, so that the very next step completes
it: PENDING is bits 31:0, `d.VARIANT` bits 34:32, SEQ is BUSY; where inputs are left, the engine's turn
comes first (logs 1, 17). -/
def State.withFetchWord (s : State) (nbits w : Nat) : State :=
  { s with
    pending := BitVec.ofNat 32 (w % 2 ^ nbits)
    descLo := s.descLo.extractLsb' 3 29 ++ BitVec.ofNat 3 (w % 2 ^ nbits / 2 ^ 32)
    seq := .busy
    inputs := match s.inputs with
      | [] => []
      | as => .wait :: as }

end Sys2Proof.Machine
end

