-- ==== Sys2Proof/Safety.lean ====
section
/-! DEFINITION. What a consistent state of PFDEC is, when a DECODE runs its body, and which DST
addresses a body may touch: the terms the statements use. -/

namespace Sys2Proof.Machine

/-- The invariants of STATUS (R33): at most one of BUSY, DONE, ERR; ERRCODE nonzero exactly when ERR,
and never a reserved code (R221). -/
structure State.StatusOk (s : State) : Prop where
  busy_quiet : s.seq = .busy → s.done = false ∧ s.err = false
  one_outcome : ¬ (s.done = true ∧ s.err = true)
  code_iff : s.errCode ≠ 0 ↔ s.err = true
  code_le : s.errCode.toNat ≤ 6

/-- The resolution registers while RESOLVED = 1: those of the legal ROM entry the tag key matches,
for a geometry that RESOLVE checked, with its exact payload size (R34 to R36, R47, R152). -/
structure State.Resolution (s : State) : Prop where
  entry : ∃ e : RomEntry, romLookup s.rom s.tagKey = some (s.fmtIndex.toNat, e) ∧
    e.legal = true ∧ s.descWord = e.descWord
  geometry : geometryOk s.maxDim s.desc s.W s.H = true
  payload : s.payloadSize.toNat = payloadBytes s.desc s.W s.H
  bound : maxDimLegal s.maxDim = true

/-- The resolution registers while RESOLVED = 0: all 0 (R34 to R36). -/
structure State.NoResolution (s : State) : Prop where
  fmtIndex : s.fmtIndex = 0
  descLo : s.descLo = 0
  descHi : s.descHi = 0
  payloadSize : s.payloadSize = 0

/-- The invariant every step keeps: memories in canonical form, STATUS consistent, the resolution
registers those of a checked resolution or 0. -/
structure State.Inv (s : State) : Prop where
  src_wf : Mem.wf s.src = true
  dst_wf : Mem.wf s.dst = true
  status : s.StatusOk
  resolution : s.resolved = true → s.Resolution
  no_resolution : s.resolved = false → s.NoResolution

/-- The windows of a DECODE are as R156 and R157 ask, and the footprints disjoint as R259 asks. -/
structure State.WindowsOk (s : State) (d : Descriptor) : Prop where
  base_aligned : ∀ p ∈ usedPlanes d, s.dstBase p % 4 = 0
  stride_aligned : ∀ p ∈ usedPlanes d, s.dstStride p % 4 = 0
  stride_covers : ∀ p ∈ usedPlanes d, rowBytes d s.W p ≤ s.dstStride p
  src_range : s.srcBase.toNat + s.payloadSize.toNat ≤ 2 ^ 32
  dst_range : ∀ p ∈ usedPlanes d,
    s.dstBase p + (planeHeight d s.H p - 1) * s.dstStride p + ceil4 (rowBytes d s.W p) ≤ 2 ^ 32
  apart : ∀ p ∈ usedPlanes d, ∀ q ∈ usedPlanes d, p ≠ q →
    s.footprintEnd d p ≤ s.dstBase q ∨ s.footprintEnd d q ≤ s.dstBase p

/-- A DECODE of variant `v` reaches its body: a legal descriptor of that variant is resolved, for a
geometry it admits, and the windows are as the rules ask. -/
structure State.DecodeReady (s : State) (v : Variant) : Prop where
  resolved : s.resolved = true
  legal : s.desc.legal = true
  variant : s.desc.variant = v.code
  geometry : geometryOk s.maxDim s.desc s.W s.H = true
  payload : s.payloadSize.toNat = payloadBytes s.desc s.W s.H
  windows : s.WindowsOk s.desc

/-- `a` is the address of an active byte of a used plane (R11). -/
def State.ActiveAddr (s : State) (d : Descriptor) (a : Nat) : Prop :=
  ∃ p ∈ usedPlanes d, ∃ y < planeHeight d s.H p, ∃ k < rowBytes d s.W p, a = s.dstAddr p y k

/-- `a` is the address of an active or tail padding byte of a used plane (R11). -/
def State.TouchableAddr (s : State) (d : Descriptor) (a : Nat) : Prop :=
  ∃ p ∈ usedPlanes d, ∃ y < planeHeight d s.H p, ∃ k < ceil4 (rowBytes d s.W p), a = s.dstAddr p y k

/-- A state in which a DECODE only changed DST, drew free values, and completed. PENDING, which the spec
leaves open once SEQ is IDLE (U10), may hold anything in it. -/
def State.CompletedFrom (s t : State) : Prop :=
  t = { s with pending := t.pending, dst := t.dst, free := t.free, done := true, seq := .idle }

/-- The command word 2 in flight in `s`, and the engine's turn, lead to `t` (R91, R92, R151). -/
def State.CommandStepsTo (s t : State) : Prop :=
  s.seq = .busy → s.inputs = [] → s.pending = 0x00000002 → step s = .next t

/-- The registers a host can both write and read (R20). -/
def readWriteRegs : List Reg :=
  [.width, .height, .tag0, .tag1, .tag2, .srcBase, .dstBase0, .dstBase1, .dstBase2, .dstStride0,
    .dstStride1, .dstStride2]

/-- The registers whose write drops the resolution (R47). -/
def cancellingRegs : List Reg := [.width, .height, .tag0, .tag1, .tag2]

/-- The read-only registers (R20). -/
def readOnlyRegs : List Reg := [.status, .fmtIndex, .descLo, .descHi, .payloadSize]

/-- The next thing to happen is a completion step of the engine: a command is in flight, and the next
input is WAIT or there is none (log 1). -/
def State.EngineTurn (s : State) : Prop :=
  s.seq = .busy ∧ (s.inputs = [] ∨ s.inputs.head? = some .wait)

/-- The state after an error completion with `code` at the engine's turn (R225): the report in STATUS, the
input that gave the turn taken off (log 1), and nothing else changed (PENDING: log 20). -/
def State.reportAtTurn (s : State) (code : BitVec 4) : State :=
  { s with inputs := s.inputs.tail, err := true, errCode := code, done := false, seq := .idle }

/-- The RESOLVED bit's weight in STATUS (R226). -/
def State.resolvedWeight (s : State) : Nat := if s.resolved then 2 else 0

/-- The OVR bit's weight in STATUS (R226). -/
def State.ovrWeight (s : State) : Nat := if s.ovr then 256 else 0

end Sys2Proof.Machine
end

