-- ==== Sys2Proof/Certificates/Slice0/Obligations.lean ====
section
/-! DEFINITION. The statements for the provers. Each docstring names the rule of spec/ it comes from.
What the outside world does next stands in the field `inputs`, the model's own rendering of the free
interleaving of R265 (log 1): a statement about `step` names the head of that list. The spec leaves
PENDING open while IDLE (U10), and that it keeps the command word is the model's choice (log 20), which
PendingChangesOnlyAtAcceptanceAndReset states. `CompletedFrom` leaves PENDING open; a statement that
writes the whole next state out rests on log 20 and is `derived`. -/

open Sys2Proof Sys2Proof.Machine

/-! ## Reset and the invariant -/

/-- After reset SEQ is IDLE and every register offset reads 0; the ROM is the reference ROM and MAXDIM
its default, which are the spec's defaults for the parameters (log 2). R45, R135. -/
def Obligations.ResetRegistersReadZero : Prop :=
  State.reset.seq = .idle ∧ (∀ off, State.reset.readOffset off = 0) ∧
  State.reset.rom = Config.referenceRom ∧ State.reset.maxDim = 16383

/-- The state after reset meets the invariant. -/
def Obligations.ResetMeetsInvariant : Prop := State.reset.Inv

/-- Every step from a state that meets the invariant gives one that meets it: STATUS holds at most one
of BUSY, DONE, ERR and a code exactly with ERR (R33), the resolution registers are those of a checked
resolution while RESOLVED = 1 (R34 to R36, R47) and 0 otherwise, the memories are in canonical form. -/
def Obligations.EveryStepKeepsInvariant : Prop :=
  ∀ s t : State, s.Inv → step s = .next t → t.Inv

/-- No step changes the ROM (R121), nor MAXDIM: that MAXDIM, a parameter of the build in R6, is a field of
State that no step writes is the model's choice (log 2). -/
def Obligations.NoStepChangesTheRom : Prop :=
  ∀ s t : State, step s = .next t → t.rom = s.rom ∧ t.maxDim = s.maxDim

/-- The reset event, whenever it occurs, leaves SEQ IDLE and every register 0, SRC and the ROM as they were;
DST keeps every byte outside what a DECODE in flight may touch, and an active byte holds its old value or
the value the command would have given it (R250; `engineStep` is the completion step the command would have
had; which of the two each byte holds is free, log 6). The model's reading, from R45, R154 and R225: DST
keeps every byte where no DECODE that passes its checks is in flight, so that a DECODE that would fail its
checks has no windows (log 11) and keeps its tail padding, which R250 and U9 alone leave open (log 6), and
one whose resolved descriptor is not legal, to which the spec gives no behaviour, keeps all of DST (log 3). -/
def Obligations.ResetEventClearsRegistersAndAbandons : Prop :=
  ∀ (s : State) (rest : List HostAction), s.inputs = .reset :: rest →
    ∃ t, step s = .next t ∧ t.seq = .idle ∧ (∀ off, t.readOffset off = 0) ∧
      t.src = s.src ∧ t.rom = s.rom ∧ t.inputs = rest ∧
      (∀ a, ¬ s.TouchableAddr s.desc a → Mem.read t.dst a = Mem.read s.dst a) ∧
      (s.bodyInFlight = false → t.dst = s.dst) ∧
      (∀ u, engineStep s = .next u → ∀ a, s.ActiveAddr s.desc a →
        Mem.read t.dst a = Mem.read s.dst a ∨ Mem.read t.dst a = Mem.read u.dst a)

/-! ## Decoding -/

/-- A step at the engine's turn runs the operation the dispatch word selects (R92, R151). -/
def Obligations.StepRunsTheDecodedCommand : Prop :=
  ∀ (s : State) (i : Instr), s.seq = .busy → decode s.dispatchWord = .ok i →
    (s.inputs = [] → step s = exec i s) ∧
    (∀ rest, s.inputs = .wait :: rest → step s = exec i { s with inputs := rest })

/-- Words written out from R93's table decode to their operations. -/
def Obligations.TableWordsDecode : Prop :=
  decode 0x000000000 = .ok .nop ∧ decode 0x500000001 = .ok .resolve ∧
  decode 0x700000003 = .ok .close ∧ decode 0x000000002 = .ok .decodePlanar ∧
  decode 0x100000002 = .ok .decodeNv ∧ decode 0x200000002 = .ok .decodeP01x ∧
  decode 0x300000002 = .ok .decodeYuv422 ∧ decode 0x400000002 = .ok .decodeRgb24 ∧
  decode 0x500000002 = .ok .decodeRgb32 ∧ decode 0x600000002 = .ok .decodeRgb48 ∧
  decode 0x700000002 = .error .reservedVariant ∧ decode 0x000000012 = .error .nonzeroHighBits ∧
  decode 0x000000007 = .error .reservedOpcode

/-- An operation is selected exactly when `(DW & mask) == match` for its row (R92), so no two rows match
one word. -/
def Obligations.OperationSelectedByMaskAndMatch : Prop :=
  ∀ (dw : BitVec 35) (i : Instr), decode dw = .ok i ↔ dw &&& rowMask i = encode i

/-- R100: the dispatch words that are no operation are those with OPCODE 4 to 15, with one of bits 31:4
set, or with OPCODE 2 and VARIANT 7. -/
def Obligations.IllegalWordsAreThoseOfTheRule : Prop :=
  ∀ dw : BitVec 35, (∀ i, decode dw ≠ .ok i) ↔
    (4 ≤ dw.toNat % 16 ∨ dw.toNat / 16 % 2 ^ 28 ≠ 0 ∨ (dw.toNat % 2 ^ 32 = 2 ∧ dw.toNat / 2 ^ 32 = 7))

/-- The descriptor word and its fields determine one another: no bit of R95's layout is dropped, in
either direction. -/
def Obligations.DescriptorFieldsRoundTrip : Prop :=
  (∀ w : BitVec 64, (Descriptor.unpack w).pack = w) ∧ (∀ d : Descriptor, Descriptor.unpack d.pack = d)

/-- The positions of R95's fields: a legal descriptor's word is the sum of its fields at their places. -/
def Obligations.DescriptorWordIsTheSumOfItsFields : Prop :=
  ∀ d : Descriptor, d.legal = true →
    d.pack.toNat = d.variant.toNat + d.order0.toNat * 2 ^ 4 + d.order1.toNat * 2 ^ 8 +
      d.order2.toNat * 2 ^ 12 + d.order3.toNat * 2 ^ 16 + d.subH.toNat * 2 ^ 20 +
      d.subV.toNat * 2 ^ 24 + d.bpp.toNat * 2 ^ 32 + d.depth.toNat * 2 ^ 40 +
      d.planes.toNat * 2 ^ 48 + d.family.toNat * 2 ^ 50

/-! ## Registers and STATUS -/

/-- R33: the STATUS word is its fields at their bits, zero above bit 8. -/
def Obligations.StatusWordIsTheSumOfItsFields : Prop :=
  ∀ s : State, s.statusWord.toNat =
    (if s.seq = .busy then 1 else 0) + (if s.resolved then 2 else 0) + (if s.done then 4 else 0) +
    (if s.err then 8 else 0) + s.errCode.toNat * 16 + (if s.ovr then 256 else 0)

/-- R46, R20, R32: a host read has no effect but the data it returns, whether IDLE or BUSY, and returns
the register at its offset; CMD and the reserved offsets read 0 (that PENDING stays while IDLE is log 20). -/
def Obligations.RegisterReadsReturnTheRegisterMap : Prop :=
  ∀ (s : State) (off : Nat) (rest : List HostAction), off % 4 = 0 → off ≤ 0xFC →
    s.inputs = .regRead .word off :: rest →
    step s = .next { s with
      inputs := rest
      rdata := ([0, s.statusWord, s.width, s.height, s.tag0, s.tag1, s.tag2, s.fmtIndex.setWidth 32,
        s.descLo, s.descHi, s.payloadSize, s.srcBase, s.dstBase0, s.dstBase1, s.dstBase2,
        s.dstStride0, s.dstStride1, s.dstStride2][off / 4]?).getD 0 }

/-- R150: a word written to CMD while IDLE is accepted, legal or not, and nothing but PENDING, BUSY,
DONE, ERR and ERRCODE changes; while BUSY it is discarded (with OVR set, R46). -/
def Obligations.CommandWriteIsAccepted : Prop :=
  ∀ (s : State) (c : Word) (rest : List HostAction), s.inputs = .regWrite .word 0x00 c :: rest →
    (s.seq = .idle → step s = .next { s with
      inputs := rest, pending := c, seq := .busy, done := false, err := false, errCode := 0 }) ∧
    (s.seq = .busy → step s = .next { s with inputs := rest, ovr := true })

/-- R256: a write while BUSY changes nothing but OVR, which it sets; and OVR goes back to 0 only by the
completion of a CLOSE or by reset. -/
def Obligations.WriteWhileBusySetsStickyOverrun : Prop :=
  (∀ (s : State) (off : Nat) (v : Word) (rest : List HostAction), s.seq = .busy → off % 4 = 0 →
    off ≤ 0xFC → s.inputs = .regWrite .word off v :: rest →
    step s = .next { s with inputs := rest, ovr := true }) ∧
  (∀ s t : State, step s = .next t → s.ovr = true → t.ovr = false →
    s.inputs.head? = some .reset ∨ (s.EngineTurn ∧ s.pending = 3))

/-- A write to a read/write register while IDLE stores all 32 bits and leaves every other read/write
register, the sequencer, the flags DONE, ERR, ERRCODE and OVR, and both memories as they were
(R21 to R26, R46). -/
def Obligations.OperandRegistersHoldWhatIsWritten : Prop :=
  ∀ (s : State) (r : Reg) (v : Word) (rest : List HostAction), s.seq = .idle → r ∈ readWriteRegs →
    s.inputs = .regWrite .word r.offset v :: rest →
    ∃ t, step s = .next t ∧ t.readReg r = v ∧
      (∀ r' ∈ readWriteRegs, r' ≠ r → t.readReg r' = s.readReg r') ∧
      t.seq = .idle ∧ t.done = s.done ∧ t.err = s.err ∧ t.errCode = s.errCode ∧ t.ovr = s.ovr ∧
      t.src = s.src ∧ t.dst = s.dst ∧ t.inputs = rest

/-- R47: a write to WIDTH, HEIGHT or a TAG register while IDLE drops the resolution, whatever is
written, and leaves DONE, ERR, ERRCODE and OVR alone. -/
def Obligations.GeometryAndTagWritesCancelResolution : Prop :=
  ∀ (s : State) (r : Reg) (v : Word) (rest : List HostAction), s.seq = .idle → r ∈ cancellingRegs →
    s.inputs = .regWrite .word r.offset v :: rest →
    ∃ t, step s = .next t ∧ t.resolved = false ∧ t.fmtIndex = 0 ∧ t.descLo = 0 ∧ t.descHi = 0 ∧
      t.payloadSize = 0 ∧ t.done = s.done ∧ t.err = s.err ∧ t.errCode = s.errCode ∧ t.ovr = s.ovr ∧
      t.readReg r = v

/-- A write to SRC_BASE, a DST_BASE or a DST_STRIDE while IDLE does not cancel the resolution
(R24 to R26). -/
def Obligations.BaseAndStrideWritesKeepResolution : Prop :=
  ∀ (s : State) (r : Reg) (v : Word) (rest : List HostAction), s.seq = .idle → r ∈ readWriteRegs →
    r ∉ cancellingRegs → s.inputs = .regWrite .word r.offset v :: rest →
    ∃ t, step s = .next t ∧ t.readReg r = v ∧ t.resolved = s.resolved ∧ t.fmtIndex = s.fmtIndex ∧
      t.descLo = s.descLo ∧ t.descHi = s.descHi ∧ t.payloadSize = s.payloadSize ∧
      t.statusWord = s.statusWord

/-- A write to a read-only register or to a reserved offset while IDLE is ignored (R46; that
PENDING stays too is the model's choice: log 20). -/
def Obligations.ReadOnlyAndReservedWritesAreIgnored : Prop :=
  ∀ (s : State) (off : Nat) (v : Word) (rest : List HostAction), s.seq = .idle → off % 4 = 0 →
    (off ∈ readOnlyRegs.map Reg.offset ∨ (0x48 ≤ off ∧ off ≤ 0xFC)) →
    s.inputs = .regWrite .word off v :: rest → step s = .next { s with inputs := rest }

/-- A register access that is not an aligned 32-bit word at 0x00 to 0xFC is refused, read or write,
whether IDLE or BUSY (R64, U8, log 12). -/
def Obligations.OddRegisterAccessesAreRefused : Prop :=
  ∀ (s : State) (w : AccessWidth) (off : Nat) (v : Word) (rest : List HostAction),
    (w ≠ .word ∨ off % 4 ≠ 0 ∨ 0xFC < off) →
    (s.inputs = .regWrite w off v :: rest ∨ s.inputs = .regRead w off :: rest) →
    step s = .refused .badRegisterAccess

/-- R40, R161: SEQ goes from IDLE to BUSY only by a write to CMD, and from BUSY to IDLE only by the
completion step or by reset. While IDLE the engine's turn does nothing (R251): the step answers the state
itself where no input is left, and the state with WAIT taken off where WAIT is next (log 1;
PENDING: log 20). -/
def Obligations.SequencerChangesOnlyAsTheRuleSays : Prop :=
  (∀ s t : State, step s = .next t →
    (s.seq = .idle → t.seq = .busy → ∃ c, s.inputs.head? = some (.regWrite .word 0x00 c) ∧ t.pending = c) ∧
    (s.seq = .busy → t.seq = .idle → s.EngineTurn ∨ s.inputs.head? = some .reset)) ∧
  (∀ s : State, s.seq = .idle →
    (s.inputs = [] → step s = .next s) ∧
    (∀ rest, s.inputs = .wait :: rest → step s = .next { s with inputs := rest }))

/-- R33, STATUS.RESOLVED: set only by the completion of a RESOLVE without error; cleared only by a
RESOLVE with error, a CLOSE, a write to WIDTH, HEIGHT or a TAG register, or reset. -/
def Obligations.ResolvedChangesOnlyAsTheRuleSays : Prop :=
  ∀ s t : State, step s = .next t →
    (s.resolved = false → t.resolved = true → s.EngineTurn ∧ s.pending = 1 ∧ t.done = true) ∧
    (s.resolved = true → t.resolved = false →
      (s.EngineTurn ∧ ((s.pending = 1 ∧ t.err = true) ∨ s.pending = 3)) ∨
      s.inputs.head? = some .reset ∨
      (s.seq = .idle ∧ ∃ r ∈ cancellingRegs, ∃ v, s.inputs.head? = some (.regWrite .word r.offset v)))

/-- The operand registers change only by a host write or by reset: no completion step, read or memory
access changes one (R8, R162, R225). -/
def Obligations.OperandRegistersChangeOnlyByTheHost : Prop :=
  ∀ s t : State, step s = .next t → s.inputs.head? ≠ some .reset →
    (∀ w off v, s.inputs.head? ≠ some (.regWrite w off v)) →
    ∀ r ∈ readWriteRegs, t.readReg r = s.readReg r

/-! ## The completion of commands -/

/-- NOP (R158): accepted, it clears DONE, ERR, ERRCODE; completed, it sets DONE and clears BUSY; nothing
else changes. That PENDING still holds the command word afterwards is the model's choice (U10, log 20). -/
def Obligations.NopOnlyReportsDone : Prop :=
  (∀ s : State, exec .nop s = .next { s with done := true, seq := .idle }) ∧
  (∀ (s : State) (rest : List HostAction), s.seq = .idle →
    s.inputs = .regWrite .word 0x00 0x00000000 :: .wait :: rest →
    ∃ u, step s = .next u ∧ step u = .next { s with
      inputs := rest, pending := 0, seq := .idle, done := true, err := false, errCode := 0 })

/-- CLOSE (R159): RESOLVED, OVR and the resolution registers become 0, DONE is set; the operand
registers and the memories stay. That PENDING still holds the command word afterwards is the model's
choice (U10, log 20). -/
def Obligations.CloseDropsResolutionAndOverrun : Prop :=
  (∀ s : State, exec .close s = .next { s with
    resolved := false, ovr := false, fmtIndex := 0, descLo := 0, descHi := 0, payloadSize := 0
    done := true, seq := .idle }) ∧
  (∀ (s : State) (rest : List HostAction), s.seq = .idle →
    s.inputs = .regWrite .word 0x00 0x00000003 :: .wait :: rest →
    ∃ u, step s = .next u ∧ step u = .next { s with
      inputs := rest, pending := 3, seq := .idle, done := true, err := false, errCode := 0
      resolved := false, ovr := false, fmtIndex := 0, descLo := 0, descHi := 0, payloadSize := 0 })

/-- RESOLVE with success (R152): the tag key matches a legal entry `e` at index `i` and the geometry is
one it admits; FMT_INDEX, DESC_LO, DESC_HI and PAYLOAD_SIZE hold the index, the descriptor and
`W * H * BPP / 8` exactly, RESOLVED and DONE are set, and nothing else changes
(that PENDING stays too is the model's choice: U10, log 20). -/
def Obligations.ResolveFinalizesTheMatchedFormat : Prop :=
  ∀ (s : State) (i : Nat) (e : RomEntry), romLookup s.rom s.tagKey = some (i, e) → e.legal = true →
    i < 256 → maxDimLegal s.maxDim = true →
    1 ≤ s.width.toNat → s.width.toNat ≤ s.maxDim → 1 ≤ s.height.toNat → s.height.toNat ≤ s.maxDim →
    s.width.toNat % e.desc.subH.toNat = 0 → s.height.toNat % e.desc.subV.toNat = 0 →
    ∃ t, exec .resolve s = .next t ∧
      t = { s with
        resolved := true, fmtIndex := t.fmtIndex, descLo := t.descLo, descHi := t.descHi
        payloadSize := t.payloadSize, done := true, seq := .idle } ∧
      t.fmtIndex.toNat = i ∧ t.descHi ++ t.descLo = e.descWord ∧
      t.payloadSize.toNat * 8 = s.width.toNat * s.height.toNat * e.desc.bpp.toNat

/-- RESOLVE with error (R152, R225, R227): no entry for the key gives UNSUPPORTED_FORMAT whatever the
geometry; a legal entry with a dimension that is 0, above MAXDIM or no multiple of its factor gives
INVALID_GEOMETRY; either clears the resolution and changes nothing else (that PENDING
stays too is the model's choice: U10, log 20). -/
def Obligations.ResolveReportsTagThenGeometry : Prop :=
  ∀ s : State,
    (romLookup s.rom s.tagKey = none → exec .resolve s = .next { s with
      err := true, errCode := 1, done := false, seq := .idle, resolved := false, fmtIndex := 0
      descLo := 0, descHi := 0, payloadSize := 0 }) ∧
    (∀ (i : Nat) (e : RomEntry), romLookup s.rom s.tagKey = some (i, e) → e.legal = true → i < 256 →
      maxDimLegal s.maxDim = true →
      (s.width.toNat = 0 ∨ s.height.toNat = 0 ∨ s.maxDim < s.width.toNat ∨ s.maxDim < s.height.toNat ∨
        s.width.toNat % e.desc.subH.toNat ≠ 0 ∨ s.height.toNat % e.desc.subV.toNat ≠ 0) →
      exec .resolve s = .next { s with
        err := true, errCode := 2, done := false, seq := .idle, resolved := false, fmtIndex := 0
        descLo := 0, descHi := 0, payloadSize := 0 })

/-- R122: the lookup is the first entry in ascending order whose NAME equals the key, none if there is
none; in a legal ROM at most one entry can match. -/
def Obligations.LookupFindsTheFirstMatch : Prop :=
  ∀ (r : Rom) (key : List Byte),
    (∀ i e, romLookup r key = some (i, e) ↔
      (r[i]? = some e ∧ e.nameBytes = key ∧ ∀ j < i, ∀ e', r[j]? = some e' → e'.nameBytes ≠ key)) ∧
    (romLookup r key = none ↔ ∀ e ∈ r, e.nameBytes ≠ key) ∧
    (Rom.legal r = true → ∀ (i j : Nat) (e e' : RomEntry), r[i]? = some e → r[j]? = some e' → e.nameBytes = key →
      e'.nameBytes = key → i = j)

/-- The key of a tag, byte by byte (R23, R97): the tag bytes before the first zero byte with `a..z`
folded to `A..Z`, then zero bytes. -/
def Obligations.TagKeyIsTheFoldedTag : Prop :=
  ∀ (s : State) (t : Nat → Byte) (n : Nat),
    (∀ j < 12, t j = (if j < 4 then s.tag0 else if j < 8 then s.tag1 else s.tag2).extractLsb'
      (8 * (j % 4)) 8) →
    n ≤ 12 → (∀ j < n, t j ≠ 0) → (n < 12 → t n = 0) →
    s.tagKey.length = 12 ∧
    ∀ j < 12, s.tagKey[j]? = some (
      if j < n then (if 0x61 ≤ (t j).toNat ∧ (t j).toNat ≤ 0x7A then t j - 0x20 else t j) else 0)

/-- An empty tag is not found in a legal ROM, because no NAME is empty (R97, R153). -/
def Obligations.EmptyTagIsUnsupported : Prop :=
  ∀ s : State, Rom.legal s.rom = true → s.tag0.extractLsb' 0 8 = 0 →
    ∃ t, exec .resolve s = .next t ∧ t.err = true ∧ t.errCode = 1 ∧ t.resolved = false

/-- R155: a DECODE completes with SEQUENCE when RESOLVED = 0, whatever DESC_LO holds, and changes nothing
but STATUS (R225; that PENDING stays too is the model's choice, log 20); said of the step at the engine's
turn, with the input that gave the turn taken off (log 1), and of each of the seven operations. -/
def Obligations.DecodeWithoutResolutionIsSequenceError : Prop :=
  (∀ s : State, s.EngineTurn → s.pending = 2 → s.resolved = false →
    step s = .next (s.reportAtTurn 4)) ∧
  (∀ (s : State) (v : Variant) (i : Instr), decodeVariant v.code = .ok i → s.resolved = false →
    exec i s = .next { s with err := true, errCode := 4, done := false, seq := .idle })

/-- A DECODE of a legal descriptor with a used base or stride that is no multiple of 4, or a used stride
below the row's active bytes, completes with DST_CONFIG, whatever the ranges are, and changes nothing
but STATUS (R156, R227; that PENDING stays too is the model's choice: U10, log 20). -/
def Obligations.BadDestinationIsDstConfigError : Prop :=
  ∀ (s : State) (v : Variant) (i : Instr), decodeVariant v.code = .ok i → s.resolved = true →
    s.desc.legal = true → s.desc.variant = v.code →
    (∃ p ∈ usedPlanes s.desc, s.dstBase p % 4 ≠ 0 ∨ s.dstStride p % 4 ≠ 0 ∨
      s.dstStride p < rowBytes s.desc s.W p) →
    exec i s = .next { s with err := true, errCode := 5, done := false, seq := .idle }

/-- A DECODE of a legal descriptor whose used bases and strides are right, and whose source window or a
used footprint passes address 2^32 - 1 in exact arithmetic, completes with RANGE and changes nothing but
STATUS (R157, R160, R227; that PENDING stays too is the model's choice: U10, log 20). -/
def Obligations.WrappingWindowIsRangeError : Prop :=
  ∀ (s : State) (v : Variant) (i : Instr), decodeVariant v.code = .ok i → s.resolved = true →
    s.desc.legal = true → s.desc.variant = v.code →
    (∀ p ∈ usedPlanes s.desc, s.dstBase p % 4 = 0 ∧ s.dstStride p % 4 = 0 ∧
      rowBytes s.desc s.W p ≤ s.dstStride p) →
    (2 ^ 32 < s.srcBase.toNat + s.payloadSize.toNat ∨
      ∃ p ∈ usedPlanes s.desc, 2 ^ 32 < s.dstBase p + (planeHeight s.desc s.H p - 1) * s.dstStride p +
        ceil4 (rowBytes s.desc s.W p)) →
    exec i s = .next { s with err := true, errCode := 6, done := false, seq := .idle }

/-- ILLEGAL_CMD (R223, R227) at the engine's turn (log 1). A command word of 4 or more, that is with OPCODE
4 to 15 or one of bits 31:4 set, completes with ILLEGAL_CMD whatever else the state holds. A DECODE with
VARIANT 7 (and no other reserved field, log 3) comes to ILLEGAL_CMD last: a used base or stride that is
wrong gives DST_CONFIG, else a window that passes address 2^32 - 1 gives RANGE, and only where every test
passes ILLEGAL_CMD. Each changes nothing but STATUS (that PENDING stays too is the model's choice: U10,
log 20). -/
def Obligations.IllegalCommandChangesOnlyStatus : Prop :=
  ∀ s : State, s.EngineTurn →
    (4 ≤ s.pending.toNat → step s = .next (s.reportAtTurn 3)) ∧
    (s.pending = 2 → s.desc.variant = 7 → s.desc.fieldsLegal = true → s.resolved = true →
      if ∃ p ∈ usedPlanes s.desc, s.dstBase p % 4 ≠ 0 ∨ s.dstStride p % 4 ≠ 0 ∨
          s.dstStride p < rowBytes s.desc s.W p then step s = .next (s.reportAtTurn 5)
      else if 2 ^ 32 < s.srcBase.toNat + s.payloadSize.toNat ∨
          ∃ p ∈ usedPlanes s.desc, 2 ^ 32 < s.dstBase p +
            (planeHeight s.desc s.H p - 1) * s.dstStride p + ceil4 (rowBytes s.desc s.W p) then
        step s = .next (s.reportAtTurn 6)
      else step s = .next (s.reportAtTurn 3))

/-- What the spec gives no behaviour is refused (log 3, log 10): a RESOLVE whose tag matches an entry that
is not legal or cannot be indexed, or under a MAXDIM out of its bound (U4, U18); a DECODE whose resolved
descriptor is not legal (R262, U4), and one that passes its checks while two used footprints overlap
(R259, U1). -/
def Obligations.UnspecifiedCasesAreRefused : Prop :=
  (∀ (s : State) (i : Nat) (e : RomEntry), romLookup s.rom s.tagKey = some (i, e) →
    (e.legal = false ∨ 256 ≤ i ∨ maxDimLegal s.maxDim = false) →
    exec .resolve s = .refused .illegalRom) ∧
  (∀ (s : State) (v : Variant) (i : Instr), decodeVariant v.code = .ok i → s.resolved = true →
    s.desc.variant = v.code →
    (s.desc.legal = false → exec i s = .refused .illegalDescriptor) ∧
    (s.desc.legal = true → s.windowError s.desc = none →
      (∃ p ∈ usedPlanes s.desc, ∃ q ∈ usedPlanes s.desc, p ≠ q ∧
        s.dstBase q < s.footprintEnd s.desc p ∧ s.dstBase p < s.footprintEnd s.desc q) →
      exec i s = .refused .overlappingFootprints))

/-- R225: a command that ends in error at the engine's turn (log 1) sets ERR and ERRCODE to a code of R221,
clears DONE and BUSY, and changes nothing else, but for RESOLVE the resolution, which it clears
(that PENDING stays too is the model's choice: U10, log 20). -/
def Obligations.ErrorsArePrecise : Prop :=
  ∀ s t : State, s.EngineTurn → s.err = false → step s = .next t → t.err = true →
    1 ≤ t.errCode.toNat ∧ t.errCode.toNat ≤ 6 ∧
    t = (if s.pending = 1 then
      { s.reportAtTurn t.errCode with
        resolved := false, fmtIndex := 0, descLo := 0, descHi := 0, payloadSize := 0 }
      else s.reportAtTurn t.errCode)

/-- The STATUS word after reset, in every state with a command in flight, and after each outcome of a
completion step, with `r` and `o` the weights of RESOLVED and OVR as they stand after the command
(R226). -/
def Obligations.StatusWordAfterEachOutcome : Prop :=
  State.reset.statusWord = 0x00000000 ∧
  (∀ s : State, s.Inv → s.seq = .busy →
    s.statusWord.toNat = 0x001 + s.resolvedWeight + s.ovrWeight) ∧
  ∀ s t : State, s.Inv → s.EngineTurn → step s = .next t →
    (t.errCode = 0 → t.statusWord.toNat = 0x004 + t.resolvedWeight + t.ovrWeight ∧
      (s.pending = 1 → t.resolvedWeight = 2) ∧
      (s.pending = 3 → t.resolvedWeight = 0 ∧ t.ovrWeight = 0)) ∧
    (t.errCode = 1 → t.statusWord.toNat = 0x018 + t.ovrWeight) ∧
    (t.errCode = 2 → t.statusWord.toNat = 0x028 + t.ovrWeight) ∧
    (t.errCode = 3 → t.statusWord.toNat = 0x038 + t.resolvedWeight + t.ovrWeight) ∧
    (t.errCode = 4 → t.statusWord.toNat = 0x048 + t.ovrWeight) ∧
    (t.errCode = 5 → t.statusWord.toNat = 0x05A + t.ovrWeight) ∧
    (t.errCode = 6 → t.statusWord.toNat = 0x06A + t.ovrWeight) ∧
    t.errCode.toNat ≤ 6

/-- Every accepted command completes at its completion step: no command hangs (R151), whatever the host
programmed, in a state that meets the invariant, with a legal ROM, and with footprints that the host has
kept disjoint where a DECODE is in flight (R259). -/
def Obligations.EveryCommandCompletes : Prop :=
  ∀ s : State, s.Inv → Rom.legal s.rom = true → maxDimLegal s.maxDim = true → s.EngineTurn →
    (s.pending = 2 → s.resolved = true → s.footprintsDisjoint s.desc = true) →
    ∃ t, step s = .next t ∧ t.seq = .idle ∧ (t.done = true ↔ t.err = false)

/-! ## What a DECODE does: `CommandStepsTo` says that the command word 2 selects the operation -/

/-- For every legal descriptor and every geometry it admits, `W * H * BPP` is a multiple of 8, the payload
is not empty, and it is as large as the active areas together, which for PACKED_RGB32 are three quarters
of it (R133). -/
def Obligations.PayloadSizeIsExact : Prop :=
  ∀ (d : Descriptor) (W H : Nat), d.legal = true → 1 ≤ W → 1 ≤ H → W % d.subH.toNat = 0 →
    H % d.subV.toNat = 0 →
    payloadBytes d W H * 8 = W * H * d.bpp.toNat ∧ 1 ≤ payloadBytes d W H ∧
    (if d.variant = Variant.packedRgb32.code then
      4 * ((usedPlanes d).map fun p => rowBytes d W p * planeHeight d H p).sum = 3 * payloadBytes d W H
    else ((usedPlanes d).map fun p => rowBytes d W p * planeHeight d H p).sum = payloadBytes d W H)

/-- No body reads SRC outside the source window (R75), and every payload offset is read for one
destination byte, but for the dropped byte of each PACKED_RGB32 pixel, which is read for none (R133,
R172, R183, R191, R204). -/
def Obligations.PayloadBytesAreReadOnce : Prop :=
  ∀ (d : Descriptor) (W H : Nat), d.legal = true → 1 ≤ W → 1 ≤ H → W % d.subH.toNat = 0 →
    H % d.subV.toNat = 0 →
    (∀ m ∈ bodyMoves d W H, ∀ i, m.src = some i → i < payloadBytes d W H) ∧
    (∀ i < payloadBytes d W H,
      if d.variant = Variant.packedRgb32.code ∧ i % 4 = (if d.order 0 = 9 then 0 else 3) then
        ∀ m ∈ bodyMoves d W H, m.src ≠ some i
      else ∃! m, m ∈ bodyMoves d W H ∧ m.src = some i)

/-- Every active byte of every used plane is assigned from one payload offset, no active byte is ever left
to `any`, and no assignment falls outside the active areas and tail paddings; in the variants without
word gather none falls in a tail padding (R70, R76, R77). -/
def Obligations.ActiveBytesAreAssignedOnce : Prop :=
  ∀ (d : Descriptor) (W H : Nat), d.legal = true → 1 ≤ W → 1 ≤ H → W % d.subH.toNat = 0 →
    H % d.subV.toNat = 0 →
    (∀ p ∈ usedPlanes d, ∀ y < planeHeight d H p, ∀ k < rowBytes d W p,
      (∃! i, ⟨p, y, k, some i⟩ ∈ bodyMoves d W H) ∧ ⟨p, y, k, none⟩ ∉ bodyMoves d W H) ∧
    (∀ m ∈ bodyMoves d W H, m.plane ∈ usedPlanes d ∧ m.row < planeHeight d H m.plane ∧
      m.col < ceil4 (rowBytes d W m.plane) ∧
      (d.variant ∉ [Variant.nvSemiplanar.code, Variant.packedRgb24.code, Variant.packedRgb32.code] →
        m.col < rowBytes d W m.plane))

/-- DECODE.PLANAR (R170, R171): it completes; the plane of slot `i` holds the source plane that starts
where the planes of the slots before it end; no other byte of DST and no other part of the state changes
but DONE, BUSY (and PENDING, of which nothing is said: U10). -/
def Obligations.DecodePlanarCopiesPlanes : Prop :=
  ∀ s : State, s.DecodeReady .planar →
    ∃ t, exec .decodePlanar s = .next t ∧ s.CommandStepsTo t ∧ s.CompletedFrom t ∧ t.free = s.free ∧
      (∀ i < s.desc.planes.toNat, ∀ p : Plane, s.desc.order i = p.code →
        ∀ y < planeHeight s.desc s.H p, ∀ k < rowBytes s.desc s.W p,
          Mem.read t.dst (s.dstAddr p y k) =
            s.srcByte (((List.range i).map fun j =>
                rowBytes s.desc s.W (slotPlane s.desc j) *
                  planeHeight s.desc s.H (slotPlane s.desc j)).sum +
              y * rowBytes s.desc s.W p + k)) ∧
      (∀ a, ¬ s.ActiveAddr s.desc a → Mem.read t.dst a = Mem.read s.dst a)

/-- DECODE.NV (R180): luma copied to plane 0, the first byte of each chroma pair to the plane of slot 1,
the second to that of slot 2; besides these only the tail padding of planes 1 and 2 may change. -/
def Obligations.DecodeNvSplitsBytePairs : Prop :=
  ∀ s : State, s.DecodeReady .nvSemiplanar →
    ∃ t, exec .decodeNv s = .next t ∧ s.CommandStepsTo t ∧ s.CompletedFrom t ∧
      (∀ y < s.H, ∀ k < s.W, Mem.read t.dst (s.dstAddr .p0 y k) = s.srcByte (y * s.W + k)) ∧
      (∀ pa pb : Plane, s.desc.order 1 = pa.code → s.desc.order 2 = pb.code →
        ∀ y < s.H / s.desc.subV.toNat, ∀ x < s.W / 2,
          Mem.read t.dst (s.dstAddr pa y x) = s.srcByte (s.W * s.H + y * (2 * (s.W / 2)) + 2 * x) ∧
          Mem.read t.dst (s.dstAddr pb y x) =
            s.srcByte (s.W * s.H + y * (2 * (s.W / 2)) + 2 * x + 1)) ∧
      (∀ a, (∀ y < s.H, ∀ k < s.W, a ≠ s.dstAddr .p0 y k) →
        (∀ y < s.H / s.desc.subV.toNat, ∀ k < ceil4 (s.W / 2),
          a ≠ s.dstAddr .p1 y k ∧ a ≠ s.dstAddr .p2 y k) →
        Mem.read t.dst a = Mem.read s.dst a)

/-- DECODE.P01X (R182): luma copied at two bytes a sample, the 16-bit chroma pairs split to the planes of
slots 1 and 2, byte order kept; no other byte of DST changes. -/
def Obligations.DecodeP01xSplitsSamplePairs : Prop :=
  ∀ s : State, s.DecodeReady .p01xSemiplanar16 →
    ∃ t, exec .decodeP01x s = .next t ∧ s.CommandStepsTo t ∧ s.CompletedFrom t ∧ t.free = s.free ∧
      (∀ y < s.H, ∀ k < 2 * s.W, Mem.read t.dst (s.dstAddr .p0 y k) = s.srcByte (y * (2 * s.W) + k)) ∧
      (∀ pa pb : Plane, s.desc.order 1 = pa.code → s.desc.order 2 = pb.code →
        ∀ cw, cw = s.W / s.desc.subH.toNat →
        ∀ y < s.H / s.desc.subV.toNat, ∀ x < cw, ∀ b < 2,
          Mem.read t.dst (s.dstAddr pa y (2 * x + b)) =
            s.srcByte (2 * s.W * s.H + y * (4 * cw) + 4 * x + b) ∧
          Mem.read t.dst (s.dstAddr pb y (2 * x + b)) =
            s.srcByte (2 * s.W * s.H + y * (4 * cw) + 4 * x + 2 + b)) ∧
      (∀ a, ¬ s.ActiveAddr s.desc a → Mem.read t.dst a = Mem.read s.dst a)

/-- DECODE.YUV422 in its closed form (R190): with `j0 < j1` the slots that name plane 0, `ju` the one
that names plane 1 and `jv` the one that names plane 2, each macropixel's bytes go to plane 0's two
columns and to one column of planes 1 and 2; no other byte of DST changes. -/
def Obligations.DecodeYuv422ScattersMacropixels : Prop :=
  ∀ s : State, s.DecodeReady .packedYuv422 →
    ∃ t, exec .decodeYuv422 s = .next t ∧ s.CommandStepsTo t ∧ s.CompletedFrom t ∧ t.free = s.free ∧
      (∀ j0 j1 ju jv : Nat, j0 < j1 → j1 < 4 → ju < 4 → jv < 4 → s.desc.order j0 = 0 →
        s.desc.order j1 = 0 → s.desc.order ju = 1 → s.desc.order jv = 2 →
        ∀ y < s.H, ∀ m < s.W / 2,
          Mem.read t.dst (s.dstAddr .p0 y (2 * m)) = s.srcByte (y * (2 * s.W) + 4 * m + j0) ∧
          Mem.read t.dst (s.dstAddr .p0 y (2 * m + 1)) = s.srcByte (y * (2 * s.W) + 4 * m + j1) ∧
          Mem.read t.dst (s.dstAddr .p1 y m) = s.srcByte (y * (2 * s.W) + 4 * m + ju) ∧
          Mem.read t.dst (s.dstAddr .p2 y m) = s.srcByte (y * (2 * s.W) + 4 * m + jv)) ∧
      (∀ a, ¬ s.ActiveAddr s.desc a → Mem.read t.dst a = Mem.read s.dst a)

/-- DECODE.RGB24 (R201): byte `c` of each pixel goes to the plane of slot `c`; besides these only tail
padding may change. -/
def Obligations.DecodeRgb24SplitsPixels : Prop :=
  ∀ s : State, s.DecodeReady .packedRgb24 →
    ∃ t, exec .decodeRgb24 s = .next t ∧ s.CommandStepsTo t ∧ s.CompletedFrom t ∧
      (∀ c < 3, ∀ p : Plane, s.desc.order c = p.code → ∀ y < s.H, ∀ x < s.W,
        Mem.read t.dst (s.dstAddr p y x) = s.srcByte ((y * s.W + x) * 3 + c)) ∧
      (∀ a, ¬ s.TouchableAddr s.desc a → Mem.read t.dst a = Mem.read s.dst a)

/-- DECODE.RGB32 in its uniform form (R202): byte `j` of each pixel goes to the plane of slot `j`, and
is dropped where slot `j` holds 9; besides these only tail padding may change. -/
def Obligations.DecodeRgb32SplitsPixelsAndDropsOneByte : Prop :=
  ∀ s : State, s.DecodeReady .packedRgb32 →
    ∃ t, exec .decodeRgb32 s = .next t ∧ s.CommandStepsTo t ∧ s.CompletedFrom t ∧
      (∀ j < 4, ∀ p : Plane, s.desc.order j = p.code → ∀ y < s.H, ∀ x < s.W,
        Mem.read t.dst (s.dstAddr p y x) = s.srcByte ((y * s.W + x) * 4 + j)) ∧
      (∀ a, ¬ s.TouchableAddr s.desc a → Mem.read t.dst a = Mem.read s.dst a)

/-- DECODE.RGB48 (R203): 16-bit sample `c` of each pixel goes to the plane of slot `c`, its two bytes in
disk order; no other byte of DST changes. -/
def Obligations.DecodeRgb48SplitsSamples : Prop :=
  ∀ s : State, s.DecodeReady .packedRgb48 →
    ∃ t, exec .decodeRgb48 s = .next t ∧ s.CommandStepsTo t ∧ s.CompletedFrom t ∧ t.free = s.free ∧
      (∀ c < 3, ∀ p : Plane, s.desc.order c = p.code → ∀ y < s.H, ∀ x < s.W, ∀ b < 2,
        Mem.read t.dst (s.dstAddr p y (2 * x + b)) = s.srcByte ((y * s.W + x) * 6 + 2 * c + b)) ∧
      (∀ a, ¬ s.ActiveAddr s.desc a → Mem.read t.dst a = Mem.read s.dst a)

/-- Word gather lanes (R61): sample `j` of the gathered word is its byte `j`, and bits `8j+7 : 8j`. -/
def Obligations.GatherWordLanes : Prop :=
  ∀ b0 b1 b2 b3 : Byte,
    leByte (gatherWord b0 b1 b2 b3) 0 = b0 ∧ leByte (gatherWord b0 b1 b2 b3) 1 = b1 ∧
    leByte (gatherWord b0 b1 b2 b3) 2 = b2 ∧ leByte (gatherWord b0 b1 b2 b3) 3 = b3 ∧
    (gatherWord b0 b1 b2 b3).toNat =
      b0.toNat + b1.toNat * 2 ^ 8 + b2.toNat * 2 ^ 16 + b3.toNat * 2 ^ 24

/-- The word gather of DECODE.NV as a datapath step (R181): each full group of four pairs ends as the two
gathered words, stored with bits 7:0 at the lowest address. -/
def Obligations.NvGroupsAreGatheredWords : Prop :=
  ∀ (s t : State) (pa pb : Plane), s.DecodeReady .nvSemiplanar → exec .decodeNv s = .next t →
    s.desc.order 1 = pa.code → s.desc.order 2 = pb.code →
    ∀ y < s.H / s.desc.subV.toNat, ∀ g, 4 * g + 3 < s.W / 2 →
    ∀ o, o = s.W * s.H + y * (2 * (s.W / 2)) + 8 * g →
      Mem.readBytes t.dst (s.dstAddr pa y (4 * g)) 4 =
        (List.range 4).map (leByte (gatherWord (s.srcByte o) (s.srcByte (o + 2)) (s.srcByte (o + 4))
          (s.srcByte (o + 6)))) ∧
      Mem.readBytes t.dst (s.dstAddr pb y (4 * g)) 4 =
        (List.range 4).map (leByte (gatherWord (s.srcByte (o + 1)) (s.srcByte (o + 3))
          (s.srcByte (o + 5)) (s.srcByte (o + 7))))

/-- The word gather of DECODE.RGB24 and DECODE.RGB32 as a datapath step (R200): for each full group of
four pixels and each channel, the gathered word of that channel. -/
def Obligations.RgbGroupsAreGatheredWords : Prop :=
  ∀ (s t : State) (B a : Nat),
    ((s.DecodeReady .packedRgb24 ∧ exec .decodeRgb24 s = .next t ∧ B = 3 ∧ a = 0) ∨
     (s.DecodeReady .packedRgb32 ∧ exec .decodeRgb32 s = .next t ∧ B = 4 ∧
       a = if s.desc.order 0 = 9 then 1 else 0)) →
    ∀ c < 3, ∀ p : Plane, s.desc.order (c + a) = p.code → ∀ y < s.H, ∀ g, 4 * g + 3 < s.W →
    ∀ o, o = y * B * s.W + 4 * g * B →
      Mem.readBytes t.dst (s.dstAddr p y (4 * g)) 4 =
        (List.range 4).map (leByte (gatherWord (s.srcByte (o + a + c)) (s.srcByte (o + B + a + c))
          (s.srcByte (o + 2 * B + a + c)) (s.srcByte (o + 3 * B + a + c))))

/-- R134: two states whose resolved descriptors are equal but for 1 and 2 exchanged throughout ORDER, with
the same geometry, bases and strides and the same bytes in the source window, whatever the tags, FMT_INDEX,
the flags and DST hold: plane 0 ends identical, and the active area one leaves in plane 1 the other leaves
in plane 2. -/
def Obligations.SwappedOrderSwapsPlanes : Prop :=
  ∀ (s s' t t' : State) (v : Variant) (i : Instr), decodeVariant v.code = .ok i →
    s'.desc = s.desc.swapChroma → s.desc.planes.toNat = 3 →
    s'.width = s.width → s'.height = s.height → s'.srcBase = s.srcBase →
    (∀ p, s'.dstBase p = s.dstBase p ∧ s'.dstStride p = s.dstStride p) →
    (∀ j < s.payloadSize.toNat, s'.srcByte j = s.srcByte j) →
    s.DecodeReady v → s'.DecodeReady v → exec i s = .next t → exec i s' = .next t' →
    (∀ y < s.H, ∀ k < rowBytes s.desc s.W .p0,
      Mem.read t.dst (s.dstAddr .p0 y k) = Mem.read t'.dst (s.dstAddr .p0 y k)) ∧
    (∀ y < planeHeight s.desc s.H .p1, ∀ k < rowBytes s.desc s.W .p1,
      Mem.read t.dst (s.dstAddr .p1 y k) = Mem.read t'.dst (s.dstAddr .p2 y k) ∧
      Mem.read t.dst (s.dstAddr .p2 y k) = Mem.read t'.dst (s.dstAddr .p1 y k))

/-- The round-trip property's heart (R205): for a packed variant the active areas determine every payload
byte that is used, so at most one payload decodes to given planes. -/
def Obligations.PackedPlanesDetermineThePayload : Prop :=
  ∀ (s s' t t' : State) (v : Variant) (i : Instr), decodeVariant v.code = .ok i →
    v ∈ [Variant.packedYuv422, .packedRgb24, .packedRgb32, .packedRgb48] →
    s' = { s with src := s'.src } → s.DecodeReady v →
    exec i s = .next t → exec i s' = .next t' →
    (∀ a, s.ActiveAddr s.desc a → Mem.read t.dst a = Mem.read t'.dst a) →
    ∀ j < s.payloadSize.toNat,
      ¬ (v = .packedRgb32 ∧ j % 4 = (if s.desc.order 0 = 9 then 0 else 3)) →
      s.srcByte j = s'.srcByte j

/-- A DECODE is idempotent on the active areas (R68): run again from the state it left, it completes and
every active byte stays. -/
def Obligations.DecodeIsIdempotentOnActiveAreas : Prop :=
  ∀ (s t : State) (v : Variant) (i : Instr), decodeVariant v.code = .ok i → s.DecodeReady v →
    exec i s = .next t →
    ∃ u, exec i t = .next u ∧ ∀ a, s.ActiveAddr s.desc a → Mem.read u.dst a = Mem.read t.dst a

/-- R76: no command changes a DST byte outside the active areas and tail paddings of the used planes. -/
def Obligations.CommandsStayInsideTheFootprints : Prop :=
  ∀ (i : Instr) (s t : State), exec i s = .next t → ∀ a, ¬ s.TouchableAddr s.desc a →
    Mem.read t.dst a = Mem.read s.dst a

/-- PENDING is written by acceptance and by reset alone (R42). That it therefore keeps the command word
after completion, where U10 leaves it open, is the model's choice (log 20). -/
def Obligations.PendingChangesOnlyAtAcceptanceAndReset : Prop :=
  (∀ (i : Instr) (s t : State), exec i s = .next t → t.pending = s.pending) ∧
  (∀ s t : State, step s = .next t → s.inputs.head? ≠ some .reset →
    t.pending = s.pending ∨ (s.seq = .idle ∧ s.inputs.head? = some (.regWrite .word 0x00 t.pending)))

/-- SRC changes only by a host store, and the ROM, MAXDIM and SRC are out of the engine's reach
(R43, R63, R250). -/
def Obligations.SourceChangesOnlyByHostStores : Prop :=
  (∀ (i : Instr) (s t : State), exec i s = .next t → t.src = s.src) ∧
  (∀ s t : State, step s = .next t → t.src ≠ s.src →
    ∃ a bs, s.inputs.head? = some (.srcStore a bs))

/-! ## The host's memory accesses -/

/-- Host stores and loads that touch no window of a DECODE body in flight, in particular every access with
none in flight: a store puts its bytes and leaves every other byte, a load returns the byte (in `rdata`,
log 8) and changes nothing (R43, R68, and R71, R257, R260 for what they do not forbid). The model's
choices: a DECODE that will fail its checks has no windows (log 11), and a store of several bytes is one
action, a load reads one byte (log 18), and PENDING stays while IDLE (log 20). -/
def Obligations.HostMemoryAccesses : Prop :=
  ∀ (s : State) (a : Nat) (bs : List Byte) (rest : List HostAction),
    (a + bs.length ≤ 2 ^ 32 →
      (s.bodyInFlight = true → ∀ i < bs.length,
        a + i < s.srcBase.toNat ∨ s.srcBase.toNat + s.payloadSize.toNat ≤ a + i) →
      s.inputs = .srcStore a bs :: rest →
      ∃ t, step s = .next t ∧ t = { s with inputs := rest, src := t.src } ∧
        (∀ i, ∀ h : i < bs.length, Mem.read t.src (a + i) = bs[i]) ∧
        (∀ x, x < a ∨ a + bs.length ≤ x → Mem.read t.src x = Mem.read s.src x)) ∧
    (a + bs.length ≤ 2 ^ 32 →
      (s.bodyInFlight = true → ∀ i < bs.length, ∀ p ∈ usedPlanes s.desc,
        a + i < s.dstBase p ∨ s.footprintEnd s.desc p ≤ a + i) →
      s.inputs = .dstStore a bs :: rest →
      ∃ t, step s = .next t ∧ t = { s with inputs := rest, dst := t.dst } ∧
        (∀ i, ∀ h : i < bs.length, Mem.read t.dst (a + i) = bs[i]) ∧
        (∀ x, x < a ∨ a + bs.length ≤ x → Mem.read t.dst x = Mem.read s.dst x)) ∧
    (a < 2 ^ 32 →
      (s.bodyInFlight = true → ∀ p ∈ usedPlanes s.desc,
        a < s.dstBase p ∨ s.footprintEnd s.desc p ≤ a) →
      s.inputs = .dstLoad a :: rest →
      step s = .next { s with inputs := rest, rdata := (Mem.read s.dst a).setWidth 32 })

/-- The model's choice of stops for the host's memory accesses (logs 11 and 14): accesses to the windows of
a DECODE in flight that passes its checks are refused (R72, R257, R260, U5, U6), and accesses past
address 2^32 - 1 fault. -/
def Obligations.ForbiddenHostAccessesStop : Prop :=
  ∀ (s : State) (a : Nat) (bs : List Byte) (rest : List HostAction),
    (2 ^ 32 < a + bs.length → s.inputs = .srcStore a bs :: rest ∨ s.inputs = .dstStore a bs :: rest →
      step s = .fault (.outsideAddressSpace a)) ∧
    (2 ^ 32 ≤ a → s.inputs = .dstLoad a :: rest → step s = .fault (.outsideAddressSpace a)) ∧
    (a + bs.length ≤ 2 ^ 32 → s.bodyInFlight = true → s.inputs = .srcStore a bs :: rest →
      (∃ i < bs.length, s.srcBase.toNat ≤ a + i ∧ a + i < s.srcBase.toNat + s.payloadSize.toNat) →
      step s = .refused .srcWrittenDuringDecode) ∧
    (a + bs.length ≤ 2 ^ 32 → s.bodyInFlight = true → s.inputs = .dstStore a bs :: rest →
      (∃ i < bs.length, ∃ p ∈ usedPlanes s.desc, s.dstBase p ≤ a + i ∧
        a + i < s.footprintEnd s.desc p) → step s = .refused .dstTouchedDuringDecode) ∧
    (a < 2 ^ 32 → s.bodyInFlight = true → s.inputs = .dstLoad a :: rest →
      (∃ p ∈ usedPlanes s.desc, s.dstBase p ≤ a ∧ a < s.footprintEnd s.desc p) →
      step s = .refused .dstTouchedDuringDecode)

/-- The model's canonical form of a memory (log 7) is canonical: two memories in it that read alike at
every address are equal. -/
def Obligations.CanonicalMemoriesAreEqual : Prop :=
  ∀ m m' : Mem, Mem.wf m = true → Mem.wf m' = true → (∀ a, Mem.read m a = Mem.read m' a) → m = m'
end

