-- ==== Sys2Proof/Laws/Legal.lean ====
section
/-! SUPPORT. What a legal descriptor is like, variant by variant: the facts the decode bodies rest on
(R124 to R130). -/

namespace Sys2Proof

open Sys2Proof.Machine

theorem Plane.ofCode_code (p : Plane) : Plane.ofCode p.code = some p := by cases p <;> rfl

theorem Plane.code_inj {p q : Plane} (h : p.code = q.code) : p = q := by
  cases p <;> cases q <;> first | rfl | cases h

/-- The slot that holds a plane's index names that plane. -/
theorem slotPlane_of_code {d : Descriptor} {i : Nat} {p : Plane} (h : d.order i = p.code) :
    slotPlane d i = p := by
  simp [slotPlane, h, Plane.ofCode_code]

/-- A slot that holds an index up to 2 holds the index of the plane it names. -/
theorem slotPlane_code {d : Descriptor} {i : Nat} (h : d.order i ≤ 2) :
    (slotPlane d i).code = d.order i := by
  unfold slotPlane
  generalize d.order i = n at *
  interval_cases n <;> rfl

theorem isPermutation_iff {a b c : Nat} :
    isPermutation a b c = true ↔ a ≤ 2 ∧ b ≤ 2 ∧ c ≤ 2 ∧ a ≠ b ∧ a ≠ c ∧ b ≠ c := by
  simp [isPermutation, and_assoc]

namespace Descriptor

theorem legal_parts {d : Descriptor} (h : d.legal = true) :
    d.fieldsLegal = true ∧ d.canonicalLegal = true ∧ d.variantLegal = true := by
  simpa [legal, and_assoc] using h

theorem factorLegal_iff {n : Nat} : factorLegal n = true ↔ n = 1 ∨ n = 2 ∨ n = 4 := by
  simp [factorLegal, or_assoc]

theorem legal_subH {d : Descriptor} (h : d.legal = true) :
    d.subH.toNat = 1 ∨ d.subH.toNat = 2 ∨ d.subH.toNat = 4 := by
  have := (legal_parts h).1
  simp only [fieldsLegal, Bool.and_eq_true] at this
  exact factorLegal_iff.1 (by tauto)

theorem legal_subV {d : Descriptor} (h : d.legal = true) :
    d.subV.toNat = 1 ∨ d.subV.toNat = 2 ∨ d.subV.toNat = 4 := by
  have := (legal_parts h).1
  simp only [fieldsLegal, Bool.and_eq_true] at this
  exact factorLegal_iff.1 (by tauto)

theorem legal_planes {d : Descriptor} (h : d.legal = true) :
    d.planes.toNat = 1 ∨ d.planes.toNat = 3 := by
  have := (legal_parts h).1
  simp only [fieldsLegal, Bool.and_eq_true, Bool.or_eq_true, beq_iff_eq] at this
  tauto

theorem legal_depth {d : Descriptor} (h : d.legal = true) :
    8 ≤ d.depth.toNat ∧ d.depth.toNat ≤ 16 := by
  have := (legal_parts h).1
  simp only [fieldsLegal, Bool.and_eq_true, decide_eq_true_eq] at this
  tauto

/-- A legal descriptor of variant `v` meets the rule of that variant. -/
theorem legal_variant {d : Descriptor} {v : Variant} (h : d.legal = true) (hv : d.variant = v.code) :
    (match v with
      | .planar => d.planarLegal = true ∧ d.planeBppLegal = true
      | .nvSemiplanar => d.semiPlanarLegal = true ∧ d.depth.toNat = 8 ∧ d.subH.toNat = 2 ∧
          d.planeBppLegal = true
      | .p01xSemiplanar16 => d.semiPlanarLegal = true ∧ 9 ≤ d.depth.toNat ∧ d.planeBppLegal = true
      | .packedYuv422 => d.yuv422Legal = true ∧ d.bpp.toNat = 16
      | .packedRgb24 => d.packedLegal = true ∧ d.depth.toNat = 8 ∧ d.trailingOrder = true ∧
          d.bpp.toNat = 24
      | .packedRgb32 => d.packedLegal = true ∧ d.depth.toNat = 8 ∧
          (d.trailingOrder = true ∨ d.leadingOrder = true) ∧ d.bpp.toNat = 32
      | .packedRgb48 => d.packedLegal = true ∧ 9 ≤ d.depth.toNat ∧ d.trailingOrder = true ∧
          d.bpp.toNat = 48) := by
  have hl := (legal_parts h).2.2
  unfold variantLegal at hl
  rw [hv] at hl
  cases v <;> simpa [Variant.code, and_assoc] using hl

/-- A legal descriptor is of one of the seven variants. -/
theorem legal_has_variant {d : Descriptor} (h : d.legal = true) : ∃ v : Variant, d.variant = v.code := by
  have hl := (legal_parts h).2.2
  unfold variantLegal at hl
  have hlt := d.variant.isLt
  split at hl
  · exact ⟨.planar, BitVec.eq_of_toNat_eq (by assumption)⟩
  · exact ⟨.nvSemiplanar, BitVec.eq_of_toNat_eq (by assumption)⟩
  · exact ⟨.p01xSemiplanar16, BitVec.eq_of_toNat_eq (by assumption)⟩
  · exact ⟨.packedYuv422, BitVec.eq_of_toNat_eq (by assumption)⟩
  · exact ⟨.packedRgb24, BitVec.eq_of_toNat_eq (by assumption)⟩
  · exact ⟨.packedRgb32, BitVec.eq_of_toNat_eq (by assumption)⟩
  · exact ⟨.packedRgb48, BitVec.eq_of_toNat_eq (by assumption)⟩
  · cases hl

theorem bps_eight {d : Descriptor} (h : d.depth.toNat = 8) : d.bps = 1 := by simp [bps, h]

theorem bps_above {d : Descriptor} (h : 9 ≤ d.depth.toNat) : d.bps = 2 := by
  simp [bps, show ¬ d.depth.toNat ≤ 8 by omega]

theorem usedPlanes_one {d : Descriptor} (h : d.planes.toNat = 1) : usedPlanes d = [.p0] := by
  simp [usedPlanes, h]

theorem usedPlanes_three {d : Descriptor} (h : d.planes.toNat = 3) :
    usedPlanes d = [.p0, .p1, .p2] := by
  simp [usedPlanes, h]

theorem mem_usedPlanes_three {d : Descriptor} (h : d.planes.toNat = 3) (p : Plane) :
    p ∈ usedPlanes d := by
  rw [usedPlanes_three h]
  cases p <;> simp

/-- Three slots that are a permutation of 0, 1, 2 name three planes, each once. -/
theorem slots_cover {d : Descriptor} {i j k : Nat}
    (h : isPermutation (d.order i) (d.order j) (d.order k) = true) :
    (slotPlane d i ≠ slotPlane d j ∧ slotPlane d i ≠ slotPlane d k ∧ slotPlane d j ≠ slotPlane d k) ∧
    ∀ p, p = slotPlane d i ∨ p = slotPlane d j ∨ p = slotPlane d k := by
  unfold slotPlane
  obtain ⟨ha, hb, hc, h1, h2, h3⟩ := isPermutation_iff.1 h
  generalize d.order i = a at *
  generalize d.order j = b at *
  generalize d.order k = c at *
  interval_cases a <;> interval_cases b <;> interval_cases c <;>
    first
      | omega
      | exact ⟨by decide, fun p => by cases p <;> decide⟩

theorem semiPlanar_facts {d : Descriptor} (h : d.semiPlanarLegal = true) :
    d.planes.toNat = 3 ∧ d.order 0 = 0 ∧
    ((d.order 1 = 1 ∧ d.order 2 = 2) ∨ (d.order 1 = 2 ∧ d.order 2 = 1)) := by
  simp only [semiPlanarLegal, Bool.and_eq_true, Bool.or_eq_true, beq_iff_eq] at h
  tauto

theorem semiPlanar_planes {d : Descriptor} (h : d.semiPlanarLegal = true) :
    (slotPlane d 1 = .p1 ∧ slotPlane d 2 = .p2) ∨ (slotPlane d 1 = .p2 ∧ slotPlane d 2 = .p1) := by
  rcases (semiPlanar_facts h).2.2 with ⟨h1, h2⟩ | ⟨h1, h2⟩
  · exact .inl ⟨slotPlane_of_code h1, slotPlane_of_code h2⟩
  · exact .inr ⟨slotPlane_of_code h1, slotPlane_of_code h2⟩

theorem packed_facts {d : Descriptor} (h : d.packedLegal = true) :
    d.planes.toNat = 3 ∧ d.subH.toNat = 1 ∧ d.subV.toNat = 1 := by
  simp only [packedLegal, Bool.and_eq_true, beq_iff_eq] at h
  tauto

theorem trailing_perm {d : Descriptor} (h : d.trailingOrder = true) :
    isPermutation (d.order 0) (d.order 1) (d.order 2) = true ∧ d.order 3 = noPlane := by
  simpa [trailingOrder] using h

theorem leading_perm {d : Descriptor} (h : d.leadingOrder = true) :
    d.order 0 = noPlane ∧ isPermutation (d.order 1) (d.order 2) (d.order 3) = true := by
  simpa [leadingOrder] using h

theorem yuv422_facts {d : Descriptor} (h : d.yuv422Legal = true) :
    d.planes.toNat = 3 ∧ d.depth.toNat = 8 ∧ d.subH.toNat = 2 ∧ d.subV.toNat = 1 ∧
    d.slotCount 0 = 2 ∧ d.slotCount 1 = 1 ∧ d.slotCount 2 = 1 := by
  simpa [yuv422Legal, and_assoc] using h

/-- The bits per pixel group of a legal descriptor are 8 to 48 (R127). -/
theorem legal_bpp {d : Descriptor} (h : d.legal = true) : 8 ≤ d.bpp.toNat ∧ d.bpp.toNat ≤ 48 := by
  obtain ⟨v, hv⟩ := legal_has_variant h
  have hvar := legal_variant h hv
  have hH := legal_subH h
  have hV := legal_subV h
  have hb : d.bps = 1 ∨ d.bps = 2 := by unfold bps; split <;> simp
  have hplane : d.planeBppLegal = true → 8 ≤ d.bpp.toNat ∧ d.bpp.toNat ≤ 48 := by
    intro hp
    unfold planeBppLegal at hp
    rcases legal_planes h with h1 | h3
    · simp [h1] at hp
      omega
    · simp [h3] at hp
      rcases hH with a | a | a <;> rcases hV with b | b | b <;> rcases hb with c | c <;>
        (rw [a, b, c] at hp; omega)
  cases v <;> simp only at hvar <;> first | exact hplane (by tauto) | omega

end Descriptor

end Sys2Proof
end

