-- ==== Sys2Proof/Laws/Memory.lean ====
section
/-! SUPPORT. The laws of a memory: what a read after a write gives, and that every operation keeps the
canonical form. -/

namespace Sys2Proof.Machine

@[simp] theorem Mem.read_nil (a : Nat) : Mem.read [] a = Mem.unlisted := rfl

/-- Dropping the entries up to `a` leaves the bytes above `a` as they were. -/
theorem Mem.read_dropUpTo_above (m : Mem) (a x : Nat) (h : a < x) :
    Mem.read (Mem.dropUpTo m a) x = Mem.read m x := by
  induction m with
  | nil => rfl
  | cons e m ih =>
    obtain ⟨k, b⟩ := e
    by_cases hk : k ≤ a
    · simp [Mem.dropUpTo, hk, Mem.read, ih, show ¬ x < k by omega, show ¬ x = k by omega]
    · simp [Mem.dropUpTo, hk, Mem.read]

/-- After dropping the entries up to `a` no byte up to `a` is listed. -/
theorem Mem.read_dropUpTo_below (m : Mem) (a x : Nat) (h : x ≤ a) :
    Mem.read (Mem.dropUpTo m a) x = Mem.unlisted := by
  induction m with
  | nil => rfl
  | cons e m ih =>
    obtain ⟨k, b⟩ := e
    by_cases hk : k ≤ a
    · simp [Mem.dropUpTo, hk, ih]
    · simp [Mem.dropUpTo, hk, Mem.read, show x < k by omega]

/-- A read after a write: the byte written at its address, the old byte elsewhere. -/
theorem Mem.read_write (m : Mem) (a x : Nat) (b : Byte) :
    Mem.read (Mem.write m a b) x = if x = a then b else Mem.read m x := by
  induction m with
  | nil =>
    by_cases hb : b = Mem.unlisted
    · simp [Mem.write, hb]
    · simp only [Mem.write, hb, if_false, Mem.read]
      split_ifs <;> first | rfl | omega
  | cons e m ih =>
    obtain ⟨k, c⟩ := e
    by_cases hlt : a < k
    · by_cases hb : b = Mem.unlisted
      · simp only [Mem.write, hlt, if_true, hb]
        by_cases hx : x = a
        · simp [hx, Mem.read, hlt]
        · simp [hx]
      · simp only [Mem.write, hlt, if_true, hb, if_false, Mem.read]
        split_ifs <;> first | rfl | omega
    · by_cases heq : a = k
      · subst heq
        by_cases hb : b = Mem.unlisted
        · simp only [Mem.write, lt_irrefl, if_true, if_false, hb]
          by_cases hx : x ≤ a
          · rw [Mem.read_dropUpTo_below m a x hx]
            simp only [Mem.read]
            split_ifs <;> first | rfl | omega
          · rw [Mem.read_dropUpTo_above m a x (by omega)]
            simp [Mem.read, show ¬ x < a by omega, show ¬ x = a by omega]
        · simp only [Mem.write, lt_irrefl, if_true, if_false, hb, Mem.read]
          split_ifs <;> first | rfl | omega
      · simp only [Mem.write, hlt, heq, if_false, Mem.read, ih]
        split_ifs <;> first | rfl | omega

@[simp] theorem Mem.read_write_same (m : Mem) (a : Nat) (b : Byte) :
    Mem.read (Mem.write m a b) a = b := by simp [Mem.read_write]

theorem Mem.read_write_other (m : Mem) (a x : Nat) (b : Byte) (h : x ≠ a) :
    Mem.read (Mem.write m a b) x = Mem.read m x := by simp [Mem.read_write, h]

/-- A read after a store of several bytes. -/
theorem Mem.read_writeBytes (m : Mem) (a x : Nat) (bs : List Byte) :
    Mem.read (Mem.writeBytes m a bs) x =
      if h : a ≤ x ∧ x - a < bs.length then bs[x - a]'h.2 else Mem.read m x := by
  induction bs generalizing m a with
  | nil => simp [Mem.writeBytes]
  | cons b bs ih =>
    rw [Mem.writeBytes, ih, Mem.read_write]
    by_cases hx : x = a
    · subst hx
      simp
    · by_cases h : a ≤ x ∧ x - a < (b :: bs).length
      · have h' : a + 1 ≤ x ∧ x - (a + 1) < bs.length := by
          simp only [List.length_cons] at h
          omega
        rw [dif_pos h', dif_pos h]
        have : x - a = (x - (a + 1)) + 1 := by omega
        simp [this]
      · have h' : ¬ (a + 1 ≤ x ∧ x - (a + 1) < bs.length) := by
          simp only [List.length_cons] at h
          omega
        rw [dif_neg h', dif_neg h, if_neg hx]

theorem Mem.read_writeBytes_outside (m : Mem) (a x : Nat) (bs : List Byte)
    (h : x < a ∨ a + bs.length ≤ x) : Mem.read (Mem.writeBytes m a bs) x = Mem.read m x := by
  rw [Mem.read_writeBytes, dif_neg (by omega)]

/-! ## The canonical form -/

theorem Mem.wfFrom_mono (m : Mem) (lo lo' : Nat) (h : lo' ≤ lo) (hm : Mem.wfFrom lo m = true) :
    Mem.wfFrom lo' m = true := by
  cases m with
  | nil => rfl
  | cons e m =>
    obtain ⟨k, b⟩ := e
    simp only [Mem.wfFrom, Bool.and_eq_true, decide_eq_true_eq] at hm ⊢
    exact ⟨⟨⟨by omega, hm.1.1.2⟩, hm.1.2⟩, hm.2⟩

theorem Mem.wfFrom_dropUpTo (m : Mem) (lo a : Nat) (hm : Mem.wfFrom lo m = true) :
    Mem.wfFrom lo (Mem.dropUpTo m a) = true := by
  induction m generalizing lo with
  | nil => rfl
  | cons e m ih =>
    obtain ⟨k, b⟩ := e
    by_cases hk : k ≤ a
    · simp only [Mem.dropUpTo, hk, if_true]
      simp only [Mem.wfFrom, Bool.and_eq_true, decide_eq_true_eq] at hm
      exact Mem.wfFrom_mono _ (k + 1) lo (by omega) (ih _ hm.2)
    · simpa only [Mem.dropUpTo, hk, if_false] using hm

theorem Mem.wfFrom_write (m : Mem) (lo a : Nat) (b : Byte) (hlo : lo ≤ a) (ha : a < spaceSize)
    (hm : Mem.wfFrom lo m = true) : Mem.wfFrom lo (Mem.write m a b) = true := by
  induction m generalizing lo with
  | nil =>
    by_cases hb : b = Mem.unlisted
    · simp [Mem.write, hb, Mem.wfFrom]
    · simp only [Mem.write, hb, if_false, Mem.wfFrom, Bool.and_eq_true, decide_eq_true_eq]
      simp [hlo, ha, hb]
  | cons e m ih =>
    obtain ⟨k, c⟩ := e
    have hm0 := hm
    simp only [Mem.wfFrom, Bool.and_eq_true, decide_eq_true_eq] at hm
    by_cases hlt : a < k
    · by_cases hb : b = Mem.unlisted
      · simpa [Mem.write, hlt, hb] using hm0
      · simp only [Mem.write, hlt, if_true, hb, if_false, Mem.wfFrom, Bool.and_eq_true,
          decide_eq_true_eq]
        exact ⟨⟨⟨hlo, ha⟩, by simp [hb]⟩, ⟨⟨by omega, hm.1.1.2⟩, hm.1.2⟩, hm.2⟩
    · by_cases heq : a = k
      · subst heq
        by_cases hb : b = Mem.unlisted
        · simp only [Mem.write, lt_irrefl, if_true, if_false, hb]
          exact Mem.wfFrom_mono _ (a + 1) lo (by omega) (Mem.wfFrom_dropUpTo _ _ _ hm.2)
        · simp only [Mem.write, lt_irrefl, if_true, if_false, hb, Mem.wfFrom, Bool.and_eq_true,
            decide_eq_true_eq]
          exact ⟨⟨⟨hlo, ha⟩, by simp [hb]⟩, hm.2⟩
      · simp only [Mem.write, hlt, heq, if_false, Mem.wfFrom, Bool.and_eq_true, decide_eq_true_eq]
        exact ⟨hm.1, ih _ (by omega) hm.2⟩

/-- A write of a byte of the space keeps the canonical form. -/
theorem Mem.wf_write (m : Mem) (a : Nat) (b : Byte) (ha : a < spaceSize) (hm : Mem.wf m = true) :
    Mem.wf (Mem.write m a b) = true := Mem.wfFrom_write m 0 a b (Nat.zero_le _) ha hm

/-- A store of bytes that all lie in the space keeps the canonical form. -/
theorem Mem.wf_writeBytes (m : Mem) (a : Nat) (bs : List Byte) (h : a + bs.length ≤ spaceSize)
    (hm : Mem.wf m = true) : Mem.wf (Mem.writeBytes m a bs) = true := by
  induction bs generalizing m a with
  | nil => exact hm
  | cons b bs ih =>
    simp only [List.length_cons] at h
    exact ih _ _ (by omega) (Mem.wf_write m a b (by omega) hm)

/-- In canonical form the dropping that follows an entry drops nothing. -/
theorem Mem.dropUpTo_of_wf (m : Mem) (a : Nat) (hm : Mem.wfFrom (a + 1) m = true) :
    Mem.dropUpTo m a = m := by
  cases m with
  | nil => rfl
  | cons e m =>
    obtain ⟨k, b⟩ := e
    simp only [Mem.wfFrom, Bool.and_eq_true, decide_eq_true_eq] at hm
    simp [Mem.dropUpTo, show ¬ k ≤ a by omega]

end Sys2Proof.Machine
end

