-- ==== Sys2Proof/Laws/State.lean ====
section
/-! SUPPORT. One lemma per field per named update of the state, so that no proof unfolds a record
update. -/

namespace Sys2Proof.Machine

/-! ## accept -/

@[simp] theorem State.accept_seq (c : Word) (s : State) :
    (s.accept c).seq = .busy := rfl
@[simp] theorem State.accept_pending (c : Word) (s : State) :
    (s.accept c).pending = c := rfl
@[simp] theorem State.accept_resolved (c : Word) (s : State) :
    (s.accept c).resolved = s.resolved := rfl
@[simp] theorem State.accept_done (c : Word) (s : State) :
    (s.accept c).done = false := rfl
@[simp] theorem State.accept_err (c : Word) (s : State) :
    (s.accept c).err = false := rfl
@[simp] theorem State.accept_errCode (c : Word) (s : State) :
    (s.accept c).errCode = 0 := rfl
@[simp] theorem State.accept_ovr (c : Word) (s : State) :
    (s.accept c).ovr = s.ovr := rfl
@[simp] theorem State.accept_width (c : Word) (s : State) :
    (s.accept c).width = s.width := rfl
@[simp] theorem State.accept_height (c : Word) (s : State) :
    (s.accept c).height = s.height := rfl
@[simp] theorem State.accept_tag0 (c : Word) (s : State) :
    (s.accept c).tag0 = s.tag0 := rfl
@[simp] theorem State.accept_tag1 (c : Word) (s : State) :
    (s.accept c).tag1 = s.tag1 := rfl
@[simp] theorem State.accept_tag2 (c : Word) (s : State) :
    (s.accept c).tag2 = s.tag2 := rfl
@[simp] theorem State.accept_fmtIndex (c : Word) (s : State) :
    (s.accept c).fmtIndex = s.fmtIndex := rfl
@[simp] theorem State.accept_descLo (c : Word) (s : State) :
    (s.accept c).descLo = s.descLo := rfl
@[simp] theorem State.accept_descHi (c : Word) (s : State) :
    (s.accept c).descHi = s.descHi := rfl
@[simp] theorem State.accept_payloadSize (c : Word) (s : State) :
    (s.accept c).payloadSize = s.payloadSize := rfl
@[simp] theorem State.accept_srcBase (c : Word) (s : State) :
    (s.accept c).srcBase = s.srcBase := rfl
@[simp] theorem State.accept_dstBase0 (c : Word) (s : State) :
    (s.accept c).dstBase0 = s.dstBase0 := rfl
@[simp] theorem State.accept_dstBase1 (c : Word) (s : State) :
    (s.accept c).dstBase1 = s.dstBase1 := rfl
@[simp] theorem State.accept_dstBase2 (c : Word) (s : State) :
    (s.accept c).dstBase2 = s.dstBase2 := rfl
@[simp] theorem State.accept_dstStride0 (c : Word) (s : State) :
    (s.accept c).dstStride0 = s.dstStride0 := rfl
@[simp] theorem State.accept_dstStride1 (c : Word) (s : State) :
    (s.accept c).dstStride1 = s.dstStride1 := rfl
@[simp] theorem State.accept_dstStride2 (c : Word) (s : State) :
    (s.accept c).dstStride2 = s.dstStride2 := rfl
@[simp] theorem State.accept_rom (c : Word) (s : State) :
    (s.accept c).rom = s.rom := rfl
@[simp] theorem State.accept_maxDim (c : Word) (s : State) :
    (s.accept c).maxDim = s.maxDim := rfl
@[simp] theorem State.accept_src (c : Word) (s : State) :
    (s.accept c).src = s.src := rfl
@[simp] theorem State.accept_dst (c : Word) (s : State) :
    (s.accept c).dst = s.dst := rfl
@[simp] theorem State.accept_inputs (c : Word) (s : State) :
    (s.accept c).inputs = s.inputs := rfl
@[simp] theorem State.accept_rdata (c : Word) (s : State) :
    (s.accept c).rdata = s.rdata := rfl
@[simp] theorem State.accept_free (c : Word) (s : State) :
    (s.accept c).free = s.free := rfl

/-! ## complete -/

@[simp] theorem State.complete_seq (s : State) :
    (s.complete).seq = .idle := rfl
@[simp] theorem State.complete_pending (s : State) :
    (s.complete).pending = s.pending := rfl
@[simp] theorem State.complete_resolved (s : State) :
    (s.complete).resolved = s.resolved := rfl
@[simp] theorem State.complete_done (s : State) :
    (s.complete).done = true := rfl
@[simp] theorem State.complete_err (s : State) :
    (s.complete).err = s.err := rfl
@[simp] theorem State.complete_errCode (s : State) :
    (s.complete).errCode = s.errCode := rfl
@[simp] theorem State.complete_ovr (s : State) :
    (s.complete).ovr = s.ovr := rfl
@[simp] theorem State.complete_width (s : State) :
    (s.complete).width = s.width := rfl
@[simp] theorem State.complete_height (s : State) :
    (s.complete).height = s.height := rfl
@[simp] theorem State.complete_tag0 (s : State) :
    (s.complete).tag0 = s.tag0 := rfl
@[simp] theorem State.complete_tag1 (s : State) :
    (s.complete).tag1 = s.tag1 := rfl
@[simp] theorem State.complete_tag2 (s : State) :
    (s.complete).tag2 = s.tag2 := rfl
@[simp] theorem State.complete_fmtIndex (s : State) :
    (s.complete).fmtIndex = s.fmtIndex := rfl
@[simp] theorem State.complete_descLo (s : State) :
    (s.complete).descLo = s.descLo := rfl
@[simp] theorem State.complete_descHi (s : State) :
    (s.complete).descHi = s.descHi := rfl
@[simp] theorem State.complete_payloadSize (s : State) :
    (s.complete).payloadSize = s.payloadSize := rfl
@[simp] theorem State.complete_srcBase (s : State) :
    (s.complete).srcBase = s.srcBase := rfl
@[simp] theorem State.complete_dstBase0 (s : State) :
    (s.complete).dstBase0 = s.dstBase0 := rfl
@[simp] theorem State.complete_dstBase1 (s : State) :
    (s.complete).dstBase1 = s.dstBase1 := rfl
@[simp] theorem State.complete_dstBase2 (s : State) :
    (s.complete).dstBase2 = s.dstBase2 := rfl
@[simp] theorem State.complete_dstStride0 (s : State) :
    (s.complete).dstStride0 = s.dstStride0 := rfl
@[simp] theorem State.complete_dstStride1 (s : State) :
    (s.complete).dstStride1 = s.dstStride1 := rfl
@[simp] theorem State.complete_dstStride2 (s : State) :
    (s.complete).dstStride2 = s.dstStride2 := rfl
@[simp] theorem State.complete_rom (s : State) :
    (s.complete).rom = s.rom := rfl
@[simp] theorem State.complete_maxDim (s : State) :
    (s.complete).maxDim = s.maxDim := rfl
@[simp] theorem State.complete_src (s : State) :
    (s.complete).src = s.src := rfl
@[simp] theorem State.complete_dst (s : State) :
    (s.complete).dst = s.dst := rfl
@[simp] theorem State.complete_inputs (s : State) :
    (s.complete).inputs = s.inputs := rfl
@[simp] theorem State.complete_rdata (s : State) :
    (s.complete).rdata = s.rdata := rfl
@[simp] theorem State.complete_free (s : State) :
    (s.complete).free = s.free := rfl

/-! ## setOvr -/

@[simp] theorem State.setOvr_seq (s : State) :
    (s.setOvr).seq = s.seq := rfl
@[simp] theorem State.setOvr_pending (s : State) :
    (s.setOvr).pending = s.pending := rfl
@[simp] theorem State.setOvr_resolved (s : State) :
    (s.setOvr).resolved = s.resolved := rfl
@[simp] theorem State.setOvr_done (s : State) :
    (s.setOvr).done = s.done := rfl
@[simp] theorem State.setOvr_err (s : State) :
    (s.setOvr).err = s.err := rfl
@[simp] theorem State.setOvr_errCode (s : State) :
    (s.setOvr).errCode = s.errCode := rfl
@[simp] theorem State.setOvr_ovr (s : State) :
    (s.setOvr).ovr = true := rfl
@[simp] theorem State.setOvr_width (s : State) :
    (s.setOvr).width = s.width := rfl
@[simp] theorem State.setOvr_height (s : State) :
    (s.setOvr).height = s.height := rfl
@[simp] theorem State.setOvr_tag0 (s : State) :
    (s.setOvr).tag0 = s.tag0 := rfl
@[simp] theorem State.setOvr_tag1 (s : State) :
    (s.setOvr).tag1 = s.tag1 := rfl
@[simp] theorem State.setOvr_tag2 (s : State) :
    (s.setOvr).tag2 = s.tag2 := rfl
@[simp] theorem State.setOvr_fmtIndex (s : State) :
    (s.setOvr).fmtIndex = s.fmtIndex := rfl
@[simp] theorem State.setOvr_descLo (s : State) :
    (s.setOvr).descLo = s.descLo := rfl
@[simp] theorem State.setOvr_descHi (s : State) :
    (s.setOvr).descHi = s.descHi := rfl
@[simp] theorem State.setOvr_payloadSize (s : State) :
    (s.setOvr).payloadSize = s.payloadSize := rfl
@[simp] theorem State.setOvr_srcBase (s : State) :
    (s.setOvr).srcBase = s.srcBase := rfl
@[simp] theorem State.setOvr_dstBase0 (s : State) :
    (s.setOvr).dstBase0 = s.dstBase0 := rfl
@[simp] theorem State.setOvr_dstBase1 (s : State) :
    (s.setOvr).dstBase1 = s.dstBase1 := rfl
@[simp] theorem State.setOvr_dstBase2 (s : State) :
    (s.setOvr).dstBase2 = s.dstBase2 := rfl
@[simp] theorem State.setOvr_dstStride0 (s : State) :
    (s.setOvr).dstStride0 = s.dstStride0 := rfl
@[simp] theorem State.setOvr_dstStride1 (s : State) :
    (s.setOvr).dstStride1 = s.dstStride1 := rfl
@[simp] theorem State.setOvr_dstStride2 (s : State) :
    (s.setOvr).dstStride2 = s.dstStride2 := rfl
@[simp] theorem State.setOvr_rom (s : State) :
    (s.setOvr).rom = s.rom := rfl
@[simp] theorem State.setOvr_maxDim (s : State) :
    (s.setOvr).maxDim = s.maxDim := rfl
@[simp] theorem State.setOvr_src (s : State) :
    (s.setOvr).src = s.src := rfl
@[simp] theorem State.setOvr_dst (s : State) :
    (s.setOvr).dst = s.dst := rfl
@[simp] theorem State.setOvr_inputs (s : State) :
    (s.setOvr).inputs = s.inputs := rfl
@[simp] theorem State.setOvr_rdata (s : State) :
    (s.setOvr).rdata = s.rdata := rfl
@[simp] theorem State.setOvr_free (s : State) :
    (s.setOvr).free = s.free := rfl

/-! ## clearResolution -/

@[simp] theorem State.clearResolution_seq (s : State) :
    (s.clearResolution).seq = s.seq := rfl
@[simp] theorem State.clearResolution_pending (s : State) :
    (s.clearResolution).pending = s.pending := rfl
@[simp] theorem State.clearResolution_resolved (s : State) :
    (s.clearResolution).resolved = false := rfl
@[simp] theorem State.clearResolution_done (s : State) :
    (s.clearResolution).done = s.done := rfl
@[simp] theorem State.clearResolution_err (s : State) :
    (s.clearResolution).err = s.err := rfl
@[simp] theorem State.clearResolution_errCode (s : State) :
    (s.clearResolution).errCode = s.errCode := rfl
@[simp] theorem State.clearResolution_ovr (s : State) :
    (s.clearResolution).ovr = s.ovr := rfl
@[simp] theorem State.clearResolution_width (s : State) :
    (s.clearResolution).width = s.width := rfl
@[simp] theorem State.clearResolution_height (s : State) :
    (s.clearResolution).height = s.height := rfl
@[simp] theorem State.clearResolution_tag0 (s : State) :
    (s.clearResolution).tag0 = s.tag0 := rfl
@[simp] theorem State.clearResolution_tag1 (s : State) :
    (s.clearResolution).tag1 = s.tag1 := rfl
@[simp] theorem State.clearResolution_tag2 (s : State) :
    (s.clearResolution).tag2 = s.tag2 := rfl
@[simp] theorem State.clearResolution_fmtIndex (s : State) :
    (s.clearResolution).fmtIndex = 0 := rfl
@[simp] theorem State.clearResolution_descLo (s : State) :
    (s.clearResolution).descLo = 0 := rfl
@[simp] theorem State.clearResolution_descHi (s : State) :
    (s.clearResolution).descHi = 0 := rfl
@[simp] theorem State.clearResolution_payloadSize (s : State) :
    (s.clearResolution).payloadSize = 0 := rfl
@[simp] theorem State.clearResolution_srcBase (s : State) :
    (s.clearResolution).srcBase = s.srcBase := rfl
@[simp] theorem State.clearResolution_dstBase0 (s : State) :
    (s.clearResolution).dstBase0 = s.dstBase0 := rfl
@[simp] theorem State.clearResolution_dstBase1 (s : State) :
    (s.clearResolution).dstBase1 = s.dstBase1 := rfl
@[simp] theorem State.clearResolution_dstBase2 (s : State) :
    (s.clearResolution).dstBase2 = s.dstBase2 := rfl
@[simp] theorem State.clearResolution_dstStride0 (s : State) :
    (s.clearResolution).dstStride0 = s.dstStride0 := rfl
@[simp] theorem State.clearResolution_dstStride1 (s : State) :
    (s.clearResolution).dstStride1 = s.dstStride1 := rfl
@[simp] theorem State.clearResolution_dstStride2 (s : State) :
    (s.clearResolution).dstStride2 = s.dstStride2 := rfl
@[simp] theorem State.clearResolution_rom (s : State) :
    (s.clearResolution).rom = s.rom := rfl
@[simp] theorem State.clearResolution_maxDim (s : State) :
    (s.clearResolution).maxDim = s.maxDim := rfl
@[simp] theorem State.clearResolution_src (s : State) :
    (s.clearResolution).src = s.src := rfl
@[simp] theorem State.clearResolution_dst (s : State) :
    (s.clearResolution).dst = s.dst := rfl
@[simp] theorem State.clearResolution_inputs (s : State) :
    (s.clearResolution).inputs = s.inputs := rfl
@[simp] theorem State.clearResolution_rdata (s : State) :
    (s.clearResolution).rdata = s.rdata := rfl
@[simp] theorem State.clearResolution_free (s : State) :
    (s.clearResolution).free = s.free := rfl

/-! ## raiseErr -/

@[simp] theorem State.raiseErr_seq (c : ErrCode) (s : State) :
    (s.raiseErr c).seq = .idle := rfl
@[simp] theorem State.raiseErr_pending (c : ErrCode) (s : State) :
    (s.raiseErr c).pending = s.pending := rfl
@[simp] theorem State.raiseErr_resolved (c : ErrCode) (s : State) :
    (s.raiseErr c).resolved = s.resolved := rfl
@[simp] theorem State.raiseErr_done (c : ErrCode) (s : State) :
    (s.raiseErr c).done = false := rfl
@[simp] theorem State.raiseErr_err (c : ErrCode) (s : State) :
    (s.raiseErr c).err = true := rfl
@[simp] theorem State.raiseErr_errCode (c : ErrCode) (s : State) :
    (s.raiseErr c).errCode = c.code := rfl
@[simp] theorem State.raiseErr_ovr (c : ErrCode) (s : State) :
    (s.raiseErr c).ovr = s.ovr := rfl
@[simp] theorem State.raiseErr_width (c : ErrCode) (s : State) :
    (s.raiseErr c).width = s.width := rfl
@[simp] theorem State.raiseErr_height (c : ErrCode) (s : State) :
    (s.raiseErr c).height = s.height := rfl
@[simp] theorem State.raiseErr_tag0 (c : ErrCode) (s : State) :
    (s.raiseErr c).tag0 = s.tag0 := rfl
@[simp] theorem State.raiseErr_tag1 (c : ErrCode) (s : State) :
    (s.raiseErr c).tag1 = s.tag1 := rfl
@[simp] theorem State.raiseErr_tag2 (c : ErrCode) (s : State) :
    (s.raiseErr c).tag2 = s.tag2 := rfl
@[simp] theorem State.raiseErr_fmtIndex (c : ErrCode) (s : State) :
    (s.raiseErr c).fmtIndex = s.fmtIndex := rfl
@[simp] theorem State.raiseErr_descLo (c : ErrCode) (s : State) :
    (s.raiseErr c).descLo = s.descLo := rfl
@[simp] theorem State.raiseErr_descHi (c : ErrCode) (s : State) :
    (s.raiseErr c).descHi = s.descHi := rfl
@[simp] theorem State.raiseErr_payloadSize (c : ErrCode) (s : State) :
    (s.raiseErr c).payloadSize = s.payloadSize := rfl
@[simp] theorem State.raiseErr_srcBase (c : ErrCode) (s : State) :
    (s.raiseErr c).srcBase = s.srcBase := rfl
@[simp] theorem State.raiseErr_dstBase0 (c : ErrCode) (s : State) :
    (s.raiseErr c).dstBase0 = s.dstBase0 := rfl
@[simp] theorem State.raiseErr_dstBase1 (c : ErrCode) (s : State) :
    (s.raiseErr c).dstBase1 = s.dstBase1 := rfl
@[simp] theorem State.raiseErr_dstBase2 (c : ErrCode) (s : State) :
    (s.raiseErr c).dstBase2 = s.dstBase2 := rfl
@[simp] theorem State.raiseErr_dstStride0 (c : ErrCode) (s : State) :
    (s.raiseErr c).dstStride0 = s.dstStride0 := rfl
@[simp] theorem State.raiseErr_dstStride1 (c : ErrCode) (s : State) :
    (s.raiseErr c).dstStride1 = s.dstStride1 := rfl
@[simp] theorem State.raiseErr_dstStride2 (c : ErrCode) (s : State) :
    (s.raiseErr c).dstStride2 = s.dstStride2 := rfl
@[simp] theorem State.raiseErr_rom (c : ErrCode) (s : State) :
    (s.raiseErr c).rom = s.rom := rfl
@[simp] theorem State.raiseErr_maxDim (c : ErrCode) (s : State) :
    (s.raiseErr c).maxDim = s.maxDim := rfl
@[simp] theorem State.raiseErr_src (c : ErrCode) (s : State) :
    (s.raiseErr c).src = s.src := rfl
@[simp] theorem State.raiseErr_dst (c : ErrCode) (s : State) :
    (s.raiseErr c).dst = s.dst := rfl
@[simp] theorem State.raiseErr_inputs (c : ErrCode) (s : State) :
    (s.raiseErr c).inputs = s.inputs := rfl
@[simp] theorem State.raiseErr_rdata (c : ErrCode) (s : State) :
    (s.raiseErr c).rdata = s.rdata := rfl
@[simp] theorem State.raiseErr_free (c : ErrCode) (s : State) :
    (s.raiseErr c).free = s.free := rfl

/-! ## raiseResolveErr -/

@[simp] theorem State.raiseResolveErr_seq (c : ErrCode) (s : State) :
    (s.raiseResolveErr c).seq = .idle := rfl
@[simp] theorem State.raiseResolveErr_pending (c : ErrCode) (s : State) :
    (s.raiseResolveErr c).pending = s.pending := rfl
@[simp] theorem State.raiseResolveErr_resolved (c : ErrCode) (s : State) :
    (s.raiseResolveErr c).resolved = false := rfl
@[simp] theorem State.raiseResolveErr_done (c : ErrCode) (s : State) :
    (s.raiseResolveErr c).done = false := rfl
@[simp] theorem State.raiseResolveErr_err (c : ErrCode) (s : State) :
    (s.raiseResolveErr c).err = true := rfl
@[simp] theorem State.raiseResolveErr_errCode (c : ErrCode) (s : State) :
    (s.raiseResolveErr c).errCode = c.code := rfl
@[simp] theorem State.raiseResolveErr_ovr (c : ErrCode) (s : State) :
    (s.raiseResolveErr c).ovr = s.ovr := rfl
@[simp] theorem State.raiseResolveErr_width (c : ErrCode) (s : State) :
    (s.raiseResolveErr c).width = s.width := rfl
@[simp] theorem State.raiseResolveErr_height (c : ErrCode) (s : State) :
    (s.raiseResolveErr c).height = s.height := rfl
@[simp] theorem State.raiseResolveErr_tag0 (c : ErrCode) (s : State) :
    (s.raiseResolveErr c).tag0 = s.tag0 := rfl
@[simp] theorem State.raiseResolveErr_tag1 (c : ErrCode) (s : State) :
    (s.raiseResolveErr c).tag1 = s.tag1 := rfl
@[simp] theorem State.raiseResolveErr_tag2 (c : ErrCode) (s : State) :
    (s.raiseResolveErr c).tag2 = s.tag2 := rfl
@[simp] theorem State.raiseResolveErr_fmtIndex (c : ErrCode) (s : State) :
    (s.raiseResolveErr c).fmtIndex = 0 := rfl
@[simp] theorem State.raiseResolveErr_descLo (c : ErrCode) (s : State) :
    (s.raiseResolveErr c).descLo = 0 := rfl
@[simp] theorem State.raiseResolveErr_descHi (c : ErrCode) (s : State) :
    (s.raiseResolveErr c).descHi = 0 := rfl
@[simp] theorem State.raiseResolveErr_payloadSize (c : ErrCode) (s : State) :
    (s.raiseResolveErr c).payloadSize = 0 := rfl
@[simp] theorem State.raiseResolveErr_srcBase (c : ErrCode) (s : State) :
    (s.raiseResolveErr c).srcBase = s.srcBase := rfl
@[simp] theorem State.raiseResolveErr_dstBase0 (c : ErrCode) (s : State) :
    (s.raiseResolveErr c).dstBase0 = s.dstBase0 := rfl
@[simp] theorem State.raiseResolveErr_dstBase1 (c : ErrCode) (s : State) :
    (s.raiseResolveErr c).dstBase1 = s.dstBase1 := rfl
@[simp] theorem State.raiseResolveErr_dstBase2 (c : ErrCode) (s : State) :
    (s.raiseResolveErr c).dstBase2 = s.dstBase2 := rfl
@[simp] theorem State.raiseResolveErr_dstStride0 (c : ErrCode) (s : State) :
    (s.raiseResolveErr c).dstStride0 = s.dstStride0 := rfl
@[simp] theorem State.raiseResolveErr_dstStride1 (c : ErrCode) (s : State) :
    (s.raiseResolveErr c).dstStride1 = s.dstStride1 := rfl
@[simp] theorem State.raiseResolveErr_dstStride2 (c : ErrCode) (s : State) :
    (s.raiseResolveErr c).dstStride2 = s.dstStride2 := rfl
@[simp] theorem State.raiseResolveErr_rom (c : ErrCode) (s : State) :
    (s.raiseResolveErr c).rom = s.rom := rfl
@[simp] theorem State.raiseResolveErr_maxDim (c : ErrCode) (s : State) :
    (s.raiseResolveErr c).maxDim = s.maxDim := rfl
@[simp] theorem State.raiseResolveErr_src (c : ErrCode) (s : State) :
    (s.raiseResolveErr c).src = s.src := rfl
@[simp] theorem State.raiseResolveErr_dst (c : ErrCode) (s : State) :
    (s.raiseResolveErr c).dst = s.dst := rfl
@[simp] theorem State.raiseResolveErr_inputs (c : ErrCode) (s : State) :
    (s.raiseResolveErr c).inputs = s.inputs := rfl
@[simp] theorem State.raiseResolveErr_rdata (c : ErrCode) (s : State) :
    (s.raiseResolveErr c).rdata = s.rdata := rfl
@[simp] theorem State.raiseResolveErr_free (c : ErrCode) (s : State) :
    (s.raiseResolveErr c).free = s.free := rfl

/-! ## setResolution -/

@[simp] theorem State.setResolution_seq (s : State) (i : Nat) (e : RomEntry) :
    (s.setResolution i e).seq = s.seq := rfl
@[simp] theorem State.setResolution_pending (s : State) (i : Nat) (e : RomEntry) :
    (s.setResolution i e).pending = s.pending := rfl
@[simp] theorem State.setResolution_resolved (s : State) (i : Nat) (e : RomEntry) :
    (s.setResolution i e).resolved = true := rfl
@[simp] theorem State.setResolution_done (s : State) (i : Nat) (e : RomEntry) :
    (s.setResolution i e).done = s.done := rfl
@[simp] theorem State.setResolution_err (s : State) (i : Nat) (e : RomEntry) :
    (s.setResolution i e).err = s.err := rfl
@[simp] theorem State.setResolution_errCode (s : State) (i : Nat) (e : RomEntry) :
    (s.setResolution i e).errCode = s.errCode := rfl
@[simp] theorem State.setResolution_ovr (s : State) (i : Nat) (e : RomEntry) :
    (s.setResolution i e).ovr = s.ovr := rfl
@[simp] theorem State.setResolution_width (s : State) (i : Nat) (e : RomEntry) :
    (s.setResolution i e).width = s.width := rfl
@[simp] theorem State.setResolution_height (s : State) (i : Nat) (e : RomEntry) :
    (s.setResolution i e).height = s.height := rfl
@[simp] theorem State.setResolution_tag0 (s : State) (i : Nat) (e : RomEntry) :
    (s.setResolution i e).tag0 = s.tag0 := rfl
@[simp] theorem State.setResolution_tag1 (s : State) (i : Nat) (e : RomEntry) :
    (s.setResolution i e).tag1 = s.tag1 := rfl
@[simp] theorem State.setResolution_tag2 (s : State) (i : Nat) (e : RomEntry) :
    (s.setResolution i e).tag2 = s.tag2 := rfl
@[simp] theorem State.setResolution_fmtIndex (s : State) (i : Nat) (e : RomEntry) :
    (s.setResolution i e).fmtIndex = BitVec.ofNat 8 i := rfl
@[simp] theorem State.setResolution_descLo (s : State) (i : Nat) (e : RomEntry) :
    (s.setResolution i e).descLo = e.descWord.extractLsb' 0 32 := rfl
@[simp] theorem State.setResolution_descHi (s : State) (i : Nat) (e : RomEntry) :
    (s.setResolution i e).descHi = e.descWord.extractLsb' 32 32 := rfl
@[simp] theorem State.setResolution_payloadSize (s : State) (i : Nat) (e : RomEntry) :
    (s.setResolution i e).payloadSize = BitVec.ofNat 32 (payloadBytes e.desc s.W s.H) := rfl
@[simp] theorem State.setResolution_srcBase (s : State) (i : Nat) (e : RomEntry) :
    (s.setResolution i e).srcBase = s.srcBase := rfl
@[simp] theorem State.setResolution_dstBase0 (s : State) (i : Nat) (e : RomEntry) :
    (s.setResolution i e).dstBase0 = s.dstBase0 := rfl
@[simp] theorem State.setResolution_dstBase1 (s : State) (i : Nat) (e : RomEntry) :
    (s.setResolution i e).dstBase1 = s.dstBase1 := rfl
@[simp] theorem State.setResolution_dstBase2 (s : State) (i : Nat) (e : RomEntry) :
    (s.setResolution i e).dstBase2 = s.dstBase2 := rfl
@[simp] theorem State.setResolution_dstStride0 (s : State) (i : Nat) (e : RomEntry) :
    (s.setResolution i e).dstStride0 = s.dstStride0 := rfl
@[simp] theorem State.setResolution_dstStride1 (s : State) (i : Nat) (e : RomEntry) :
    (s.setResolution i e).dstStride1 = s.dstStride1 := rfl
@[simp] theorem State.setResolution_dstStride2 (s : State) (i : Nat) (e : RomEntry) :
    (s.setResolution i e).dstStride2 = s.dstStride2 := rfl
@[simp] theorem State.setResolution_rom (s : State) (i : Nat) (e : RomEntry) :
    (s.setResolution i e).rom = s.rom := rfl
@[simp] theorem State.setResolution_maxDim (s : State) (i : Nat) (e : RomEntry) :
    (s.setResolution i e).maxDim = s.maxDim := rfl
@[simp] theorem State.setResolution_src (s : State) (i : Nat) (e : RomEntry) :
    (s.setResolution i e).src = s.src := rfl
@[simp] theorem State.setResolution_dst (s : State) (i : Nat) (e : RomEntry) :
    (s.setResolution i e).dst = s.dst := rfl
@[simp] theorem State.setResolution_inputs (s : State) (i : Nat) (e : RomEntry) :
    (s.setResolution i e).inputs = s.inputs := rfl
@[simp] theorem State.setResolution_rdata (s : State) (i : Nat) (e : RomEntry) :
    (s.setResolution i e).rdata = s.rdata := rfl
@[simp] theorem State.setResolution_free (s : State) (i : Nat) (e : RomEntry) :
    (s.setResolution i e).free = s.free := rfl

/-! ## clearRegisters -/

@[simp] theorem State.clearRegisters_seq (s : State) :
    (s.clearRegisters).seq = .idle := rfl
@[simp] theorem State.clearRegisters_pending (s : State) :
    (s.clearRegisters).pending = Config.freeWord s.free := rfl
@[simp] theorem State.clearRegisters_resolved (s : State) :
    (s.clearRegisters).resolved = false := rfl
@[simp] theorem State.clearRegisters_done (s : State) :
    (s.clearRegisters).done = false := rfl
@[simp] theorem State.clearRegisters_err (s : State) :
    (s.clearRegisters).err = false := rfl
@[simp] theorem State.clearRegisters_errCode (s : State) :
    (s.clearRegisters).errCode = 0 := rfl
@[simp] theorem State.clearRegisters_ovr (s : State) :
    (s.clearRegisters).ovr = false := rfl
@[simp] theorem State.clearRegisters_width (s : State) :
    (s.clearRegisters).width = 0 := rfl
@[simp] theorem State.clearRegisters_height (s : State) :
    (s.clearRegisters).height = 0 := rfl
@[simp] theorem State.clearRegisters_tag0 (s : State) :
    (s.clearRegisters).tag0 = 0 := rfl
@[simp] theorem State.clearRegisters_tag1 (s : State) :
    (s.clearRegisters).tag1 = 0 := rfl
@[simp] theorem State.clearRegisters_tag2 (s : State) :
    (s.clearRegisters).tag2 = 0 := rfl
@[simp] theorem State.clearRegisters_fmtIndex (s : State) :
    (s.clearRegisters).fmtIndex = 0 := rfl
@[simp] theorem State.clearRegisters_descLo (s : State) :
    (s.clearRegisters).descLo = 0 := rfl
@[simp] theorem State.clearRegisters_descHi (s : State) :
    (s.clearRegisters).descHi = 0 := rfl
@[simp] theorem State.clearRegisters_payloadSize (s : State) :
    (s.clearRegisters).payloadSize = 0 := rfl
@[simp] theorem State.clearRegisters_srcBase (s : State) :
    (s.clearRegisters).srcBase = 0 := rfl
@[simp] theorem State.clearRegisters_dstBase0 (s : State) :
    (s.clearRegisters).dstBase0 = 0 := rfl
@[simp] theorem State.clearRegisters_dstBase1 (s : State) :
    (s.clearRegisters).dstBase1 = 0 := rfl
@[simp] theorem State.clearRegisters_dstBase2 (s : State) :
    (s.clearRegisters).dstBase2 = 0 := rfl
@[simp] theorem State.clearRegisters_dstStride0 (s : State) :
    (s.clearRegisters).dstStride0 = 0 := rfl
@[simp] theorem State.clearRegisters_dstStride1 (s : State) :
    (s.clearRegisters).dstStride1 = 0 := rfl
@[simp] theorem State.clearRegisters_dstStride2 (s : State) :
    (s.clearRegisters).dstStride2 = 0 := rfl
@[simp] theorem State.clearRegisters_rom (s : State) :
    (s.clearRegisters).rom = s.rom := rfl
@[simp] theorem State.clearRegisters_maxDim (s : State) :
    (s.clearRegisters).maxDim = s.maxDim := rfl
@[simp] theorem State.clearRegisters_src (s : State) :
    (s.clearRegisters).src = s.src := rfl
@[simp] theorem State.clearRegisters_dst (s : State) :
    (s.clearRegisters).dst = s.dst := rfl
@[simp] theorem State.clearRegisters_inputs (s : State) :
    (s.clearRegisters).inputs = s.inputs := rfl
@[simp] theorem State.clearRegisters_rdata (s : State) :
    (s.clearRegisters).rdata = s.rdata := rfl
@[simp] theorem State.clearRegisters_free (s : State) :
    (s.clearRegisters).free = s.free + 1 := rfl

/-! ## The read-outs an update does not touch -/

@[simp] theorem State.accept_W (c : Word) (s : State) :
    (s.accept c).W = s.W := rfl
@[simp] theorem State.accept_H (c : Word) (s : State) :
    (s.accept c).H = s.H := rfl
@[simp] theorem State.accept_desc (c : Word) (s : State) :
    (s.accept c).desc = s.desc := rfl
@[simp] theorem State.accept_tagKey (c : Word) (s : State) :
    (s.accept c).tagKey = s.tagKey := rfl
@[simp] theorem State.complete_W (s : State) :
    (s.complete).W = s.W := rfl
@[simp] theorem State.complete_H (s : State) :
    (s.complete).H = s.H := rfl
@[simp] theorem State.complete_desc (s : State) :
    (s.complete).desc = s.desc := rfl
@[simp] theorem State.complete_tagKey (s : State) :
    (s.complete).tagKey = s.tagKey := rfl
@[simp] theorem State.setOvr_W (s : State) :
    (s.setOvr).W = s.W := rfl
@[simp] theorem State.setOvr_H (s : State) :
    (s.setOvr).H = s.H := rfl
@[simp] theorem State.setOvr_desc (s : State) :
    (s.setOvr).desc = s.desc := rfl
@[simp] theorem State.setOvr_tagKey (s : State) :
    (s.setOvr).tagKey = s.tagKey := rfl
@[simp] theorem State.clearResolution_W (s : State) :
    (s.clearResolution).W = s.W := rfl
@[simp] theorem State.clearResolution_H (s : State) :
    (s.clearResolution).H = s.H := rfl
@[simp] theorem State.clearResolution_tagKey (s : State) :
    (s.clearResolution).tagKey = s.tagKey := rfl
@[simp] theorem State.raiseErr_W (c : ErrCode) (s : State) :
    (s.raiseErr c).W = s.W := rfl
@[simp] theorem State.raiseErr_H (c : ErrCode) (s : State) :
    (s.raiseErr c).H = s.H := rfl
@[simp] theorem State.raiseErr_desc (c : ErrCode) (s : State) :
    (s.raiseErr c).desc = s.desc := rfl
@[simp] theorem State.raiseErr_tagKey (c : ErrCode) (s : State) :
    (s.raiseErr c).tagKey = s.tagKey := rfl
@[simp] theorem State.raiseResolveErr_W (c : ErrCode) (s : State) :
    (s.raiseResolveErr c).W = s.W := rfl
@[simp] theorem State.raiseResolveErr_H (c : ErrCode) (s : State) :
    (s.raiseResolveErr c).H = s.H := rfl
@[simp] theorem State.raiseResolveErr_tagKey (c : ErrCode) (s : State) :
    (s.raiseResolveErr c).tagKey = s.tagKey := rfl
@[simp] theorem State.setResolution_W (s : State) (i : Nat) (e : RomEntry) :
    (s.setResolution i e).W = s.W := rfl
@[simp] theorem State.setResolution_H (s : State) (i : Nat) (e : RomEntry) :
    (s.setResolution i e).H = s.H := rfl
@[simp] theorem State.setResolution_tagKey (s : State) (i : Nat) (e : RomEntry) :
    (s.setResolution i e).tagKey = s.tagKey := rfl

/-! ## The word slices of a descriptor -/

/-- The two DESC registers of a resolution hold the entry's descriptor word. -/
@[simp] theorem State.setResolution_descWord (s : State) (i : Nat) (e : RomEntry) :
    (s.setResolution i e).descWord = e.descWord := by
  simp only [State.descWord, State.setResolution_descHi, State.setResolution_descLo]
  ext j hj
  simp only [BitVec.getElem_append, BitVec.getElem_extractLsb']
  split_ifs with h
  · simp [BitVec.getLsbD_eq_getElem hj]
  · have : 32 + (j - 32) = j := by omega
    simp [this, BitVec.getLsbD_eq_getElem hj]

@[simp] theorem State.setResolution_desc (s : State) (i : Nat) (e : RomEntry) :
    (s.setResolution i e).desc = e.desc := by
  simp [State.desc, RomEntry.desc]

end Sys2Proof.Machine
end

