-- ==== Sys2Proof/Laws/Moves.lean ====
section
/-! SUPPORT. What carrying out the moves of a body does: only DST and the counter of free values change,
an address no move stores to keeps its byte, and an address whose moves all copy one source byte ends
with that byte. -/

namespace Sys2Proof.Machine

/-- A move changes only DST and the counter. -/
theorem State.applyMove_frame (s : State) (m : Move) :
    s.applyMove m = { s with dst := (s.applyMove m).dst, free := (s.applyMove m).free } := by
  unfold State.applyMove
  split <;> rfl

/-- A body changes only DST and the counter. -/
theorem State.runMoves_frame (s : State) (ms : List Move) :
    s.runMoves ms = { s with dst := (s.runMoves ms).dst, free := (s.runMoves ms).free } := by
  induction ms generalizing s with
  | nil => rfl
  | cons m ms ih =>
    rw [State.runMoves, ih, State.applyMove_frame]

/-- A body cut short changes only DST and the counter. -/
theorem State.cutMoves_frame (s : State) (ms : List Move) :
    s.cutMoves ms = { s with dst := (s.cutMoves ms).dst, free := (s.cutMoves ms).free } := by
  induction ms generalizing s with
  | nil => rfl
  | cons m ms ih =>
    rw [State.cutMoves, ih]
    split
    · rw [State.applyMove_frame]
    · rfl

/-- The destination address of a move does not depend on DST or the counter. -/
theorem State.moveAddr_congr (s : State) (dst : Mem) (n : Nat) (m : Move) :
    ({ s with dst := dst, free := n } : State).moveAddr m = s.moveAddr m := by
  unfold State.moveAddr State.dstAddr State.dstBase State.dstStride
  cases m.plane <;> rfl

theorem State.applyMove_moveAddr (s : State) (m m' : Move) :
    (s.applyMove m).moveAddr m' = s.moveAddr m' := by
  rw [State.applyMove_frame, State.moveAddr_congr]

theorem State.applyMove_srcByte (s : State) (m : Move) (i : Nat) :
    (s.applyMove m).srcByte i = s.srcByte i := by
  rw [State.applyMove_frame]
  rfl

/-- The byte at `a` after one move. -/
theorem State.applyMove_read (s : State) (m : Move) (a : Nat) :
    Mem.read (s.applyMove m).dst a =
      if a = s.moveAddr m then
        (match m.src with
          | some i => s.srcByte i
          | none => Config.freeByte s.free)
      else Mem.read s.dst a := by
  unfold State.applyMove
  split <;> rename_i h <;> simp [Mem.read_write, h]

/-- An address no move stores to keeps its byte. -/
theorem State.runMoves_read_untouched (s : State) (ms : List Move) (a : Nat)
    (h : ∀ m ∈ ms, a ≠ s.moveAddr m) : Mem.read (s.runMoves ms).dst a = Mem.read s.dst a := by
  induction ms generalizing s with
  | nil => rfl
  | cons m ms ih =>
    rw [State.runMoves, ih, State.applyMove_read, if_neg (h m (by simp))]
    intro m' hm'
    rw [State.applyMove_moveAddr]
    exact h m' (by simp [hm'])

/-- An address whose byte is settled stays so under moves that copy the same source byte to it. -/
theorem State.runMoves_read_stable (s : State) (ms : List Move) (a i : Nat)
    (hd : Mem.read s.dst a = s.srcByte i)
    (h : ∀ m ∈ ms, s.moveAddr m = a → m.src = some i) :
    Mem.read (s.runMoves ms).dst a = s.srcByte i := by
  induction ms generalizing s with
  | nil => exact hd
  | cons m ms ih =>
    rw [State.runMoves, ih, State.applyMove_srcByte]
    · rw [State.applyMove_srcByte, State.applyMove_read]
      split_ifs with ha
      · rw [h m (by simp) ha.symm]
      · exact hd
    · intro m' hm'
      rw [State.applyMove_moveAddr]
      exact h m' (by simp [hm'])

/-- An address that some move stores to, and whose moves all copy source byte `i`, ends with that
byte. -/
theorem State.runMoves_read_of_agree (s : State) (ms : List Move) (a i : Nat)
    (hex : ∃ m ∈ ms, s.moveAddr m = a) (h : ∀ m ∈ ms, s.moveAddr m = a → m.src = some i) :
    Mem.read (s.runMoves ms).dst a = s.srcByte i := by
  induction ms generalizing s with
  | nil => obtain ⟨m, hm, _⟩ := hex; cases hm
  | cons m ms ih =>
    rw [State.runMoves]
    have h' : ∀ m' ∈ ms, (s.applyMove m).moveAddr m' = a → m'.src = some i := by
      intro m' hm'
      rw [State.applyMove_moveAddr]
      exact h m' (by simp [hm'])
    by_cases ha : s.moveAddr m = a
    · rw [State.runMoves_read_stable _ _ a i _ h', State.applyMove_srcByte]
      rw [State.applyMove_srcByte, State.applyMove_read, if_pos ha.symm, h m (by simp) ha]
    · rw [ih, State.applyMove_srcByte]
      · obtain ⟨m', hm', hm''⟩ := hex
        rcases List.mem_cons.1 hm' with rfl | hm'
        · exact absurd hm'' ha
        · exact ⟨m', hm', by rw [State.applyMove_moveAddr]; exact hm''⟩
      · exact h'

/-- Where a body cut short leaves `a`: as it was where no move stores to it. -/
theorem State.cutMoves_read_untouched (s : State) (ms : List Move) (a : Nat)
    (h : ∀ m ∈ ms, a ≠ s.moveAddr m) : Mem.read (s.cutMoves ms).dst a = Mem.read s.dst a := by
  induction ms generalizing s with
  | nil => rfl
  | cons m ms ih =>
    rw [State.cutMoves]
    split
    · rw [ih]
      · have := State.moveAddr_congr s s.dst (s.free + 1) m
        rw [State.applyMove_read, if_neg]
        rw [this]
        exact h m (by simp)
      · intro m' hm'
        rw [State.applyMove_moveAddr]
        have := State.moveAddr_congr s s.dst (s.free + 1) m'
        rw [this]
        exact h m' (by simp [hm'])
    · rw [ih]
      intro m' hm'
      have := State.moveAddr_congr s s.dst (s.free + 1) m'
      rw [this]
      exact h m' (by simp [hm'])

/-- A body whose moves all store below 2^32 keeps DST in canonical form. -/
theorem State.runMoves_dst_wf (s : State) (ms : List Move) (h : ∀ m ∈ ms, s.moveAddr m < spaceSize)
    (hw : Mem.wf s.dst = true) : Mem.wf (s.runMoves ms).dst = true := by
  induction ms generalizing s with
  | nil => exact hw
  | cons m ms ih =>
    rw [State.runMoves]
    apply ih
    · intro m' hm'
      rw [State.applyMove_moveAddr]
      exact h m' (by simp [hm'])
    · unfold State.applyMove
      split <;> exact Mem.wf_write _ _ _ (h m (by simp)) hw

/-- The same of a body cut short. -/
theorem State.cutMoves_dst_wf (s : State) (ms : List Move) (h : ∀ m ∈ ms, s.moveAddr m < spaceSize)
    (hw : Mem.wf s.dst = true) : Mem.wf (s.cutMoves ms).dst = true := by
  induction ms generalizing s with
  | nil => exact hw
  | cons m ms ih =>
    have hc := fun m' => State.moveAddr_congr s s.dst (s.free + 1) m'
    rw [State.cutMoves]
    apply ih
    · intro m' hm'
      split
      · rw [State.applyMove_moveAddr, hc]
        exact h m' (by simp [hm'])
      · rw [hc]
        exact h m' (by simp [hm'])
    · split
      · unfold State.applyMove
        split <;> exact Mem.wf_write _ _ _ (by rw [hc]; exact h m (by simp)) hw
      · exact hw

end Sys2Proof.Machine
end

