-- ==== Sys2Proof/Laws/Windows.lean ====
section
/-! SUPPORT. The DECODE front-end and the geometry of the windows: what `decodeWith` can answer, and
that within checked windows two positions of used planes never share an address. -/

namespace Sys2Proof.Machine

theorem le_ceil4 (n : Nat) : n ≤ ceil4 n := by unfold ceil4; omega

theorem ceil4_mod (n : Nat) : ceil4 n % 4 = 0 := by unfold ceil4; omega

/-- The least multiple of 4 that covers `n`. -/
theorem ceil4_le {n m : Nat} (h : n ≤ m) (h4 : m % 4 = 0) : ceil4 n ≤ m := by unfold ceil4; omega

theorem ceil4_lt (n : Nat) : ceil4 n < n + 4 := by unfold ceil4; omega

/-- What the tests after SEQUENCE mean when none fails. -/
theorem State.windowError_eq_none {s : State} {d : Descriptor} :
    s.windowError d = none ↔
      (∀ p ∈ usedPlanes d, s.dstConfigOk d p = true) ∧ s.srcRangeOk = true ∧
      (∀ p ∈ usedPlanes d, s.dstRangeOk d p = true) := by
  unfold State.windowError
  by_cases h1 : (usedPlanes d).all (s.dstConfigOk d) = true
  · by_cases h2 : s.srcRangeOk = true
    · by_cases h3 : (usedPlanes d).all (s.dstRangeOk d) = true
      · simp only [h1, h2, h3]
        simpa using ⟨List.all_eq_true.1 h1, List.all_eq_true.1 h3⟩
      · simp only [h1, h2, h3]
        simp only [List.all_eq_true] at h3
        simp [h3]
    · simp [h1, h2]
  · simp only [h1]
    simp only [List.all_eq_true] at h1
    simp [h1]

theorem State.dstConfigOk_iff {s : State} {d : Descriptor} {p : Plane} :
    s.dstConfigOk d p = true ↔
      s.dstBase p % 4 = 0 ∧ s.dstStride p % 4 = 0 ∧ rowBytes d s.W p ≤ s.dstStride p := by
  simp [State.dstConfigOk, and_assoc]

theorem State.footprintsDisjoint_iff {s : State} {d : Descriptor} :
    s.footprintsDisjoint d = true ↔
      ∀ p ∈ usedPlanes d, ∀ q ∈ usedPlanes d, p ≠ q →
        s.footprintEnd d p ≤ s.dstBase q ∨ s.footprintEnd d q ≤ s.dstBase p := by
  simp only [State.footprintsDisjoint, State.footprintsApart, List.all_eq_true, Bool.or_eq_true,
    beq_iff_eq, decide_eq_true_eq]
  constructor
  · intro h p hp q hq hne
    rcases h p hp q hq with h | h
    · exact absurd h hne
    · exact h
  · intro h p hp q hq
    by_cases hpq : p = q
    · exact .inl hpq
    · exact .inr (h p hp q hq hpq)

theorem State.srcRangeOk_iff {s : State} :
    s.srcRangeOk = true ↔ s.srcBase.toNat + s.payloadSize.toNat ≤ 2 ^ 32 :=
  decide_eq_true_iff

theorem State.dstRangeOk_iff {s : State} {d : Descriptor} {p : Plane} :
    s.dstRangeOk d p = true ↔
      s.dstBase p + (planeHeight d s.H p - 1) * s.dstStride p + ceil4 (rowBytes d s.W p) ≤ 2 ^ 32 :=
  decide_eq_true_iff

/-- What the tests after SEQUENCE report, in the spec's own terms and order (R156, R157, R227). -/
theorem State.windowError_eq (s : State) (d : Descriptor) :
    s.windowError d =
      if ∃ p ∈ usedPlanes d, s.dstBase p % 4 ≠ 0 ∨ s.dstStride p % 4 ≠ 0 ∨
          s.dstStride p < rowBytes d s.W p then some .dstConfig
      else if 2 ^ 32 < s.srcBase.toNat + s.payloadSize.toNat ∨
          ∃ p ∈ usedPlanes d, 2 ^ 32 < s.dstBase p + (planeHeight d s.H p - 1) * s.dstStride p +
            ceil4 (rowBytes d s.W p) then some .range
      else none := by
  have config : (∃ p ∈ usedPlanes d, s.dstBase p % 4 ≠ 0 ∨ s.dstStride p % 4 ≠ 0 ∨
      s.dstStride p < rowBytes d s.W p) ↔ (usedPlanes d).all (s.dstConfigOk d) = false := by
    simp only [List.all_eq_false, State.dstConfigOk_iff, not_and_or, not_le]
  have range : (∃ p ∈ usedPlanes d, 2 ^ 32 < s.dstBase p + (planeHeight d s.H p - 1) * s.dstStride p +
      ceil4 (rowBytes d s.W p)) ↔ (usedPlanes d).all (s.dstRangeOk d) = false := by
    simp only [List.all_eq_false, State.dstRangeOk_iff, not_le]
  have source : 2 ^ 32 < s.srcBase.toNat + s.payloadSize.toNat ↔ s.srcRangeOk = false := by
    rw [← Bool.not_eq_true, State.srcRangeOk_iff, not_le]
  unfold State.windowError
  simp only [config, range, source]
  cases (usedPlanes d).all (s.dstConfigOk d) <;> cases s.srcRangeOk <;>
    cases (usedPlanes d).all (s.dstRangeOk d) <;> rfl

/-- The windows are as the rules ask exactly when no test fails and the footprints are disjoint. -/
theorem State.windowsOk_iff {s : State} {d : Descriptor} :
    s.WindowsOk d ↔ s.windowError d = none ∧ s.footprintsDisjoint d = true := by
  rw [State.windowError_eq_none, State.footprintsDisjoint_iff]
  simp only [State.dstConfigOk_iff, State.srcRangeOk_iff, State.dstRangeOk_iff]
  constructor
  · intro h
    exact ⟨⟨fun p hp => ⟨h.base_aligned p hp, h.stride_aligned p hp, h.stride_covers p hp⟩,
      h.src_range, h.dst_range⟩, h.apart⟩
  · rintro ⟨⟨h1, h2, h3⟩, h4⟩
    exact ⟨fun p hp => (h1 p hp).1, fun p hp => (h1 p hp).2.1, fun p hp => (h1 p hp).2.2, h2, h3, h4⟩

/-- Everything a DECODE can answer as a next state: an error report of the front-end, or its body,
carried out and completed. -/
theorem decodeWith_next {v : Variant} {body : Descriptor → Nat → Nat → List Move} {s t : State}
    (h : decodeWith v body s = .next t) :
    (s.resolved = false ∧ t = s.raiseErr .sequence) ∨
    (s.resolved = true ∧ s.desc.legal = true ∧ s.desc.variant = v.code ∧
      ∃ c, s.windowError s.desc = some c ∧ t = s.raiseErr c) ∨
    (s.resolved = true ∧ s.desc.legal = true ∧ s.desc.variant = v.code ∧ s.WindowsOk s.desc ∧
      t = (s.runMoves (body s.desc s.W s.H)).complete) := by
  unfold decodeWith at h
  cases hr : s.resolved with
  | false =>
    simp only [hr, Bool.not_false, if_true, Host.Outcome.next.injEq] at h
    exact .inl ⟨rfl, h.symm⟩
  | true =>
    right
    simp only [hr, Bool.not_true] at h
    by_cases hl : (s.desc.legal && s.desc.variant == v.code) = true
    · simp only [hl] at h
      simp only [Bool.and_eq_true, beq_iff_eq] at hl
      cases hw : s.windowError s.desc with
      | some c =>
        simp only [hw] at h
        exact .inl ⟨rfl, hl.1, hl.2, c, rfl, by simpa using h.symm⟩
      | none =>
        simp only [hw] at h
        by_cases hd : s.footprintsDisjoint s.desc = true
        · simp only [hd] at h
          exact .inr ⟨rfl, hl.1, hl.2, State.windowsOk_iff.2 ⟨hw, hd⟩, by simpa using h.symm⟩
        · simp [hd] at h
    · simp [hl] at h

/-- A DECODE that reaches its body carries it out and completes. -/
theorem decodeWith_body {v : Variant} {body : Descriptor → Nat → Nat → List Move} {s : State}
    (hr : s.resolved = true) (hl : s.desc.legal = true) (hv : s.desc.variant = v.code)
    (hw : s.WindowsOk s.desc) :
    decodeWith v body s = .next (s.runMoves (body s.desc s.W s.H)).complete := by
  obtain ⟨h1, h2⟩ := State.windowsOk_iff.1 hw
  simp [decodeWith, hr, hl, hv, h1, h2]

/-- A completed body is a state that only changed DST, drew free values and completed. -/
theorem State.completedFrom_runMoves (s : State) (ms : List Move) :
    s.CompletedFrom (s.runMoves ms).complete := by
  unfold State.CompletedFrom
  rw [State.runMoves_frame]
  rfl

/-- A position of a used plane: row below `PH`, byte below `ceil4(RB)`. -/
structure InPlane (s : State) (d : Descriptor) (p : Plane) (y k : Nat) : Prop where
  used : p ∈ usedPlanes d
  row : y < planeHeight d s.H p
  col : k < ceil4 (rowBytes d s.W p)

/-- A position of a used plane has an address inside the plane's footprint. -/
theorem InPlane.addr_lt {s : State} {d : Descriptor} {p : Plane} {y k : Nat} (h : InPlane s d p y k) :
    s.dstBase p ≤ s.dstAddr p y k ∧ s.dstAddr p y k < s.footprintEnd d p := by
  have hy : y ≤ planeHeight d s.H p - 1 := by have := h.row; omega
  have hm : y * s.dstStride p ≤ (planeHeight d s.H p - 1) * s.dstStride p := Nat.mul_le_mul_right _ hy
  have := h.col
  unfold State.dstAddr State.footprintEnd
  omega

/-- Within windows whose range is checked, a position's address lies in the DST space. -/
theorem InPlane.addr_lt_space {s : State} {d : Descriptor} {p : Plane} {y k : Nat}
    (h : InPlane s d p y k) (hr : ∀ p ∈ usedPlanes d, s.dstRangeOk d p = true) :
    s.dstAddr p y k < spaceSize := by
  have h1 := h.addr_lt.2
  have h2 := hr p h.used
  simp only [State.dstRangeOk, decide_eq_true_eq] at h2
  omega

/-- Within checked windows two positions with one address are the same position. -/
theorem InPlane.addr_inj {s : State} {d : Descriptor} (hw : s.WindowsOk d) {p q : Plane}
    {y k y' k' : Nat} (h : InPlane s d p y k) (h' : InPlane s d q y' k')
    (he : s.dstAddr p y k = s.dstAddr q y' k') : p = q ∧ y = y' ∧ k = k' := by
  by_cases hpq : p = q
  · subst hpq
    have hc : ceil4 (rowBytes d s.W p) ≤ s.dstStride p :=
      ceil4_le (hw.stride_covers p h.used) (hw.stride_aligned p h.used)
    have hk := h.col
    have hk' := h'.col
    unfold State.dstAddr at he
    have hy : y = y' := by
      rcases Nat.lt_trichotomy y y' with hlt | heq | hgt
      · have : (y + 1) * s.dstStride p ≤ y' * s.dstStride p := Nat.mul_le_mul_right _ hlt
        rw [Nat.add_mul] at this
        omega
      · exact heq
      · have : (y' + 1) * s.dstStride p ≤ y * s.dstStride p := Nat.mul_le_mul_right _ hgt
        rw [Nat.add_mul] at this
        omega
    subst hy
    exact ⟨rfl, rfl, by omega⟩
  · have h1 := h.addr_lt
    have h2 := h'.addr_lt
    rcases hw.apart p h.used q h'.used hpq with h3 | h3 <;> omega

/-- A body whose moves are positions of used planes leaves every other address as it was. -/
theorem State.runMoves_outside {s : State} {d : Descriptor} {ms : List Move} {a : Nat}
    (hb : ∀ m ∈ ms, InPlane s d m.plane m.row m.col) (ha : ¬ s.TouchableAddr d a) :
    Mem.read (s.runMoves ms).dst a = Mem.read s.dst a := by
  apply State.runMoves_read_untouched
  rintro m hm rfl
  exact ha ⟨m.plane, (hb m hm).used, m.row, (hb m hm).row, m.col, (hb m hm).col, rfl⟩

/-- A body whose moves are active positions of used planes leaves every other address as it was. -/
theorem State.runMoves_outside_active {s : State} {d : Descriptor} {ms : List Move} {a : Nat}
    (hb : ∀ m ∈ ms, InPlane s d m.plane m.row m.col ∧ m.col < rowBytes d s.W m.plane)
    (ha : ¬ s.ActiveAddr d a) :
    Mem.read (s.runMoves ms).dst a = Mem.read s.dst a := by
  apply State.runMoves_read_untouched
  rintro m hm rfl
  exact ha ⟨m.plane, (hb m hm).1.used, m.row, (hb m hm).1.row, m.col, (hb m hm).2, rfl⟩

/-- Within checked windows a position that the body assigns, always from one source byte, ends with
that byte. -/
theorem State.runMoves_reads {s : State} {d : Descriptor} (hw : s.WindowsOk d) {ms : List Move}
    (hb : ∀ m ∈ ms, InPlane s d m.plane m.row m.col) {p : Plane} {y k i : Nat}
    (hex : ⟨p, y, k, some i⟩ ∈ ms)
    (huniq : ∀ m ∈ ms, m.plane = p → m.row = y → m.col = k → m.src = some i) :
    Mem.read (s.runMoves ms).dst (s.dstAddr p y k) = s.srcByte i := by
  apply State.runMoves_read_of_agree
  · exact ⟨_, hex, rfl⟩
  · intro m hm he
    obtain ⟨h1, h2, h3⟩ := InPlane.addr_inj hw (hb m hm) (hb _ hex) he
    exact huniq m hm h1 h2 h3

end Sys2Proof.Machine
end

