-- ==== Sys2Proof/Laws/Bodies.lean ====
section
/-! SUPPORT. The seven bodies as sets of moves: which positions each assigns, and from which payload
offset (R170, R180, R182, R190, R201 to R203). -/

namespace Sys2Proof.Machine

/-- What every body owes: its moves are positions of used planes (R76). -/
def MovesInPlanes (d : Descriptor) (W H : Nat) (ms : List Move) : Prop :=
  ∀ m ∈ ms, m.plane ∈ usedPlanes d ∧ m.row < planeHeight d H m.plane ∧
    m.col < ceil4 (rowBytes d W m.plane)

/-- What a body without word gather owes: its moves are active positions and copy source bytes (R77). -/
def MovesActive (d : Descriptor) (W H : Nat) (ms : List Move) : Prop :=
  ∀ m ∈ ms, m.plane ∈ usedPlanes d ∧ m.row < planeHeight d H m.plane ∧
    m.col < rowBytes d W m.plane

theorem MovesActive.inPlanes {d : Descriptor} {W H : Nat} {ms : List Move}
    (h : MovesActive d W H ms) : MovesInPlanes d W H ms := fun m hm =>
  ⟨(h m hm).1, (h m hm).2.1, lt_of_lt_of_le (h m hm).2.2 (le_ceil4 _)⟩

theorem MovesInPlanes.inPlane {s : State} {d : Descriptor} {ms : List Move}
    (h : MovesInPlanes d s.W s.H ms) : ∀ m ∈ ms, InPlane s d m.plane m.row m.col := fun m hm =>
  ⟨(h m hm).1, (h m hm).2.1, (h m hm).2.2⟩

/-! ## One plane copied -/

theorem mem_copyPlane {p : Plane} {off rb ph : Nat} {m : Move} :
    m ∈ copyPlane p off rb ph ↔
      m.plane = p ∧ m.row < ph ∧ m.col < rb ∧ m.src = some (off + m.row * rb + m.col) := by
  simp only [copyPlane, List.mem_flatMap, List.mem_map, List.mem_range]
  constructor
  · rintro ⟨y, hy, k, hk, rfl⟩
    exact ⟨rfl, hy, hk, rfl⟩
  · rintro ⟨h1, h2, h3, h4⟩
    refine ⟨m.row, h2, m.col, h3, ?_⟩
    obtain ⟨p', y, k, src⟩ := m
    simp only at h1 h4 ⊢
    rw [h1, h4]

theorem mem_tailPadding {ps : List Plane} {y rb : Nat} {m : Move} :
    m ∈ tailPadding ps y rb ↔
      m.plane ∈ ps ∧ m.row = y ∧ rb ≤ m.col ∧ m.col < ceil4 rb ∧ m.src = none := by
  simp only [tailPadding, List.mem_flatMap, List.mem_map, List.mem_range]
  constructor
  · rintro ⟨j, hj, p, hp, rfl⟩
    exact ⟨hp, rfl, by simp, by simp only; omega, rfl⟩
  · rintro ⟨h1, h2, h3, h4, h5⟩
    refine ⟨m.col - rb, by omega, m.plane, h1, ?_⟩
    obtain ⟨p', r, k, src⟩ := m
    simp only at h2 h3 h5 ⊢
    rw [h2, h5, Nat.add_sub_cancel' h3]

/-! ## DECODE.PLANAR -/

/-- The payload offset at which source plane `i` starts: the sizes of the planes before it (R171). -/
def planarOffset (d : Descriptor) (W H : Nat) (ps : List Plane) (i : Nat) : Nat :=
  ((ps.take i).map fun p => rowBytes d W p * planeHeight d H p).sum

theorem mem_planarFrom {d : Descriptor} {W H : Nat} {ps : List Plane} {off : Nat} {m : Move} :
    m ∈ planarFrom d W H ps off ↔
      ∃ i, ∃ h : i < ps.length, m ∈ copyPlane ps[i] (off + planarOffset d W H ps i)
        (rowBytes d W ps[i]) (planeHeight d H ps[i]) := by
  induction ps generalizing off with
  | nil => simp [planarFrom]
  | cons p ps ih =>
    rw [planarFrom, List.mem_append, ih]
    constructor
    · rintro (h | ⟨i, hi, h⟩)
      · exact ⟨0, by simp, by simpa [planarOffset] using h⟩
      · refine ⟨i + 1, by simpa using hi, ?_⟩
        simpa [planarOffset, Nat.add_assoc] using h
    · rintro ⟨i, hi, h⟩
      cases i with
      | zero => exact .inl (by simpa [planarOffset] using h)
      | succ i =>
        refine .inr ⟨i, by simpa using hi, ?_⟩
        simpa [planarOffset, Nat.add_assoc] using h

/-- The planes of a legal PLANAR descriptor's slots: the used planes, each once (R126). -/
theorem planarOrder_perm {d : Descriptor} (hl : d.legal = true) (hv : d.variant = Variant.planar.code) :
    (planarOrder d).Perm (usedPlanes d) := by
  have hp := (Descriptor.legal_variant hl hv).1
  unfold Descriptor.planarLegal at hp
  rcases Descriptor.legal_planes hl with h1 | h3
  · simp only [h1, beq_self_eq_true, if_true, Bool.and_eq_true, beq_iff_eq] at hp
    have : slotPlane d 0 = .p0 := slotPlane_of_code hp.1.1.1
    simp [planarOrder, h1, Descriptor.usedPlanes_one h1, this, List.range_succ]
  · simp only [h3, Nat.reduceBEq, Bool.false_eq_true, if_false, Bool.and_eq_true, beq_iff_eq] at hp
    obtain ⟨⟨h12, h13, h23⟩, hc⟩ := Descriptor.slots_cover hp.1
    rw [Descriptor.usedPlanes_three h3]
    have ho : planarOrder d = [slotPlane d 0, slotPlane d 1, slotPlane d 2] := by
      simp [planarOrder, h3, List.range_succ]
    rw [ho]
    generalize slotPlane d 0 = a at *
    generalize slotPlane d 1 = b at *
    generalize slotPlane d 2 = c at *
    cases a <;> cases b <;> cases c <;> first | decide | (exfalso; simp at h12 h13 h23)

theorem usedPlanes_nodup (d : Descriptor) : (usedPlanes d).Nodup :=
  List.Nodup.sublist (List.take_sublist _ _) (by decide)

theorem planarMoves_active {d : Descriptor} (hl : d.legal = true)
    (hv : d.variant = Variant.planar.code) (W H : Nat) : MovesActive d W H (planarMoves d W H) := by
  intro m hm
  obtain ⟨i, hi, h⟩ := mem_planarFrom.1 hm
  obtain ⟨h1, h2, h3, _⟩ := mem_copyPlane.1 h
  rw [h1]
  exact ⟨(planarOrder_perm hl hv).mem_iff.1 (List.getElem_mem hi), h2, h3⟩

/-- PLANAR assigns byte `k` of row `y` of the plane in payload position `i` from the source plane that
starts at the sizes of the planes before it (R170, R171). -/
theorem planarMoves_src {d : Descriptor} (hl : d.legal = true)
    (hv : d.variant = Variant.planar.code) {W H : Nat} {i : Nat} (hi : i < (planarOrder d).length)
    {m : Move} (hm : m ∈ planarMoves d W H) (hp : m.plane = (planarOrder d)[i]) :
    m.src = some (planarOffset d W H (planarOrder d) i + m.row * rowBytes d W m.plane + m.col) := by
  obtain ⟨j, hj, h⟩ := mem_planarFrom.1 hm
  obtain ⟨h1, _, _, h4⟩ := mem_copyPlane.1 h
  have hnd : (planarOrder d).Nodup := (planarOrder_perm hl hv).nodup_iff.2 (usedPlanes_nodup d)
  have hij : j = i := (List.Nodup.getElem_inj_iff hnd).1 (h1.symm.trans hp)
  subst hij
  rw [h4, h1, Nat.zero_add]

theorem planarMoves_mem {d : Descriptor} {W H i y k : Nat} (hi : i < (planarOrder d).length)
    (hy : y < planeHeight d H (planarOrder d)[i]) (hk : k < rowBytes d W (planarOrder d)[i]) :
    ⟨(planarOrder d)[i], y, k,
      some (planarOffset d W H (planarOrder d) i + y * rowBytes d W (planarOrder d)[i] + k)⟩
      ∈ planarMoves d W H :=
  mem_planarFrom.2 ⟨i, hi, mem_copyPlane.2 ⟨rfl, hy, hk, by simp⟩⟩

/-! ## DECODE.NV -/

theorem mem_nvRow {pa pb : Plane} {cb cw y : Nat} {m : Move} :
    m ∈ nvRow pa pb cb cw y ↔
      (m.plane = pa ∧ m.row = y ∧ m.col < cw ∧ m.src = some (cb + y * (2 * cw) + 2 * m.col)) ∨
      (m.plane = pb ∧ m.row = y ∧ m.col < cw ∧ m.src = some (cb + y * (2 * cw) + 2 * m.col + 1)) ∨
      ((m.plane = pa ∨ m.plane = pb) ∧ m.row = y ∧ cw ≤ m.col ∧ m.col < ceil4 cw ∧ m.src = none) := by
  simp only [nvRow, List.mem_append, mem_tailPadding, List.mem_flatMap, List.mem_range,
    List.mem_cons, List.not_mem_nil, or_false]
  obtain ⟨p, r, k, src⟩ := m
  simp only [Move.mk.injEq]
  constructor
  · rintro (⟨x, hx, ⟨rfl, rfl, rfl, rfl⟩ | ⟨rfl, rfl, rfl, rfl⟩⟩ | h)
    · exact .inl ⟨rfl, rfl, hx, rfl⟩
    · exact .inr (.inl ⟨rfl, rfl, hx, rfl⟩)
    · exact .inr (.inr h)
  · rintro (⟨h1, h2, h3, h4⟩ | ⟨h1, h2, h3, h4⟩ | h)
    · exact .inl ⟨k, h3, .inl ⟨h1, h2, rfl, h4⟩⟩
    · exact .inl ⟨k, h3, .inr ⟨h1, h2, rfl, h4⟩⟩
    · exact .inr h

theorem mem_nvMoves {d : Descriptor} {W H : Nat} {m : Move} :
    m ∈ nvMoves d W H ↔
      m ∈ copyPlane .p0 0 W H ∨
      ∃ y < planeHeight d H .p1,
        m ∈ nvRow (slotPlane d 1) (slotPlane d 2) (W * H) (planeWidth d W .p1) y := by
  simp [nvMoves, List.mem_flatMap]

theorem nv_rowBytes {d : Descriptor} (hl : d.legal = true) (hv : d.variant = Variant.nvSemiplanar.code)
    (W : Nat) (p : Plane) : rowBytes d W p = planeWidth d W p := by
  have := Descriptor.bps_eight (Descriptor.legal_variant hl hv).2.1
  simp [rowBytes, this]

theorem chroma_width {d : Descriptor} {W : Nat} {p : Plane} (hp : p = .p1 ∨ p = .p2) :
    planeWidth d W p = planeWidth d W .p1 := by
  rcases hp with rfl | rfl <;> rfl

theorem chroma_height {d : Descriptor} {H : Nat} {p : Plane} (hp : p = .p1 ∨ p = .p2) :
    planeHeight d H p = planeHeight d H .p1 := by
  rcases hp with rfl | rfl <;> rfl

theorem nvMoves_inPlanes {d : Descriptor} (hl : d.legal = true)
    (hv : d.variant = Variant.nvSemiplanar.code) (W H : Nat) :
    MovesInPlanes d W H (nvMoves d W H) := by
  have hs := (Descriptor.legal_variant hl hv).1
  have hu := Descriptor.mem_usedPlanes_three (Descriptor.semiPlanar_facts hs).1
  have ha : slotPlane d 1 = .p1 ∨ slotPlane d 1 = .p2 := by
    rcases Descriptor.semiPlanar_planes hs with h | h <;> simp [h.1]
  have hb : slotPlane d 2 = .p1 ∨ slotPlane d 2 = .p2 := by
    rcases Descriptor.semiPlanar_planes hs with h | h <;> simp [h.2]
  intro m hm
  refine ⟨hu _, ?_⟩
  rw [nv_rowBytes hl hv]
  rcases mem_nvMoves.1 hm with h | ⟨y, hy, h⟩
  · obtain ⟨h1, h2, h3, _⟩ := mem_copyPlane.1 h
    rw [h1]
    exact ⟨h2, lt_of_lt_of_le h3 (le_ceil4 _)⟩
  · rcases mem_nvRow.1 h with ⟨h1, h2, h3, _⟩ | ⟨h1, h2, h3, _⟩ | ⟨h1, h2, _, h3, _⟩
    · rw [h1, h2, chroma_width ha, chroma_height ha]
      exact ⟨hy, lt_of_lt_of_le h3 (le_ceil4 _)⟩
    · rw [h1, h2, chroma_width hb, chroma_height hb]
      exact ⟨hy, lt_of_lt_of_le h3 (le_ceil4 _)⟩
    · have hp : m.plane = .p1 ∨ m.plane = .p2 := by rcases h1 with h1 | h1 <;> rw [h1] <;> assumption
      rw [h2, chroma_width hp, chroma_height hp]
      exact ⟨hy, h3⟩

/-! ## DECODE.P01X -/

theorem mem_p01xRow {pa pb : Plane} {cb cw y : Nat} {m : Move} :
    m ∈ p01xRow pa pb cb cw y ↔
      ∃ x < cw, ∃ b < 2, m.row = y ∧ m.col = 2 * x + b ∧
        ((m.plane = pa ∧ m.src = some (cb + y * (4 * cw) + 4 * x + b)) ∨
         (m.plane = pb ∧ m.src = some (cb + y * (4 * cw) + 4 * x + 2 + b))) := by
  obtain ⟨p, r, k, src⟩ := m
  simp only [p01xRow, List.mem_flatMap, List.mem_range, List.mem_cons, List.not_mem_nil, or_false,
    Move.mk.injEq]
  constructor
  · rintro ⟨x, hx, b, hb, h⟩
    exact ⟨x, hx, b, by omega, by tauto⟩
  · rintro ⟨x, hx, b, hb, h⟩
    exact ⟨x, hx, b, by omega, by tauto⟩

theorem mem_p01xMoves {d : Descriptor} {W H : Nat} {m : Move} :
    m ∈ p01xMoves d W H ↔
      m ∈ copyPlane .p0 0 (2 * W) H ∨
      ∃ y < planeHeight d H .p1,
        m ∈ p01xRow (slotPlane d 1) (slotPlane d 2) (2 * W * H) (planeWidth d W .p1) y := by
  simp [p01xMoves, List.mem_flatMap]

theorem p01x_rowBytes {d : Descriptor} (hl : d.legal = true)
    (hv : d.variant = Variant.p01xSemiplanar16.code) (W : Nat) (p : Plane) :
    rowBytes d W p = 2 * planeWidth d W p := by
  have := Descriptor.bps_above (Descriptor.legal_variant hl hv).2.1
  simp [rowBytes, this, Nat.mul_comm]

theorem p01xMoves_active {d : Descriptor} (hl : d.legal = true)
    (hv : d.variant = Variant.p01xSemiplanar16.code) (W H : Nat) :
    MovesActive d W H (p01xMoves d W H) := by
  have hs := (Descriptor.legal_variant hl hv).1
  have hu := Descriptor.mem_usedPlanes_three (Descriptor.semiPlanar_facts hs).1
  have ha : slotPlane d 1 = .p1 ∨ slotPlane d 1 = .p2 := by
    rcases Descriptor.semiPlanar_planes hs with h | h <;> simp [h.1]
  have hb : slotPlane d 2 = .p1 ∨ slotPlane d 2 = .p2 := by
    rcases Descriptor.semiPlanar_planes hs with h | h <;> simp [h.2]
  intro m hm
  refine ⟨hu _, ?_⟩
  rw [p01x_rowBytes hl hv]
  rcases mem_p01xMoves.1 hm with h | ⟨y, hy, h⟩
  · obtain ⟨h1, h2, h3, _⟩ := mem_copyPlane.1 h
    rw [h1]
    exact ⟨h2, h3⟩
  · obtain ⟨x, hx, b, hb2, hr, hc, h | h⟩ := mem_p01xRow.1 h
    · rw [h.1, hr, hc, chroma_width ha, chroma_height ha]
      exact ⟨hy, by omega⟩
    · rw [h.1, hr, hc, chroma_width hb, chroma_height hb]
      exact ⟨hy, by omega⟩

/-! ## DECODE.YUV422 -/

/-- How many of the slots before `j` name plane `p`: the column, within its macropixel, of the byte that
slot `j` gives plane `p`. -/
def slotRank (d : Descriptor) (p : Plane) (j : Nat) : Nat :=
  ((List.range j).map (slotPlane d)).count p

theorem Columns.get_bump (c : Columns) (p q : Plane) :
    (c.bump p).get q = c.get q + if p = q then 1 else 0 := by
  cases p <;> cases q <;> simp [Columns.bump, Columns.get]

/-- The slots of a macropixel: each byte to the next free column of its plane. -/
theorem mem_yuvSlots {d : Descriptor} {y o : Nat} {js : List Nat} {c : Columns} {m : Move} :
    m ∈ (yuvSlots d y o js c).1 ↔
      ∃ i, ∃ h : i < js.length, m.plane = slotPlane d js[i] ∧ m.row = y ∧
        m.col = c.get m.plane + ((js.take i).map (slotPlane d)).count m.plane ∧
        m.src = some (o + js[i]) := by
  induction js generalizing c with
  | nil => simp [yuvSlots]
  | cons j js ih =>
    simp only [yuvSlots, List.mem_cons, ih]
    obtain ⟨p, r, k, src⟩ := m
    simp only [Move.mk.injEq, Columns.get_bump]
    constructor
    · rintro (⟨rfl, rfl, rfl, rfl⟩ | ⟨i, hi, h1, h2, h3, h4⟩)
      · exact ⟨0, by simp, by simp⟩
      · refine ⟨i + 1, by simpa using hi, by simpa using h1, h2, ?_, by simpa using h4⟩
        simp only [List.take_succ_cons, List.map_cons, List.count_cons, beq_iff_eq]
        omega
    · rintro ⟨i, hi, h1, h2, h3, h4⟩
      cases i with
      | zero =>
        left
        simp only [List.getElem_cons_zero] at h1 h4
        simp only [List.take_zero, List.map_nil, List.count_nil, Nat.add_zero] at h3
        exact ⟨h1, h2, by rw [h3, h1], h4⟩
      | succ i =>
        right
        refine ⟨i, by simpa using hi, by simpa using h1, h2, ?_, by simpa using h4⟩
        simp only [List.take_succ_cons, List.map_cons, List.count_cons, beq_iff_eq] at h3
        omega

/-- The counters after some slots: each plane's has grown by the slots that name it. -/
theorem yuvSlots_get {d : Descriptor} {y o : Nat} {js : List Nat} {c : Columns} {q : Plane} :
    (yuvSlots d y o js c).2.get q = c.get q + (js.map (slotPlane d)).count q := by
  induction js generalizing c with
  | nil => simp [yuvSlots]
  | cons j js ih =>
    simp only [yuvSlots, ih, Columns.get_bump, List.map_cons, List.count_cons, beq_iff_eq]
    omega

/-- How many bytes of a macropixel plane `p` receives. -/
def slotsOf (d : Descriptor) (p : Plane) : Nat := slotRank d p 4

theorem mem_yuvMacropixels {d : Descriptor} {y o n m₀ : Nat} {c : Columns} {m : Move} :
    m ∈ yuvMacropixels d y o (List.range' m₀ n) c ↔
      ∃ x < n, ∃ j < 4, m.plane = slotPlane d j ∧ m.row = y ∧
        m.col = c.get m.plane + x * slotsOf d m.plane + slotRank d m.plane j ∧
        m.src = some (o + 4 * (m₀ + x) + j) := by
  induction n generalizing m₀ c with
  | zero => simp [yuvMacropixels]
  | succ n ih =>
    rw [List.range'_succ, yuvMacropixels]
    simp only [List.mem_append, ih, mem_yuvSlots, yuvSlots_get]
    have h4 : ([0, 1, 2, 3] : List Nat) = List.range 4 := rfl
    have hs : ∀ q, (List.map (slotPlane d) [0, 1, 2, 3]).count q = slotsOf d q := fun q => rfl
    constructor
    · rintro (⟨i, hi, h1, h2, h3, h5⟩ | ⟨x, hx, j, hj, h1, h2, h3, h5⟩)
      · simp only [h4, List.length_range] at hi
        simp only [h4, List.getElem_range, List.take_range, Nat.min_eq_left (Nat.le_of_lt hi)] at h1 h3 h5
        exact ⟨0, by omega, i, hi, h1, h2, by simpa [slotRank] using h3, by simpa using h5⟩
      · refine ⟨x + 1, by omega, j, hj, h1, h2, ?_, ?_⟩
        · rw [h3, hs, Nat.add_mul]
          omega
        · rw [h5]
          congr 1
          omega
    · rintro ⟨x, hx, j, hj, h1, h2, h3, h5⟩
      cases x with
      | zero =>
        left
        refine ⟨j, by simpa using hj, ?_⟩
        simp only [h4, List.getElem_range, List.take_range, Nat.min_eq_left (Nat.le_of_lt hj)]
        exact ⟨h1, h2, by simpa [slotRank] using h3, by simpa using h5⟩
      | succ x =>
        right
        refine ⟨x, by omega, j, hj, h1, h2, ?_, ?_⟩
        · rw [h3, hs, Nat.add_mul]
          omega
        · rw [h5]
          congr 1
          omega

theorem mem_yuv422Moves {d : Descriptor} {W H : Nat} {m : Move} :
    m ∈ yuv422Moves d W H ↔
      m.row < H ∧ ∃ x < W / 2, ∃ j < 4, m.plane = slotPlane d j ∧
        m.col = x * slotsOf d m.plane + slotRank d m.plane j ∧
        m.src = some (m.row * (2 * W) + 4 * x + j) := by
  have hg : ∀ p, (⟨0, 0, 0⟩ : Columns).get p = 0 := fun p => by cases p <;> rfl
  have hr : List.range (W / 2) = List.range' 0 (W / 2) := List.range_eq_range'
  simp only [yuv422Moves, List.mem_flatMap, List.mem_range, hr, mem_yuvMacropixels, hg, Nat.zero_add]
  constructor
  · rintro ⟨y, hy, x, hx, j, hj, h1, rfl, h3, h4⟩
    exact ⟨hy, x, hx, j, hj, h1, h3, h4⟩
  · rintro ⟨hy, x, hx, j, hj, h1, h3, h4⟩
    exact ⟨m.row, hy, x, hx, j, hj, h1, rfl, h3, h4⟩

/-- Four planes of which two are plane 0 and one each planes 1 and 2: the ranks of the slots. -/
theorem ranks_of_slots (a b c e : Plane) (h0 : [a, b, c, e].count .p0 = 2)
    (h1 : [a, b, c, e].count .p1 = 1) (h2 : [a, b, c, e].count .p2 = 1) :
    (∀ j : Fin 4, ([a, b, c, e].take j).count [a, b, c, e][j] < [a, b, c, e].count [a, b, c, e][j]) ∧
    (∀ i j : Fin 4, [a, b, c, e][i] = [a, b, c, e][j] →
      ([a, b, c, e].take i).count [a, b, c, e][i] = ([a, b, c, e].take j).count [a, b, c, e][j] →
      i = j) := by
  revert h0 h1 h2
  cases a <;> cases b <;> cases c <;> cases e <;> decide

/-- A list whose 0s, 1s and 2s are all of it holds nothing above 2. -/
theorem all_le_two_of_counts (l : List Nat) (h : l.count 0 + l.count 1 + l.count 2 = l.length) :
    ∀ n ∈ l, n ≤ 2 := by
  have le : ∀ l : List Nat, l.count 0 + l.count 1 + l.count 2 ≤ l.length := by
    intro l
    induction l with
    | nil => simp
    | cons n l ih =>
      simp only [List.count_cons, beq_iff_eq, List.length_cons]
      split_ifs <;> omega
  induction l with
  | nil => simp
  | cons n l ih =>
    have hl := le l
    simp only [List.count_cons, beq_iff_eq, List.length_cons] at h
    have hn : n ≤ 2 := by
      by_contra hc
      simp only [show ¬ n = 0 by omega, show ¬ n = 1 by omega, show ¬ n = 2 by omega, if_false] at h
      omega
    have hrest : l.count 0 + l.count 1 + l.count 2 = l.length := by
      split_ifs at h <;> omega
    intro m hm
    rcases List.mem_cons.1 hm with rfl | hm
    · exact hn
    · exact ih hrest m hm

/-- In a legal PACKED_YUV422 descriptor two slots name plane 0 and one each planes 1 and 2, and the
slots of one plane have distinct ranks. -/
theorem yuv422_slots {d : Descriptor} (h : d.yuv422Legal = true) :
    (slotsOf d .p0 = 2 ∧ slotsOf d .p1 = 1 ∧ slotsOf d .p2 = 1) ∧
    (∀ j < 4, slotRank d (slotPlane d j) j < slotsOf d (slotPlane d j)) ∧
    (∀ i < 4, ∀ j < 4, slotPlane d i = slotPlane d j →
      slotRank d (slotPlane d i) i = slotRank d (slotPlane d j) j → i = j) := by
  obtain ⟨_, _, _, _, h0, h1, h2⟩ := Descriptor.yuv422_facts h
  unfold Descriptor.slotCount at h0 h1 h2
  have key := all_le_two_of_counts [d.order 0, d.order 1, d.order 2, d.order 3] (by
    rw [h0, h1, h2]
    rfl)
  have ha := key (d.order 0) (by simp)
  have hb := key (d.order 1) (by simp)
  have hc := key (d.order 2) (by simp)
  have he := key (d.order 3) (by simp)
  have hcount : ∀ p : Plane, [slotPlane d 0, slotPlane d 1, slotPlane d 2, slotPlane d 3].count p =
      [d.order 0, d.order 1, d.order 2, d.order 3].count p.code := by
    intro p
    have e : ∀ i, d.order i ≤ 2 → (slotPlane d i = p ↔ d.order i = p.code) := by
      intro i hi
      rw [← slotPlane_code hi]
      exact ⟨fun h => by rw [h], Plane.code_inj⟩
    simp only [List.count_cons, List.count_nil, beq_iff_eq, e 0 ha, e 1 hb, e 2 hc, e 3 he]
  have hrank : ∀ p, ∀ j ≤ 4, slotRank d p j =
      ([slotPlane d 0, slotPlane d 1, slotPlane d 2, slotPlane d 3].take j).count p := by
    intro p j hj
    unfold slotRank
    congr 1
    interval_cases j <;> rfl
  have hof : ∀ p, slotsOf d p =
      [slotPlane d 0, slotPlane d 1, slotPlane d 2, slotPlane d 3].count p := fun p => hrank p 4 le_rfl
  have hget : ∀ j : Fin 4, slotPlane d j =
      [slotPlane d 0, slotPlane d 1, slotPlane d 2, slotPlane d 3][j] := by
    intro j
    fin_cases j <;> rfl
  obtain ⟨r1, r2⟩ := ranks_of_slots _ _ _ _ ((hcount .p0).trans h0) ((hcount .p1).trans h1)
    ((hcount .p2).trans h2)
  refine ⟨⟨?_, ?_, ?_⟩, ?_, ?_⟩
  · rw [hof, hcount]; exact h0
  · rw [hof, hcount]; exact h1
  · rw [hof, hcount]; exact h2
  · intro j hj
    rw [hrank _ j (by omega), hof]
    have := r1 ⟨j, hj⟩
    rw [← hget ⟨j, hj⟩] at this
    exact this
  · intro i hi j hj hp hr
    rw [hrank _ i (by omega), hrank _ j (by omega)] at hr
    have := r2 ⟨i, hi⟩ ⟨j, hj⟩
    rw [← hget ⟨i, hi⟩, ← hget ⟨j, hj⟩] at this
    exact Fin.mk.inj_iff.1 (this hp hr)

theorem yuv422_rowBytes {d : Descriptor} (hl : d.legal = true)
    (hv : d.variant = Variant.packedYuv422.code) (W : Nat) (p : Plane) :
    rowBytes d W p = planeWidth d W p := by
  have := Descriptor.bps_eight (Descriptor.yuv422_facts (Descriptor.legal_variant hl hv).1).2.1
  simp [rowBytes, this]

theorem yuv422Moves_active {d : Descriptor} (hl : d.legal = true)
    (hv : d.variant = Variant.packedYuv422.code) (W H : Nat) :
    MovesActive d W H (yuv422Moves d W H) := by
  have hy := (Descriptor.legal_variant hl hv).1
  obtain ⟨h3, _, hsh, hsv, _⟩ := Descriptor.yuv422_facts hy
  obtain ⟨⟨n0, n1, n2⟩, hr, _⟩ := yuv422_slots hy
  intro m hm
  obtain ⟨hrow, x, hx, j, hj, hp, hc, _⟩ := mem_yuv422Moves.1 hm
  refine ⟨Descriptor.mem_usedPlanes_three h3 _, ?_, ?_⟩
  · cases hm : m.plane <;> simpa [planeHeight, hsv] using hrow
  · rw [yuv422_rowBytes hl hv, hc]
    have := hr j hj
    rw [← hp] at this
    cases hm : m.plane <;> rw [hm] at this <;> simp only [planeWidth, n0, n1, n2, hsh] at this ⊢ <;>
      omega

/-- YUV422 gives each active byte from one payload offset. -/
theorem yuv422Moves_src {d : Descriptor} (hl : d.legal = true)
    (hv : d.variant = Variant.packedYuv422.code) {W H : Nat} {m : Move} {x j : Nat} (hj : j < 4)
    (hm : m ∈ yuv422Moves d W H) (hp : m.plane = slotPlane d j)
    (hc : m.col = x * slotsOf d m.plane + slotRank d m.plane j) :
    m.src = some (m.row * (2 * W) + 4 * x + j) := by
  have hy := (Descriptor.legal_variant hl hv).1
  obtain ⟨_, hr, hi⟩ := yuv422_slots hy
  obtain ⟨_, x', hx', j', hj', hp', hc', hs⟩ := mem_yuv422Moves.1 hm
  have r1 := hr j hj
  have r2 := hr j' hj'
  rw [← hp] at r1
  rw [← hp'] at r2
  have e : x * slotsOf d m.plane + slotRank d m.plane j =
      x' * slotsOf d m.plane + slotRank d m.plane j' := hc.symm.trans hc'
  have hxx : x = x' := by
    rcases Nat.lt_trichotomy x x' with h | h | h
    · have : (x + 1) * slotsOf d m.plane ≤ x' * slotsOf d m.plane := Nat.mul_le_mul_right _ h
      rw [Nat.add_mul] at this
      omega
    · exact h
    · have : (x' + 1) * slotsOf d m.plane ≤ x * slotsOf d m.plane := Nat.mul_le_mul_right _ h
      rw [Nat.add_mul] at this
      omega
  subst hxx
  have hjj : j = j' := by
    apply hi j hj j' hj' (hp.symm.trans hp')
    rw [← hp, ← hp']
    omega
  subst hjj
  exact hs

/-! ## DECODE.RGB24, DECODE.RGB32, DECODE.RGB48 -/

theorem mem_rgbRow {d : Descriptor} {W B a y : Nat} {m : Move} :
    m ∈ rgbRow d W B a y ↔
      (m.row = y ∧ m.col < W ∧ ∃ c < 3, m.plane = slotPlane d (c + a) ∧
        m.src = some ((y * W + m.col) * B + c + a)) ∨
      (m.row = y ∧ W ≤ m.col ∧ m.col < ceil4 W ∧ m.src = none) := by
  obtain ⟨p, r, k, src⟩ := m
  have hp : p ∈ [Plane.p0, .p1, .p2] := by cases p <;> decide
  simp only [rgbRow, List.mem_append, mem_tailPadding, List.mem_flatMap, List.mem_range, List.mem_map,
    Move.mk.injEq, hp, true_and]
  constructor
  · rintro (⟨x, hx, c, hc, rfl, rfl, rfl, rfl⟩ | h)
    · exact .inl ⟨rfl, hx, c, hc, rfl, rfl⟩
    · exact .inr h
  · rintro (⟨rfl, hx, c, hc, rfl, rfl⟩ | h)
    · exact .inl ⟨k, hx, c, hc, rfl, rfl, rfl, rfl⟩
    · exact .inr h

theorem mem_rgb24Moves {d : Descriptor} {W H : Nat} {m : Move} :
    m ∈ rgb24Moves d W H ↔ m.row < H ∧ m ∈ rgbRow d W 3 0 m.row := by
  simp only [rgb24Moves, List.mem_flatMap, List.mem_range]
  constructor
  · rintro ⟨y, hy, h⟩
    have : m.row = y := by rcases mem_rgbRow.1 h with h | h <;> exact h.1
    rw [this]
    exact ⟨hy, h⟩
  · rintro ⟨hy, h⟩
    exact ⟨_, hy, h⟩

theorem mem_rgb32Moves {d : Descriptor} {W H : Nat} {m : Move} :
    m ∈ rgb32Moves d W H ↔ m.row < H ∧ m ∈ rgbRow d W 4 (alphaShift d) m.row := by
  simp only [rgb32Moves, List.mem_flatMap, List.mem_range]
  constructor
  · rintro ⟨y, hy, h⟩
    have : m.row = y := by rcases mem_rgbRow.1 h with h | h <;> exact h.1
    rw [this]
    exact ⟨hy, h⟩
  · rintro ⟨hy, h⟩
    exact ⟨_, hy, h⟩

theorem mem_rgb48Moves {d : Descriptor} {W H : Nat} {m : Move} :
    m ∈ rgb48Moves d W H ↔
      m.row < H ∧ ∃ x < W, ∃ c < 3, ∃ b < 2, m.plane = slotPlane d c ∧ m.col = 2 * x + b ∧
        m.src = some ((m.row * W + x) * 6 + 2 * c + b) := by
  obtain ⟨p, r, k, src⟩ := m
  simp only [rgb48Moves, List.mem_flatMap, List.mem_range, List.mem_map, List.mem_cons,
    List.not_mem_nil, or_false, Move.mk.injEq]
  constructor
  · rintro ⟨y, hy, x, hx, c, hc, b, hb, rfl, rfl, rfl, rfl⟩
    exact ⟨hy, x, hx, c, hc, b, by omega, rfl, rfl, rfl⟩
  · rintro ⟨hy, x, hx, c, hc, b, hb, rfl, rfl, rfl⟩
    exact ⟨r, hy, x, hx, c, hc, b, by omega, rfl, rfl, rfl, rfl⟩

theorem packed_planeWidth {d : Descriptor} (h : d.packedLegal = true) (W H : Nat) (p : Plane) :
    planeWidth d W p = W ∧ planeHeight d H p = H := by
  obtain ⟨_, h1, h2⟩ := Descriptor.packed_facts h
  cases p <;> simp [planeWidth, planeHeight, h1, h2]

theorem rgb24Moves_inPlanes {d : Descriptor} (hl : d.legal = true)
    (hv : d.variant = Variant.packedRgb24.code) (W H : Nat) :
    MovesInPlanes d W H (rgb24Moves d W H) := by
  obtain ⟨hp, h8, _, _⟩ := Descriptor.legal_variant hl hv
  have hb := Descriptor.bps_eight h8
  intro m hm
  obtain ⟨hr, h⟩ := mem_rgb24Moves.1 hm
  have hw := packed_planeWidth hp W H m.plane
  refine ⟨Descriptor.mem_usedPlanes_three (Descriptor.packed_facts hp).1 _, by rw [hw.2]; exact hr, ?_⟩
  simp only [rowBytes, hb, hw.1, Nat.mul_one]
  rcases mem_rgbRow.1 h with ⟨_, h, _⟩ | ⟨_, _, h, _⟩
  · exact lt_of_lt_of_le h (le_ceil4 _)
  · exact h

theorem rgb32Moves_inPlanes {d : Descriptor} (hl : d.legal = true)
    (hv : d.variant = Variant.packedRgb32.code) (W H : Nat) :
    MovesInPlanes d W H (rgb32Moves d W H) := by
  obtain ⟨hp, h8, _, _⟩ := Descriptor.legal_variant hl hv
  have hb := Descriptor.bps_eight h8
  intro m hm
  obtain ⟨hr, h⟩ := mem_rgb32Moves.1 hm
  have hw := packed_planeWidth hp W H m.plane
  refine ⟨Descriptor.mem_usedPlanes_three (Descriptor.packed_facts hp).1 _, by rw [hw.2]; exact hr, ?_⟩
  simp only [rowBytes, hb, hw.1, Nat.mul_one]
  rcases mem_rgbRow.1 h with ⟨_, h, _⟩ | ⟨_, _, h, _⟩
  · exact lt_of_lt_of_le h (le_ceil4 _)
  · exact h

theorem rgb48Moves_active {d : Descriptor} (hl : d.legal = true)
    (hv : d.variant = Variant.packedRgb48.code) (W H : Nat) :
    MovesActive d W H (rgb48Moves d W H) := by
  obtain ⟨hp, h9, _, _⟩ := Descriptor.legal_variant hl hv
  have hb := Descriptor.bps_above h9
  intro m hm
  obtain ⟨hr, x, hx, c, hc, b, hb2, _, hcol, _⟩ := mem_rgb48Moves.1 hm
  have hw := packed_planeWidth hp W H m.plane
  refine ⟨Descriptor.mem_usedPlanes_three (Descriptor.packed_facts hp).1 _, by rw [hw.2]; exact hr, ?_⟩
  simp only [rowBytes, hb, hw.1]
  omega

/-! ## Every body -/

/-- The body a DECODE of a legal descriptor carries out stays inside the planes. -/
theorem bodyMoves_inPlanes {d : Descriptor} (hl : d.legal = true) (W H : Nat) :
    MovesInPlanes d W H (bodyMoves d W H) := by
  obtain ⟨v, hv⟩ := Descriptor.legal_has_variant hl
  unfold bodyMoves
  cases v <;> (rw [hv]; simp only [Variant.code])
  · exact (planarMoves_active hl hv W H).inPlanes
  · exact nvMoves_inPlanes hl hv W H
  · exact (p01xMoves_active hl hv W H).inPlanes
  · exact (yuv422Moves_active hl hv W H).inPlanes
  · exact rgb24Moves_inPlanes hl hv W H
  · exact rgb32Moves_inPlanes hl hv W H
  · exact (rgb48Moves_active hl hv W H).inPlanes

end Sys2Proof.Machine
end

