-- ==== Sys2Proof/Laws/PerInstr.lean ====
section
/-! SUPPORT. Per-instruction families: a statement about an instruction as syntax, and its lemma for every
constructor of `Instr`. -/

namespace Sys2Proof.Laws.RoundTrip

/-- Decoding an operation's encoding gives the operation back, and its encoding is its row's match word:
no bit outside the row's mask is set (R93). -/
def Statement (i : Instr) : Prop :=
  decode (encode i) = .ok i ∧ encode i &&& rowMask i = encode i

theorem nop : Statement .nop := by unfold Statement; decide
theorem resolve : Statement .resolve := by unfold Statement; decide
theorem close : Statement .close := by unfold Statement; decide
theorem decodePlanar : Statement .decodePlanar := by unfold Statement; decide
theorem decodeNv : Statement .decodeNv := by unfold Statement; decide
theorem decodeP01x : Statement .decodeP01x := by unfold Statement; decide
theorem decodeYuv422 : Statement .decodeYuv422 := by unfold Statement; decide
theorem decodeRgb24 : Statement .decodeRgb24 := by unfold Statement; decide
theorem decodeRgb32 : Statement .decodeRgb32 := by unfold Statement; decide
theorem decodeRgb48 : Statement .decodeRgb48 := by unfold Statement; decide

end Sys2Proof.Laws.RoundTrip
end

