-- ==== Sys2Proof/Laws/Steps.lean ====
section
/-! SUPPORT. What a meaning, a completion step, a host action and a step can answer: one lemma each, so
that no later proof unfolds them. -/

namespace Sys2Proof.Machine

/-! ## The meanings -/

/-- Everything a RESOLVE can answer as a next state (R152). -/
theorem execResolve_next {s t : State} (h : execResolve s = .next t) :
    (romLookup s.rom s.tagKey = none ∧ t = s.raiseResolveErr .unsupportedFormat) ∨
    ∃ i e, romLookup s.rom s.tagKey = some (i, e) ∧ e.legal = true ∧ i < 256 ∧
      maxDimLegal s.maxDim = true ∧
      ((geometryOk s.maxDim e.desc s.W s.H = true ∧ t = (s.setResolution i e).complete) ∨
       (geometryOk s.maxDim e.desc s.W s.H = false ∧ t = s.raiseResolveErr .invalidGeometry)) := by
  unfold execResolve at h
  split at h
  · rename_i hn
    exact .inl ⟨hn, by simpa using h.symm⟩
  · rename_i i e hs
    right
    split at h
    · cases h
    · rename_i hl
      simp only [Bool.not_eq_true, Bool.not_eq_false', Bool.and_eq_true, decide_eq_true_eq] at hl
      refine ⟨i, e, hs, hl.1.1, hl.1.2, hl.2, ?_⟩
      split at h
      · rename_i hg
        exact .inl ⟨hg, by simpa using h.symm⟩
      · rename_i hg
        exact .inr ⟨by simpa using hg, by simpa using h.symm⟩

/-- A RESOLVE whose tag matches a legal, indexable entry completes, with or without error. -/
theorem execResolve_of_legal {s : State} {i : Nat} {e : RomEntry}
    (hs : romLookup s.rom s.tagKey = some (i, e)) (hl : e.legal = true) (hi : i < 256)
    (hm : maxDimLegal s.maxDim = true) :
    execResolve s = .next (if geometryOk s.maxDim e.desc s.W s.H then (s.setResolution i e).complete
      else s.raiseResolveErr .invalidGeometry) := by
  unfold execResolve
  rw [hs]
  simp only [hl, hi, hm, decide_true, Bool.and_self, Bool.not_true, Bool.false_eq_true, if_false]
  split <;> rfl

theorem execResolve_of_none {s : State} (hs : romLookup s.rom s.tagKey = none) :
    execResolve s = .next (s.raiseResolveErr .unsupportedFormat) := by
  unfold execResolve
  rw [hs]

/-- The operation a variant code selects is the DECODE of that variant (R92). -/
theorem decodeVariant_exec {v : Variant} {i : Instr} (h : decodeVariant v.code = .ok i) :
    ∃ body, (∀ s, exec i s = decodeWith v body s) ∧
      ∀ d W H, d.variant = v.code → body d W H = bodyMoves d W H := by
  cases v <;> cases h
  all_goals
    refine ⟨_, fun s => rfl, fun d W H hd => ?_⟩
    unfold bodyMoves
    rw [hd]
    rfl

/-- Everything a DECODE can answer as a next state, by the variant that selects it. -/
theorem exec_decode_next {v : Variant} {i : Instr} (h : decodeVariant v.code = .ok i) {s t : State}
    (ht : exec i s = .next t) :
    (s.resolved = false ∧ t = s.raiseErr .sequence) ∨
    (s.resolved = true ∧ s.desc.legal = true ∧ s.desc.variant = v.code ∧
      ∃ c, s.windowError s.desc = some c ∧ t = s.raiseErr c) ∨
    (s.resolved = true ∧ s.desc.legal = true ∧ s.desc.variant = v.code ∧ s.WindowsOk s.desc ∧
      t = (s.runMoves (bodyMoves s.desc s.W s.H)).complete) := by
  obtain ⟨body, hx, hb⟩ := decodeVariant_exec h
  rw [hx] at ht
  rcases decodeWith_next ht with h1 | h2 | ⟨h3, h4, h5, h6, h7⟩
  · exact .inl h1
  · exact .inr (.inl h2)
  · rw [hb _ _ _ h5] at h7
    exact .inr (.inr ⟨h3, h4, h5, h6, h7⟩)

/-- A DECODE of any variant with RESOLVED = 0 reports SEQUENCE (R155). -/
theorem decodeWith_unresolved {v : Variant} {body : Descriptor → Nat → Nat → List Move} {s : State}
    (h : s.resolved = false) : decodeWith v body s = .next (s.raiseErr .sequence) := by
  simp [decodeWith, h]

/-- A DECODE that reaches its body carries it out and completes. -/
theorem exec_decode_body {v : Variant} {i : Instr} (h : decodeVariant v.code = .ok i) {s : State}
    (hr : s.resolved = true) (hl : s.desc.legal = true) (hv : s.desc.variant = v.code)
    (hw : s.WindowsOk s.desc) :
    exec i s = .next (s.runMoves (bodyMoves s.desc s.W s.H)).complete := by
  obtain ⟨body, hx, hb⟩ := decodeVariant_exec h
  rw [hx, decodeWith_body hr hl hv hw, hb _ _ _ hv]

/-- Every operation is NOP, RESOLVE, CLOSE or the DECODE of one variant (R93). -/
theorem instr_cases (i : Instr) :
    i = .nop ∨ i = .resolve ∨ i = .close ∨ ∃ v : Variant, decodeVariant v.code = .ok i := by
  cases i
  · exact .inl rfl
  · exact .inr (.inl rfl)
  · exact .inr (.inr (.inl rfl))
  · exact .inr (.inr (.inr ⟨.planar, rfl⟩))
  · exact .inr (.inr (.inr ⟨.nvSemiplanar, rfl⟩))
  · exact .inr (.inr (.inr ⟨.p01xSemiplanar16, rfl⟩))
  · exact .inr (.inr (.inr ⟨.packedYuv422, rfl⟩))
  · exact .inr (.inr (.inr ⟨.packedRgb24, rfl⟩))
  · exact .inr (.inr (.inr ⟨.packedRgb32, rfl⟩))
  · exact .inr (.inr (.inr ⟨.packedRgb48, rfl⟩))

/-! ## The completion step -/

theorem dispatchWord_low (s : State) : s.dispatchWord.extractLsb' 0 32 = s.pending := by
  unfold State.dispatchWord
  ext i hi
  simp only [BitVec.getElem_extractLsb', BitVec.getLsbD_append]
  simp [hi]

theorem dispatchWord_high (s : State) : s.dispatchWord.extractLsb' 32 3 = s.desc.variant := by
  unfold State.dispatchWord State.desc Descriptor.unpack State.descWord
  ext i hi
  simp only [BitVec.getElem_extractLsb', BitVec.getLsbD_append, BitVec.getLsbD_extractLsb']
  have h32 : i < 32 := by omega
  simp [hi, h32]

/-- What `decode` reads of a dispatch word, in terms of PENDING and the resolved variant. -/
theorem decode_dispatch (s : State) :
    decode s.dispatchWord =
      if s.pending = 0 then .ok .nop
      else if s.pending = 1 then .ok .resolve
      else if s.pending = 2 then decodeVariant s.desc.variant
      else if s.pending = 3 then .ok .close
      else if s.pending.extractLsb' 4 28 ≠ 0 then .error .nonzeroHighBits
      else .error .reservedOpcode := by
  have h1 : s.dispatchWord.extractLsb' 4 28 = s.pending.extractLsb' 4 28 := by
    rw [← dispatchWord_low s]
    ext i hi
    simp [BitVec.getElem_extractLsb']
  have h2 : s.dispatchWord.extractLsb' 0 4 = s.pending.extractLsb' 0 4 := by
    rw [← dispatchWord_low s]
    ext i hi
    simp [BitVec.getElem_extractLsb']
  unfold decode
  rw [h1, h2, dispatchWord_high]
  generalize s.desc.variant = v
  generalize s.pending = c
  by_cases hz : c.extractLsb' 4 28 = 0
  · have hc : c.toNat < 16 := by
      have := congrArg BitVec.toNat hz
      simp [BitVec.extractLsb'_toNat, Nat.shiftRight_eq_div_pow] at this
      have := c.isLt
      omega
    have hlo : (c.extractLsb' 0 4).toNat = c.toNat := by
      simp [BitVec.extractLsb'_toNat]
      omega
    have e0 : c = 0 ↔ c.toNat = 0 := by rw [← BitVec.toNat_inj]; rfl
    have e1 : c = 1 ↔ c.toNat = 1 := by rw [← BitVec.toNat_inj]; rfl
    have e2 : c = 2 ↔ c.toNat = 2 := by rw [← BitVec.toNat_inj]; rfl
    have e3 : c = 3 ↔ c.toNat = 3 := by rw [← BitVec.toNat_inj]; rfl
    simp only [hz, ne_eq, not_true_eq_false, if_false, hlo, e0, e1, e2, e3]
    generalize c.toNat = n at *
    split <;> simp_all
  · have e0 : c ≠ 0 := by rintro rfl; exact hz (by decide)
    have e1 : c ≠ 1 := by rintro rfl; exact hz (by decide)
    have e2 : c ≠ 2 := by rintro rfl; exact hz (by decide)
    have e3 : c ≠ 3 := by rintro rfl; exact hz (by decide)
    rw [if_pos hz, if_neg e0, if_neg e1, if_neg e2, if_neg e3, if_pos hz]

/-- Where the dispatch word selects an operation, PENDING is that operation's command word. -/
theorem pending_of_decode {s : State} {i : Instr} (h : decode s.dispatchWord = .ok i) :
    s.pending = commandWord i := by
  rw [decode_dispatch] at h
  split_ifs at h with h0 h1 h2 h3
  · cases h; exact h0
  · cases h; exact h1
  · rw [h2]
    unfold decodeVariant at h
    split at h <;> first | (cases h; rfl) | cases h
  · cases h; exact h3

/-- Everything the completion step of a word that is no operation can answer (R100, R223). -/
theorem completeIllegal_next {e : DecodeError} {s t : State} (h : completeIllegal e s = .next t) :
    (e ≠ .reservedVariant ∧ t = s.raiseErr .illegalCmd) ∨
    (e = .reservedVariant ∧ s.resolved = false ∧ t = s.raiseErr .sequence) ∨
    (e = .reservedVariant ∧ s.resolved = true ∧ s.desc.fieldsLegal = true ∧
      t = s.raiseErr ((s.windowError s.desc).getD .illegalCmd)) := by
  cases e
  · exact .inl ⟨by decide, by simpa [completeIllegal, completeMalformed] using h.symm⟩
  · exact .inl ⟨by decide, by simpa [completeIllegal, completeMalformed] using h.symm⟩
  · right
    simp only [completeIllegal, completeReservedVariant] at h
    split_ifs at h with h1 h2
    · exact .inl ⟨rfl, by simpa using h1, by simpa using h.symm⟩
    · exact .inr ⟨rfl, by simpa using h1, by simpa using h2, by simpa using h.symm⟩

/-- Everything a completion step can answer: the operation's own answer, or the report of a word that is
no operation. -/
theorem completion_next {s t : State} (h : completion s = .next t) :
    (∃ i, decode s.dispatchWord = .ok i ∧ exec i s = .next t) ∨
    (∃ e, decode s.dispatchWord = .error e ∧ completeIllegal e s = .next t) := by
  unfold completion at h
  split at h
  · rename_i i hi
    exact .inl ⟨i, hi, h⟩
  · rename_i e he
    exact .inr ⟨e, he, h⟩

/-- A DECODE with VARIANT 7 and no other reserved field reports the first test that fails, else
ILLEGAL_CMD (R154, R227). -/
theorem completion_reservedVariant {s : State} (hp : s.pending = 2) (hv : s.desc.variant = 7)
    (hf : s.desc.fieldsLegal = true) (hr : s.resolved = true) :
    completion s = .next (s.raiseErr ((s.windowError s.desc).getD .illegalCmd)) := by
  have hd : decode s.dispatchWord = .error .reservedVariant := by
    rw [decode_dispatch, hp, hv]
    rfl
  unfold completion
  rw [hd]
  simp [completeIllegal, completeReservedVariant, hr, hf]

/-- Everything a completion step can answer, as a shape: an error report, a resolution that succeeded or
failed, a NOP, a CLOSE, or a body carried out. -/
theorem completion_shape {s t : State} (h : completion s = .next t) :
    (s.pending = 0 ∧ t = s.complete) ∨
    (s.pending = 1 ∧ execResolve s = .next t) ∨
    (s.pending = 3 ∧ execClose s = .next t) ∨
    (s.pending ≠ 0 ∧ s.pending ≠ 1 ∧ s.pending ≠ 3 ∧ ∃ c, t = s.raiseErr c ∧
      (c = .sequence → s.resolved = false) ∧
      ((c = .dstConfig ∨ c = .range) → s.resolved = true) ∧
      c ≠ .unsupportedFormat ∧ c ≠ .invalidGeometry) ∨
    (s.pending = 2 ∧ s.resolved = true ∧ s.desc.legal = true ∧ s.WindowsOk s.desc ∧
      t = (s.runMoves (bodyMoves s.desc s.W s.H)).complete) := by
  have hwe : ∀ c, s.windowError s.desc = some c → c = .dstConfig ∨ c = .range := by
    intro c hc
    unfold State.windowError at hc
    split_ifs at hc <;> simp_all
  rcases completion_next h with ⟨i, hi, hx⟩ | ⟨e, he, hx⟩
  · have hp := pending_of_decode hi
    rcases instr_cases i with rfl | rfl | rfl | ⟨v, hv⟩
    · exact .inl ⟨hp, by simpa [exec, execNop] using hx.symm⟩
    · exact .inr (.inl ⟨hp, hx⟩)
    · exact .inr (.inr (.inl ⟨hp, hx⟩))
    · have hp2 : s.pending = 2 := by
        rw [hp]
        cases v <;> cases hv <;> rfl
      rcases exec_decode_next hv hx with ⟨h1, h2⟩ | ⟨h1, _, _, c, h4, h5⟩ | ⟨h1, h2, h3, h4, h5⟩
      · refine .inr (.inr (.inr (.inl ⟨by rw [hp2]; decide, by rw [hp2]; decide, by rw [hp2]; decide,
          _, h2, fun _ => h1, by simp, by simp, by simp⟩)))
      · refine .inr (.inr (.inr (.inl ⟨by rw [hp2]; decide, by rw [hp2]; decide, by rw [hp2]; decide,
          _, h5, ?_, fun _ => h1, ?_, ?_⟩))) <;> rcases hwe c h4 with rfl | rfl <;> simp
      · exact .inr (.inr (.inr (.inr ⟨hp2, h1, h2, h4, h5⟩)))
  · have hne : s.pending ≠ 0 ∧ s.pending ≠ 1 ∧ s.pending ≠ 3 := by
      rw [decode_dispatch] at he
      refine ⟨?_, ?_, ?_⟩ <;> intro hp <;> simp [hp] at he
    refine .inr (.inr (.inr (.inl ⟨hne.1, hne.2.1, hne.2.2, ?_⟩)))
    rcases completeIllegal_next hx with ⟨_, h1⟩ | ⟨_, h1, h2⟩ | ⟨_, h1, _, h2⟩
    · exact ⟨_, h1, by simp, by simp, by simp, by simp⟩
    · exact ⟨_, h2, fun _ => h1, by simp, by simp, by simp⟩
    · refine ⟨_, h2, ?_⟩
      cases hw : s.windowError s.desc with
      | none => simp
      | some c => rcases hwe c hw with rfl | rfl <;> simp [h1]

/-! ## The step -/

/-- Everything a step can answer: what the engine answers at its turn, or what the next action of the
outside world answers, taken off the list. -/
theorem step_next {s t : State} (h : step s = .next t) :
    (s.inputs = [] ∧ engineStep s = .next t) ∨
    (∃ a rest, s.inputs = a :: rest ∧ hostStep a { s with inputs := rest } = .next t) := by
  unfold step at h
  split at h
  · rename_i hi
    exact .inl ⟨hi, h⟩
  · rename_i a rest hi
    exact .inr ⟨a, rest, hi, h⟩

theorem step_cons {s : State} {a : HostAction} {rest : List HostAction} (h : s.inputs = a :: rest) :
    step s = hostStep a { s with inputs := rest } := by
  unfold step
  rw [h]

theorem step_nil {s : State} (h : s.inputs = []) : step s = engineStep s := by
  unfold step
  rw [h]

theorem engineStep_busy {s : State} (h : s.seq = .busy) : engineStep s = completion s := by
  unfold engineStep
  rw [h]

theorem engineStep_idle {s : State} (h : s.seq = .idle) : engineStep s = .next s := by
  unfold engineStep
  rw [h]

/-- At the engine's turn a step is the completion step, the input that gave the turn taken off. -/
theorem step_engineTurn {s : State} (h : s.EngineTurn) :
    step s = completion { s with inputs := s.inputs.tail } := by
  obtain ⟨hb, hi⟩ := h
  cases hs : s.inputs with
  | nil =>
    rw [step_nil hs, engineStep_busy hb]
    congr 1
    cases s
    simp_all
  | cons a rest =>
    rw [hs] at hi
    obtain rfl : a = .wait := by simpa using hi
    rw [step_cons hs]
    exact engineStep_busy hb

/-- An error completion after the input that gave the turn is taken off. -/
theorem State.raiseErr_tail (s : State) (code : ErrCode) :
    State.raiseErr code { s with inputs := s.inputs.tail } = s.reportAtTurn code.code := rfl

/-- Everything a register write can answer (R46, R64). -/
theorem hostRegWrite_next {w : AccessWidth} {off : Nat} {v : Word} {s t : State}
    (h : hostRegWrite w off v s = .next t) : regAccessOk w off = true ∧ t = s.writeOffset off v := by
  unfold hostRegWrite at h
  split at h
  · rename_i h1
    exact ⟨h1, by simpa using h.symm⟩
  · cases h

/-- Everything a register read can answer (R46, R64). -/
theorem hostRegRead_next {w : AccessWidth} {off : Nat} {s t : State}
    (h : hostRegRead w off s = .next t) :
    regAccessOk w off = true ∧ t = { s with rdata := s.readOffset off } := by
  unfold hostRegRead at h
  split at h
  · rename_i h1
    exact ⟨h1, by simpa using h.symm⟩
  · cases h

/-- What `touches` asks. -/
theorem touches_iff {f : Nat → Bool} {a n : Nat} :
    touches f a n = true ↔ ∃ i < n, f (a + i) = true := by
  simp [touches]

/-- The source window as a range of addresses (R11). -/
theorem inSourceWindow_iff {s : State} {a : Nat} :
    s.inSourceWindow a = true ↔
      s.srcBase.toNat ≤ a ∧ a < s.srcBase.toNat + s.payloadSize.toNat := by
  simp [State.inSourceWindow]

/-- The footprints of the used planes as ranges of addresses (R11). -/
theorem inSomeFootprint_iff {s : State} {a : Nat} :
    s.inSomeFootprint a = true ↔
      ∃ p ∈ usedPlanes s.desc, s.dstBase p ≤ a ∧ a < s.footprintEnd s.desc p := by
  simp [State.inSomeFootprint, State.inFootprint]

/-- Everything a store to SRC can answer (R43, R257). -/
theorem hostSrcStore_next {a : Nat} {bs : List Byte} {s t : State}
    (h : hostSrcStore a bs s = .next t) :
    a + bs.length ≤ spaceSize ∧ t = { s with src := Mem.writeBytes s.src a bs } := by
  unfold hostSrcStore at h
  split_ifs at h with h1
  exact ⟨by omega, by simpa using h.symm⟩

/-- Everything a store to DST can answer (R43, R260). -/
theorem hostDstStore_next {a : Nat} {bs : List Byte} {s t : State}
    (h : hostDstStore a bs s = .next t) :
    a + bs.length ≤ spaceSize ∧ t = { s with dst := Mem.writeBytes s.dst a bs } := by
  unfold hostDstStore at h
  split_ifs at h with h1
  exact ⟨by omega, by simpa using h.symm⟩

/-- Everything a load of DST can answer (R43, R72). -/
theorem hostDstLoad_next {a : Nat} {s t : State} (h : hostDstLoad a s = .next t) :
    a < spaceSize ∧ t = { s with rdata := (Mem.read s.dst a).setWidth 32 } := by
  unfold hostDstLoad at h
  split_ifs at h with h1
  exact ⟨by omega, by simpa using h.symm⟩

/-- Everything a register write does (R46, R47, R150). -/
theorem writeOffset_cases (s : State) (off : Nat) (v : Word) :
    (s.seq = .busy ∧ s.writeOffset off v = s.setOvr) ∨
    (s.seq = .idle ∧ ∃ r, regAt off = some r ∧ s.writeOffset off v = s.writeReg r v) ∨
    (s.seq = .idle ∧ regAt off = none ∧ s.writeOffset off v = s) := by
  unfold State.writeOffset
  cases hs : s.seq with
  | busy => exact .inl ⟨rfl, rfl⟩
  | idle =>
    right
    cases hr : regAt off with
    | none => exact .inr ⟨rfl, rfl, rfl⟩
    | some r => exact .inl ⟨rfl, r, rfl, rfl⟩

/-- The register map and the offsets agree (R20). -/
theorem regAt_offset (r : Reg) : regAt r.offset = some r := by cases r <;> rfl

theorem offset_of_regAt {off : Nat} {r : Reg} (h : regAt off = some r) : off = r.offset := by
  unfold regAt at h
  split at h <;> first | (cases h; rfl) | cases h

end Sys2Proof.Machine
end

