-- ==== Sys2Proof/Tests/Slice0.lean ====
section
/-! SUPPORT. Tests: every expected value is the spec's own (the table or vector a comment names) or worked
out from a rule by hand; and, for every statement with hypotheses, a concrete case that meets them. -/

namespace Sys2Proof.Tests

open Sys2Proof Sys2Proof.Machine

/-! ## Helpers -/

/-- The state after an outcome, the reset state where there is none. -/
def after (o : Host.Outcome State Fault Refusal) : State :=
  match o with
  | .next t => t
  | _ => State.reset

/-- `SETTAG` and `SETGEOM` with the command `c` in flight. -/
def cmd (c : Word) (t0 t1 t2 w h : Word) : State :=
  { State.reset with seq := .busy, pending := c, tag0 := t0, tag1 := t1, tag2 := t2, width := w, height := h }

/-- A DECODE in flight with entry `n` of the reference ROM resolved for `w` by `h`, the bases of
`95_test_vectors.md` and the given strides and payload. -/
def vec (n : Nat) (w h : Nat) (s0 s1 s2 : Word) (payload : List Byte) : State :=
  let e : RomEntry := Config.referenceRom.getD n 0
  { State.reset with
    seq := .busy, pending := 2, resolved := true
    tag0 := e.extractLsb' 64 32, tag1 := e.extractLsb' 96 32, tag2 := e.extractLsb' 128 32
    width := BitVec.ofNat 32 w, height := BitVec.ofNat 32 h
    fmtIndex := BitVec.ofNat 8 n, descLo := e.extractLsb' 0 32, descHi := e.extractLsb' 32 32
    payloadSize := BitVec.ofNat 32 payload.length, srcBase := 0x100
    dstBase0 := 0x1000, dstBase1 := 0x2000, dstBase2 := 0x3000
    dstStride0 := s0, dstStride1 := s1, dstStride2 := s2
    src := Mem.writeBytes [] 0x100 payload }

/-- The first `n` bytes of each plane after a step, and STATUS. -/
def planesAfter (n : Nat) (s : State) : List Byte × List Byte × List Byte × Word :=
  let t := after (step s)
  (Mem.readBytes t.dst 0x1000 n, Mem.readBytes t.dst 0x2000 n, Mem.readBytes t.dst 0x3000 n, t.statusWord)

/-- The decidable form of `State.DecodeReady`. -/
def readyB (s : State) (v : Variant) : Bool :=
  s.resolved && s.desc.legal && s.desc.variant == v.code && geometryOk s.maxDim s.desc s.W s.H &&
  s.payloadSize.toNat == payloadBytes s.desc s.W s.H && (s.windowError s.desc).isNone &&
  s.footprintsDisjoint s.desc

theorem ready_of {s : State} {v : Variant} (h : readyB s v = true) : s.DecodeReady v := by
  simp only [readyB, Bool.and_eq_true, beq_iff_eq, Option.isNone_iff_eq_none] at h
  obtain ⟨⟨⟨⟨⟨⟨h1, h2⟩, h3⟩, h4⟩, h5⟩, h6⟩, h7⟩ := h
  exact ⟨h1, h2, h3, h4, h5, State.windowsOk_iff.2 ⟨h6, h7⟩⟩

/-- The decidable form of `State.Inv`. -/
def invB (s : State) : Bool :=
  Mem.wf s.src && Mem.wf s.dst && (s.seq == .idle || (!s.done && !s.err)) && !(s.done && s.err) &&
  (decide (s.errCode ≠ 0) == s.err) && decide (s.errCode.toNat ≤ 6) &&
  if s.resolved then
    (match romLookup s.rom s.tagKey with
      | some (i, e) => i == s.fmtIndex.toNat && e.legal && s.descWord == e.descWord
      | none => false) &&
    geometryOk s.maxDim s.desc s.W s.H && s.payloadSize.toNat == payloadBytes s.desc s.W s.H &&
    maxDimLegal s.maxDim
  else s.fmtIndex == 0 && s.descLo == 0 && s.descHi == 0 && s.payloadSize == 0

theorem inv_of {s : State} (h : invB s = true) : s.Inv := by
  simp only [invB, Bool.and_eq_true] at h
  obtain ⟨⟨⟨⟨⟨⟨h1, h2⟩, h3⟩, h4⟩, h5⟩, h6⟩, h7⟩ := h
  refine ⟨h1, h2, ⟨fun hb => ?_, fun hd => ?_, ?_, of_decide_eq_true h6⟩, fun hr => ?_, fun hr => ?_⟩
  · simpa [hb] using h3
  · simp [hd.1, hd.2] at h4
  · simp only [beq_iff_eq] at h5
    rw [← h5, decide_eq_true_iff]
  · simp only [hr, if_true, Bool.and_eq_true, beq_iff_eq] at h7
    obtain ⟨⟨⟨h7, h8⟩, h9⟩, h10⟩ := h7
    cases hl : romLookup s.rom s.tagKey with
    | none => simp [hl] at h7
    | some x =>
      obtain ⟨i, e⟩ := x
      simp only [hl, Bool.and_eq_true, beq_iff_eq] at h7
      exact ⟨⟨e, by rw [hl, h7.1.1], h7.1.2, h7.2⟩, h8, h9, h10⟩
  · simp only [hr, Bool.false_eq_true, if_false, Bool.and_eq_true, beq_iff_eq] at h7
    exact ⟨h7.1.1.1, h7.1.1.2, h7.1.2, h7.2⟩

/-! ## Well-formedness: for each check a term it refuses -/

/-- I420's descriptor (R95's worked example). -/
def i420 : Descriptor := Descriptor.unpack 0x0007080C02292100

/-- NV12's, P010's, YUY2's, RGB's, RGBA's and RGB48's (`95_test_vectors.md` 2.1). -/
def nv12 : Descriptor := Descriptor.unpack 0x0007080C02292101
def p010 : Descriptor := Descriptor.unpack 0x0007101802292102
def yuy2 : Descriptor := Descriptor.unpack 0x0007081001220103
def rgb : Descriptor := Descriptor.unpack 0x000B081801192104
def rgba : Descriptor := Descriptor.unpack 0x000B082001192105
def rgb48 : Descriptor := Descriptor.unpack 0x000B103001192106
def y8 : Descriptor := Descriptor.unpack 0x0001080801199900

theorem test_wf_fields : i420.fieldsLegal = true ∧
    (Descriptor.fieldsLegal { i420 with order0 := 3 }) = false ∧
    (Descriptor.fieldsLegal { i420 with order1 := 8 }) = false ∧
    (Descriptor.fieldsLegal { i420 with order2 := 10 }) = false ∧
    (Descriptor.fieldsLegal { i420 with order3 := 15 }) = false ∧
    (Descriptor.fieldsLegal { i420 with subH := 0 }) = false ∧
    (Descriptor.fieldsLegal { i420 with subV := 3 }) = false ∧
    (Descriptor.fieldsLegal { i420 with depth := 7 }) = false ∧
    (Descriptor.fieldsLegal { i420 with depth := 17 }) = false ∧
    (Descriptor.fieldsLegal { i420 with planes := 2 }) = false ∧
    (Descriptor.fieldsLegal { i420 with family := 3 }) = false := by decide

theorem test_wf_zero_bits :
    (Descriptor.fieldsLegal { i420 with zeroA := 1 }) = false ∧
    (Descriptor.fieldsLegal { i420 with zeroB := 8 }) = false ∧
    (Descriptor.fieldsLegal { i420 with zeroC := 1 }) = false ∧
    (Descriptor.fieldsLegal { i420 with zeroD := 0x800 }) = false := by decide

theorem test_wf_canonical : i420.canonicalLegal = true ∧
    (Descriptor.canonicalLegal { i420 with family := 0 }) = false ∧
    (Descriptor.canonicalLegal { y8 with variant := 1 }) = false ∧
    (Descriptor.canonicalLegal { y8 with subH := 2 }) = false ∧
    (Descriptor.canonicalLegal { y8 with subV := 2 }) = false ∧
    (Descriptor.canonicalLegal { i420 with family := 2 }) = false := by decide

theorem test_wf_planar : i420.planarLegal = true ∧ y8.planarLegal = true ∧
    (Descriptor.planarLegal { i420 with order1 := 0 }) = false ∧
    (Descriptor.planarLegal { i420 with order3 := 0 }) = false ∧
    (Descriptor.planarLegal { y8 with order0 := 1 }) = false ∧
    (Descriptor.planarLegal { y8 with order1 := 1 }) = false := by decide

theorem test_wf_semiplanar : nv12.legal = true ∧ p010.legal = true ∧
    (Descriptor.semiPlanarLegal { nv12 with order0 := 1 }) = false ∧
    (Descriptor.semiPlanarLegal { nv12 with order1 := 2 }) = false ∧
    (Descriptor.semiPlanarLegal { nv12 with order3 := 0 }) = false ∧
    (Descriptor.legal { nv12 with depth := 9, bpp := 24 }) = false ∧
    (Descriptor.legal { nv12 with subH := 4, bpp := 10 }) = false ∧
    (Descriptor.legal { p010 with depth := 8, bpp := 12 }) = false := by decide

theorem test_wf_yuv422 : yuy2.legal = true ∧
    (Descriptor.yuv422Legal { yuy2 with order3 := 0 }) = false ∧
    (Descriptor.yuv422Legal { yuy2 with order2 := 9 }) = false ∧
    (Descriptor.yuv422Legal { yuy2 with depth := 10 }) = false ∧
    (Descriptor.yuv422Legal { yuy2 with subH := 1 }) = false ∧
    (Descriptor.yuv422Legal { yuy2 with subV := 2 }) = false ∧
    (Descriptor.legal { yuy2 with bpp := 24 }) = false := by decide

theorem test_wf_packed_rgb : rgb.legal = true ∧ rgba.legal = true ∧ rgb48.legal = true ∧
    (Descriptor.packedLegal { rgb with subH := 2 }) = false ∧
    (Descriptor.trailingOrder { rgb with order3 := 0 }) = false ∧
    (Descriptor.legal { rgb with depth := 9 }) = false ∧
    (Descriptor.legal { rgb with order0 := 9, order1 := 0, order2 := 1, order3 := 2 }) = false ∧
    (Descriptor.legal { rgba with order1 := 9, order3 := 1 }) = false ∧
    (Descriptor.legal { rgba with bpp := 24 }) = false ∧
    (Descriptor.legal { rgb48 with depth := 8 }) = false := by decide

theorem test_wf_bpp_and_variant :
    (Descriptor.planeBppLegal { i420 with bpp := 16 }) = false ∧
    (Descriptor.planeBppLegal { y8 with bpp := 16 }) = false ∧
    (Descriptor.variantLegal { i420 with variant := 7 }) = false := by decide

theorem test_wf_name :
    nameLegal [0x49, 0x34, 0x32, 0x30, 0, 0, 0, 0, 0, 0, 0, 0] = true ∧
    nameLegal (List.replicate 12 0) = false ∧
    nameLegal [0x49, 0, 0x32, 0, 0, 0, 0, 0, 0, 0, 0, 0] = false ∧
    nameLegal [0x69, 0, 0, 0, 0, 0, 0, 0, 0, 0, 0, 0] = false ∧
    nameLegal [0x20, 0, 0, 0, 0, 0, 0, 0, 0, 0, 0, 0] = false ∧
    nameLegal [0x7F, 0, 0, 0, 0, 0, 0, 0, 0, 0, 0, 0] = false ∧
    nameLegal [0x49] = false := by decide

theorem test_wf_table : Rom.legal Config.referenceRom = true ∧
    Rom.hasRequiredEntries Config.referenceRom = true ∧ Config.referenceRom.length = 50 ∧
    Rom.legal [] = false ∧ Rom.legal [0] = false ∧
    Rom.legal (Config.referenceRowsA ++ Config.referenceRowsA) = false := by decide

/-- R132(b), (c): I420 with YV12, NV12 with NV21, NV12 with NV61 (another SUB_V); an alias is no pair. -/
theorem test_wf_pairs :
    i420.isSwappedPair (Descriptor.unpack 0x0007080C02291200) = true ∧ i420.isSwappedPair i420 = false ∧
    i420.isSwappedPair { i420 with order1 := 2 } = false ∧
    nv12.isNvPair (Descriptor.unpack 0x0007080C02291201) = true ∧
    nv12.isNvPair (Descriptor.unpack 0x0007081001291201) = true ∧ nv12.isNvPair nv12 = false := by decide

theorem test_wf_maxdim : maxDimLegal 16383 = true ∧ maxDimLegal 65536 = false := by decide

theorem test_wf_register_access : regAccessOk .word 0xFC = true ∧ regAccessOk .word 0x100 = false ∧
    regAccessOk .word 2 = false ∧ regAccessOk .half 0 = false ∧ regAccessOk .byte 4 = false := by decide

/-! ## Decoding: words written out from R91 to R95 -/

/-- OPCODE 0, bits 31:4 zero; the variant bits are not looked at. -/
theorem test_decode_nop : decode 0x700000000 = .ok .nop := by decide
/-- OPCODE 1. -/
theorem test_decode_resolve : decode 0x000000001 = .ok .resolve := by decide
/-- OPCODE 3. -/
theorem test_decode_close : decode 0x200000003 = .ok .close := by decide
/-- OPCODE 2 with VARIANT 0 to 6 in bits 34:32. -/
theorem test_decode_planar : decode (0b000#3 ++ (2 : Word)) = .ok .decodePlanar := by decide
theorem test_decode_nv : decode (0b001#3 ++ (2 : Word)) = .ok .decodeNv := by decide
theorem test_decode_p01x : decode (0b010#3 ++ (2 : Word)) = .ok .decodeP01x := by decide
theorem test_decode_yuv422 : decode (0b011#3 ++ (2 : Word)) = .ok .decodeYuv422 := by decide
theorem test_decode_rgb24 : decode (0b100#3 ++ (2 : Word)) = .ok .decodeRgb24 := by decide
theorem test_decode_rgb32 : decode (0b101#3 ++ (2 : Word)) = .ok .decodeRgb32 := by decide
theorem test_decode_rgb48 : decode (0b110#3 ++ (2 : Word)) = .ok .decodeRgb48 := by decide

/-- `WR CMD, 4`, `0x0F`, `0x12` and `0x80000000` match no row (2.1). -/
theorem test_decode_illegal : decode 0x000000004 = .error .reservedOpcode ∧
    decode 0x00000000F = .error .reservedOpcode ∧ decode 0x000000012 = .error .nonzeroHighBits ∧
    decode 0x080000000 = .error .nonzeroHighBits := by decide

theorem test_table_words : decodeTableWord 40 0x300000002 = some .decodeYuv422 ∧
    decodeTableWord 40 0x000000003 = some .close ∧ decodeTableWord 32 0x00000001 = some .resolve ∧
    decodeTableWord 40 0x700000002 = none ∧ decodeTableWord 40 0x800000002 = none := by decide

/-- The row `ARGB` of 2.1, field by field. -/
theorem test_descriptor_argb : Descriptor.unpack 0x000B082001121095 =
    { variant := 5, zeroA := 0, order0 := 9, order1 := 0, order2 := 1, order3 := 2, subH := 1, subV := 1,
      zeroB := 0, bpp := 32, depth := 8, zeroC := 0, planes := 3, family := 2, zeroD := 0 } := by decide

/-- The row `YUV410P8` of 2.1, put together. -/
theorem test_descriptor_yuv410 : Descriptor.pack
    { variant := 0, zeroA := 0, order0 := 0, order1 := 1, order2 := 2, order3 := 9, subH := 4, subV := 4,
      zeroB := 0, bpp := 9, depth := 8, zeroC := 0, planes := 3, family := 1, zeroD := 0 } =
    0x0007080904492100 := by decide

/-- Entry 17 is `YUV420P10` (R135): its NAME bytes and its descriptor word. -/
theorem test_rom_entry : (Config.referenceRom.getD 17 0).nameBytes =
    [0x59, 0x55, 0x56, 0x34, 0x32, 0x30, 0x50, 0x31, 0x30, 0, 0, 0] ∧
    RomEntry.descWord (Config.referenceRom.getD 17 0) = 0x00070A1802292100 := by decide

/-! ## The fetch interface of the host -/

theorem test_fetch_nop : after (step (State.reset.withFetchWord 40 0x000000000)) =
    { State.reset with done := true } := by decide
/-- A DECODE right after reset is a SEQUENCE error (P5). -/
theorem test_fetch_decode :
    (after (step (State.reset.withFetchWord 40 0x400000002))).statusWord = 0x048 := by decide
theorem test_fetch_inputs :
    (({ State.reset with inputs := [.reset] } : State).withFetchWord 40 3).inputs = [.wait, .reset] := by
  decide

/-! ## One step: the vectors of `95_test_vectors.md` -/

/-- V-SYS-2: a NOP after an error report clears it. -/
theorem test_nop : (after (step (({ State.reset with err := true, errCode := 2 } : State).accept 0))).statusWord
    = 0x004 := by decide
/-- V-SYS-7: NOP does not clear OVR, nor the resolution. -/
theorem test_nop_keeps_ovr : (after (step { vec 0 4 2 4 4 4 [] with pending := 0, ovr := true })).statusWord
    = 0x106 := by decide

/-- V-SYS-8 and V-SYS-4: CLOSE clears RESOLVED, OVR and the resolution registers, not WIDTH. -/
theorem test_close : (after (step { vec 0 4 2 4 4 4 [] with pending := 3, ovr := true })).statusWord = 0x004 ∧
    (after (step { vec 0 4 2 4 4 4 [] with pending := 3 })).descLo = 0 ∧
    (after (step { vec 0 4 2 4 4 4 [] with pending := 3 })).width = 4 := by decide
/-- V-SYS-5: CLOSE with nothing resolved. -/
theorem test_close_unresolved : (after (step (cmd 3 0 0 0 0 0))).statusWord = 0x004 := by decide

/-- V-RES-12: `yuv420p10`, 4 by 4. -/
theorem test_resolve : (after (step (cmd 1 0x34767579 0x31703032 0x00000030 4 4))).statusWord = 0x006 ∧
    (after (step (cmd 1 0x34767579 0x31703032 0x00000030 4 4))).fmtIndex = 17 ∧
    (after (step (cmd 1 0x34767579 0x31703032 0x00000030 4 4))).descHi = 0x00070A18 ∧
    (after (step (cmd 1 0x34767579 0x31703032 0x00000030 4 4))).payloadSize = 48 := by decide
/-- V-RES-2, V-RES-8, V-RES-27, V-RES-23: 175 for 4:2:0, the empty tag, a bad tag with a bad geometry, a
width above MAXDIM. -/
theorem test_resolve_errors : (after (step (cmd 1 0x30323449 0 0 175 144))).statusWord = 0x028 ∧
    (after (step (cmd 1 0 0 0 176 144))).statusWord = 0x018 ∧
    (after (step (cmd 1 0x45504F4E 0 0 175 0))).statusWord = 0x018 ∧
    (after (step (cmd 1 0x30323449 0 0 16384 2))).statusWord = 0x028 := by decide

/-- V-PL-4: the direction of the permutation, `GBRP8`. -/
theorem test_planar_direction : planesAfter 4 (vec 26 2 1 4 4 4 [0x61, 0x62, 0xB1, 0xB2, 0xC1, 0xC2]) =
    ([0xC1, 0xC2, 0, 0], [0x61, 0x62, 0, 0], [0xB1, 0xB2, 0, 0], 0x006) := by decide
/-- V-PL-3: `GRAY16`, row by row over a wide stride. -/
theorem test_planar_rows : (planesAfter 16 (vec 15 2 2 8 0 0
    [0xA0, 0xA1, 0xA2, 0xA3, 0xA4, 0xA5, 0xA6, 0xA7])).1 =
    [0xA0, 0xA1, 0xA2, 0xA3, 0, 0, 0, 0, 0xA4, 0xA5, 0xA6, 0xA7, 0, 0, 0, 0] := by decide

/-- V-NV-2: `NV21`, one full group. -/
theorem test_nv : planesAfter 4 (vec 30 8 2 8 4 4
    [0x00, 0x01, 0x02, 0x03, 0x04, 0x05, 0x06, 0x07, 0x08, 0x09, 0x0A, 0x0B, 0x0C, 0x0D, 0x0E, 0x0F,
     0xA0, 0xB0, 0xA1, 0xB1, 0xA2, 0xB2, 0xA3, 0xB3]) =
    ([0x00, 0x01, 0x02, 0x03], [0xB0, 0xB1, 0xB2, 0xB3], [0xA0, 0xA1, 0xA2, 0xA3], 0x006) := by decide
/-- V-NV-3: `NV12` at 2 by 2, the assignments of the body: three bytes of each chroma row are left open. -/
theorem test_nv_tail : nvMoves nv12 2 2 =
    [⟨.p0, 0, 0, some 0⟩, ⟨.p0, 0, 1, some 1⟩, ⟨.p0, 1, 0, some 2⟩, ⟨.p0, 1, 1, some 3⟩,
     ⟨.p1, 0, 0, some 4⟩, ⟨.p2, 0, 0, some 5⟩, ⟨.p1, 0, 1, none⟩, ⟨.p2, 0, 1, none⟩,
     ⟨.p1, 0, 2, none⟩, ⟨.p2, 0, 2, none⟩, ⟨.p1, 0, 3, none⟩, ⟨.p2, 0, 3, none⟩] := by decide

/-- V-PX-2: `P216`. -/
theorem test_p01x : planesAfter 4 (vec 36 4 1 8 4 4
    [0x00, 0x01, 0x02, 0x03, 0x04, 0x05, 0x06, 0x07, 0xA0, 0xA1, 0xB0, 0xB1, 0xA2, 0xA3, 0xB2, 0xB3]) =
    ([0x00, 0x01, 0x02, 0x03], [0xA0, 0xA1, 0xA2, 0xA3], [0xB0, 0xB1, 0xB2, 0xB3], 0x006) := by decide
/-- V-PX-1: `P010`, no padding written. -/
theorem test_p01x_no_padding : planesAfter 4 (vec 33 2 2 4 4 4
    [0x00, 0x01, 0x02, 0x03, 0x04, 0x05, 0x06, 0x07, 0xA0, 0xA1, 0xB0, 0xB1]) =
    ([0x00, 0x01, 0x02, 0x03], [0xA0, 0xA1, 0, 0], [0xB0, 0xB1, 0, 0], 0x006) := by decide

/-- V-Y2-2: `UYVY`. -/
theorem test_yuv422 : planesAfter 4 (vec 39 4 1 4 4 4 [0x10, 0x20, 0x11, 0x30, 0x12, 0x21, 0x13, 0x31]) =
    ([0x20, 0x30, 0x21, 0x31], [0x10, 0x12, 0, 0], [0x11, 0x13, 0, 0], 0x006) := by decide
/-- V-Y2-5: `YUYV`, two rows, a wide luma stride. -/
theorem test_yuv422_rows : planesAfter 10 (vec 38 2 2 8 4 4
    [0x10, 0x20, 0x11, 0x30, 0x12, 0x21, 0x13, 0x31]) =
    ([0x10, 0x11, 0, 0, 0, 0, 0, 0, 0x12, 0x13], [0x20, 0, 0, 0, 0x21, 0, 0, 0, 0, 0],
     [0x30, 0, 0, 0, 0x31, 0, 0, 0, 0, 0], 0x006) := by decide

/-- V-R24-2: `BGR`. -/
theorem test_rgb24 : planesAfter 4 (vec 43 4 1 4 4 4
    [0x10, 0x11, 0x12, 0x20, 0x21, 0x22, 0x30, 0x31, 0x32, 0x40, 0x41, 0x42]) =
    ([0x12, 0x22, 0x32, 0x42], [0x11, 0x21, 0x31, 0x41], [0x10, 0x20, 0x30, 0x40], 0x006) := by decide
/-- V-R24-4: `BGR` at 1 by 1, the assignments of the body. -/
theorem test_rgb24_tail : rgb24Moves (Descriptor.unpack 0x000B081801190124) 1 1 =
    [⟨.p2, 0, 0, some 0⟩, ⟨.p1, 0, 0, some 1⟩, ⟨.p0, 0, 0, some 2⟩,
     ⟨.p0, 0, 1, none⟩, ⟨.p1, 0, 1, none⟩, ⟨.p2, 0, 1, none⟩,
     ⟨.p0, 0, 2, none⟩, ⟨.p1, 0, 2, none⟩, ⟨.p2, 0, 2, none⟩,
     ⟨.p0, 0, 3, none⟩, ⟨.p1, 0, 3, none⟩, ⟨.p2, 0, 3, none⟩] := by decide

/-- V-RT-11: `ABGR`, the leading byte dropped. -/
theorem test_rgb32_leading : planesAfter 4 (vec 47 4 1 4 4 4
    [0xFF, 0x30, 0x20, 0x10, 0xFF, 0x31, 0x21, 0x11, 0xFF, 0x32, 0x22, 0x12, 0xFF, 0x33, 0x23, 0x13]) =
    ([0x10, 0x11, 0x12, 0x13], [0x20, 0x21, 0x22, 0x23], [0x30, 0x31, 0x32, 0x33], 0x006) := by decide
/-- V-R32-5: `RGBA`, the fourth byte dropped. -/
theorem test_rgb32_trailing : planesAfter 4 (vec 44 4 1 4 4 4
    [0x01, 0x02, 0x03, 0x04, 0x05, 0x06, 0x07, 0x08, 0x09, 0x0A, 0x0B, 0x0C, 0x0D, 0x0E, 0x0F, 0x10]) =
    ([0x01, 0x05, 0x09, 0x0D], [0x02, 0x06, 0x0A, 0x0E], [0x03, 0x07, 0x0B, 0x0F], 0x006) := by decide

/-- V-R48-1: `RGB48`. -/
theorem test_rgb48 : planesAfter 4 (vec 48 2 1 4 4 4
    [0x00, 0x01, 0x02, 0x03, 0x04, 0x05, 0x06, 0x07, 0x08, 0x09, 0x0A, 0x0B]) =
    ([0x00, 0x01, 0x06, 0x07], [0x02, 0x03, 0x08, 0x09], [0x04, 0x05, 0x0A, 0x0B], 0x006) := by decide
/-- V-R48-2: `BGR48` at 1 by 2, no padding written. -/
theorem test_rgb48_rows : planesAfter 8 (vec 49 1 2 4 4 4
    [0x00, 0x01, 0x02, 0x03, 0x04, 0x05, 0x06, 0x07, 0x08, 0x09, 0x0A, 0x0B]) =
    ([0x04, 0x05, 0, 0, 0x0A, 0x0B, 0, 0], [0x02, 0x03, 0, 0, 0x08, 0x09, 0, 0],
     [0x00, 0x01, 0, 0, 0x06, 0x07, 0, 0], 0x006) := by decide

/-- The base state of V-ERR: I420, 4 by 2. -/
def errBase : State :=
  vec 0 4 2 4 4 4 [0x10, 0x11, 0x12, 0x13, 0x14, 0x15, 0x16, 0x17, 0x18, 0x19, 0x1A, 0x1B]

/-- V-ERR-2, 3, 4, 9: DST_CONFIG, tested before RANGE. -/
theorem test_dst_config : (after (step { errBase with dstBase1 := 0x2002 })).statusWord = 0x05A ∧
    (after (step { errBase with dstStride0 := 0 })).statusWord = 0x05A ∧
    (after (step { errBase with dstStride2 := 6 })).statusWord = 0x05A ∧
    (after (step { errBase with srcBase := 0xFFFFFFFF, dstStride2 := 5 })).statusWord = 0x05A := by decide
/-- V-ERR-5, 6, 7, 8, 10: RANGE at its boundary, the sums not reduced. -/
theorem test_range : (after (step { errBase with srcBase := 0xFFFFFFF5 })).statusWord = 0x06A ∧
    (after (step { errBase with srcBase := 0xFFFFFFF4 })).statusWord = 0x006 ∧
    (after (step { errBase with dstBase0 := 0xFFFFFFFC })).statusWord = 0x06A ∧
    (after (step { errBase with dstBase0 := 0xFFFFFFF8 })).statusWord = 0x006 ∧
    (after (step { errBase with dstBase0 := 0x80000000, dstStride0 := 0x80000000 })).statusWord = 0x06A := by
  decide
/-- V-ERR-11: registers of planes the format lacks are not looked at. -/
theorem test_unused_planes : (planesAfter 4 { vec 13 4 1 4 1 3 [0x10, 0x11, 0x12, 0x13] with
    dstBase1 := 0x2001, dstBase2 := 0xFFFFFFFF }).1 = [0x10, 0x11, 0x12, 0x13] := by decide
/-- V-SYS-10: an illegal command keeps the resolution. -/
theorem test_illegal_command : (after (step { errBase with pending := 7 })).statusWord = 0x03A := by decide
/-- R154: DECODE with VARIANT 7 is ILLEGAL_CMD only after the other tests. -/
theorem test_variant_7 : (after (step { errBase with descLo := 0x02292107 })).statusWord = 0x03A ∧
    (after (step { errBase with descLo := 0x02292107, dstStride0 := 0 })).statusWord = 0x05A ∧
    (after (step { errBase with descLo := 0x02292107, resolved := false })).statusWord = 0x048 := by decide

/-! ## One step: the host's actions -/

/-- A register write, as an input. -/
def wr (off : Nat) (v : Word) : HostAction := .regWrite .word off v

/-- V-SYS-9: a write while BUSY is discarded and sets OVR. -/
theorem test_overrun : (after (step { errBase with inputs := [wr 0 3] })).statusWord = 0x103 ∧
    (after (step { errBase with inputs := [wr 0 3] })).pending = 2 := by decide
/-- V-INV-1: WIDTH written with its own value drops the resolution and keeps DONE. -/
theorem test_invalidation : (after (step { errBase with seq := .idle, done := true, inputs := [wr 0x08 4] })).statusWord
    = 0x004 := by decide
/-- V-SYS-11: CMD and reserved offsets read 0; 0x2C is SRC_BASE. -/
theorem test_reads : errBase.readOffset 0 = 0 ∧ errBase.readOffset 0x48 = 0 ∧ errBase.readOffset 0xFC = 0 ∧
    errBase.readOffset 0x2C = 0x100 := by decide
/-- R62: byte 0 of a tag word is its lowest byte; R97: the key of `i420`, NUL, `zzz` (V-RES-7). -/
theorem test_tag_key : (cmd 1 0x30323469 0x7A7A7A00 0 4 2).tagKey =
    [0x49, 0x34, 0x32, 0x30, 0, 0, 0, 0, 0, 0, 0, 0] := by decide
/-- U5: the last byte of plane 0's footprint may not be read while the DECODE is in flight; one past it
may. -/
theorem test_hands_off : step { errBase with inputs := [.dstLoad 0x1007] } = .refused .dstTouchedDuringDecode ∧
    (after (step { errBase with inputs := [.dstLoad 0x1008] })).rdata = 0 := ⟨rfl, by decide⟩
/-- R43: the last address of SRC exists, the next does not. -/
theorem test_space_end :
    (after (step { State.reset with inputs := [.srcStore 0xFFFFFFFF [7]] })).src = [(0xFFFFFFFF, 7)] ∧
    step { State.reset with inputs := [.srcStore 0x100000000 [7]] } = .fault (.outsideAddressSpace 0x100000000) :=
  ⟨by decide, rfl⟩
/-- R250: reset while a command is in flight. -/
theorem test_reset_event : (after (step { cmd 1 0x30323449 0 0 4 2 with inputs := [.reset] })).seq = .idle ∧
    (after (step { cmd 1 0x30323449 0 0 4 2 with inputs := [.reset] })).width = 0 := by decide

/-! ## Witnesses: a concrete case that meets the hypotheses of each statement that has some -/

theorem exec_next_of_ready {v : Variant} {i : Instr} {s : State} (h : decodeVariant v.code = .ok i)
    (r : s.DecodeReady v) : ∃ t, exec i s = .next t :=
  ⟨_, exec_decode_body h r.resolved r.legal r.variant r.windows⟩

/-- An idle state with one register write to come. -/
def writing (off : Nat) (v : Word) : State := { State.reset with inputs := [wr off v] }

/-- A state that is ready for each DECODE: the payload's bytes do not matter. -/
def rPlanar : State := errBase
def rNv : State := vec 29 8 2 8 4 4 (List.replicate 24 1)
def rP01x : State := vec 33 2 2 4 4 4 (List.replicate 12 1)
def rYuv : State := vec 37 4 1 4 4 4 (List.replicate 8 1)
def rRgb24 : State := vec 42 4 1 4 4 4 (List.replicate 12 1)
def rRgb32 : State := vec 44 4 1 4 4 4 (List.replicate 16 1)
def rRgb32Lead : State := vec 46 4 1 4 4 4 (List.replicate 16 1)
def rRgb48 : State := vec 48 2 1 4 4 4 (List.replicate 12 1)

theorem witness_DecodePlanarCopiesPlanes : rPlanar.DecodeReady .planar ∧
    rPlanar.desc.order 0 = Plane.p0.code ∧ rPlanar.desc.order 2 = Plane.p2.code ∧
    1 < planeHeight rPlanar.desc rPlanar.H .p0 ∧ 3 < rowBytes rPlanar.desc rPlanar.W .p0 ∧
    0 < planeHeight rPlanar.desc rPlanar.H .p2 ∧ 1 < rowBytes rPlanar.desc rPlanar.W .p2 :=
  ⟨ready_of (by decide), by decide⟩
theorem witness_DecodeNvSplitsBytePairs : rNv.DecodeReady .nvSemiplanar ∧
    rNv.desc.order 1 = Plane.p1.code ∧ rNv.desc.order 2 = Plane.p2.code ∧
    1 < rNv.H ∧ 7 < rNv.W ∧ 0 < rNv.H / rNv.desc.subV.toNat ∧ 3 < rNv.W / 2 :=
  ⟨ready_of (by decide), by decide⟩
theorem witness_DecodeP01xSplitsSamplePairs : rP01x.DecodeReady .p01xSemiplanar16 ∧
    rP01x.desc.order 1 = Plane.p1.code ∧ rP01x.desc.order 2 = Plane.p2.code ∧ 3 < 2 * rP01x.W ∧
    0 < rP01x.H / rP01x.desc.subV.toNat ∧ 0 < rP01x.W / rP01x.desc.subH.toNat :=
  ⟨ready_of (by decide), by decide⟩
theorem witness_DecodeYuv422ScattersMacropixels : rYuv.DecodeReady .packedYuv422 ∧
    rYuv.desc.order 0 = 0 ∧ rYuv.desc.order 2 = 0 ∧ rYuv.desc.order 1 = 1 ∧ rYuv.desc.order 3 = 2 ∧
    0 < rYuv.H ∧ 1 < rYuv.W / 2 :=
  ⟨ready_of (by decide), by decide⟩
theorem witness_DecodeRgb24SplitsPixels : rRgb24.DecodeReady .packedRgb24 ∧
    rRgb24.desc.order 2 = Plane.p2.code ∧ 0 < rRgb24.H ∧ 3 < rRgb24.W :=
  ⟨ready_of (by decide), by decide⟩
theorem witness_DecodeRgb32SplitsPixelsAndDropsOneByte :
    (rRgb32.DecodeReady .packedRgb32 ∧ rRgb32.desc.order 2 = Plane.p2.code ∧ rRgb32.desc.order 3 = 9) ∧
    (rRgb32Lead.DecodeReady .packedRgb32 ∧ rRgb32Lead.desc.order 3 = Plane.p2.code ∧
      rRgb32Lead.desc.order 0 = 9) ∧ 0 < rRgb32.H ∧ 3 < rRgb32.W :=
  ⟨⟨ready_of (by decide), by decide⟩, ⟨ready_of (by decide), by decide⟩, by decide⟩
theorem witness_DecodeRgb48SplitsSamples : rRgb48.DecodeReady .packedRgb48 ∧
    rRgb48.desc.order 2 = Plane.p2.code ∧ 0 < rRgb48.H ∧ 1 < rRgb48.W :=
  ⟨ready_of (by decide), by decide⟩

theorem witness_NvGroupsAreGatheredWords : rNv.DecodeReady .nvSemiplanar ∧
    (∃ t, exec .decodeNv rNv = .next t) ∧ rNv.desc.order 1 = Plane.p1.code ∧
    rNv.desc.order 2 = Plane.p2.code ∧ 0 < rNv.H / rNv.desc.subV.toNat ∧ 4 * 0 + 3 < rNv.W / 2 :=
  have r : rNv.DecodeReady .nvSemiplanar := ready_of (by decide)
  ⟨r, exec_next_of_ready rfl r, by decide⟩
theorem witness_RgbGroupsAreGatheredWords :
    (rRgb24.DecodeReady .packedRgb24 ∧ (∃ t, exec .decodeRgb24 rRgb24 = .next t) ∧
      rRgb24.desc.order (2 + 0) = Plane.p2.code ∧ 0 < rRgb24.H ∧ 4 * 0 + 3 < rRgb24.W) ∧
    (rRgb32Lead.DecodeReady .packedRgb32 ∧ (∃ t, exec .decodeRgb32 rRgb32Lead = .next t) ∧
      rRgb32Lead.desc.order 0 = 9 ∧ rRgb32Lead.desc.order (2 + 1) = Plane.p2.code ∧
      0 < rRgb32Lead.H ∧ 4 * 0 + 3 < rRgb32Lead.W) :=
  have r : rRgb24.DecodeReady .packedRgb24 := ready_of (by decide)
  have r' : rRgb32Lead.DecodeReady .packedRgb32 := ready_of (by decide)
  ⟨⟨r, exec_next_of_ready rfl r, by decide⟩, ⟨r', exec_next_of_ready rfl r', by decide⟩⟩

/-- YVYU resolved as `rYuv` has YUY2: descriptors with 1 and 2 exchanged, other tags and FMT_INDEX, DST with
a byte of its own. -/
def rYuvSwapped : State := { vec 40 4 1 4 4 4 (List.replicate 8 1) with dst := [(0x1000, 9)] }
theorem witness_SwappedOrderSwapsPlanes :
    rYuv.Inv ∧ rYuvSwapped.Inv ∧ rYuvSwapped.tag0 ≠ rYuv.tag0 ∧ rYuvSwapped.fmtIndex ≠ rYuv.fmtIndex ∧
    (rYuvSwapped.width = rYuv.width ∧ rYuvSwapped.height = rYuv.height ∧
      rYuvSwapped.srcBase = rYuv.srcBase) ∧
    (∀ p, rYuvSwapped.dstBase p = rYuv.dstBase p ∧ rYuvSwapped.dstStride p = rYuv.dstStride p) ∧
    (∀ j < rYuv.payloadSize.toNat, rYuvSwapped.srcByte j = rYuv.srcByte j) ∧
    rYuvSwapped.desc = rYuv.desc.swapChroma ∧ rYuv.desc.planes.toNat = 3 ∧
    rYuv.DecodeReady .packedYuv422 ∧ rYuvSwapped.DecodeReady .packedYuv422 ∧
    (∃ t, exec .decodeYuv422 rYuv = .next t) ∧ (∃ t, exec .decodeYuv422 rYuvSwapped = .next t) :=
  have r : rYuv.DecodeReady .packedYuv422 := ready_of (by decide)
  have r' : rYuvSwapped.DecodeReady .packedYuv422 := ready_of (by decide)
  ⟨inv_of (by decide), inv_of (by decide), by decide, by decide, by decide,
    fun p => by cases p <;> decide, by decide, by decide, by decide, r, r', exec_next_of_ready rfl r,
    exec_next_of_ready rfl r'⟩

/-- Two payloads that differ in the dropped byte only decode to the same planes. -/
theorem witness_PackedPlanesDetermineThePayload :
    rRgb32.DecodeReady .packedRgb32 ∧ 0 < rRgb32.payloadSize.toNat ∧
    ∃ s' t t', s' = { rRgb32 with src := s'.src } ∧ s' ≠ rRgb32 ∧
      exec .decodeRgb32 rRgb32 = .next t ∧ exec .decodeRgb32 s' = .next t' ∧
      ∀ a, rRgb32.ActiveAddr rRgb32.desc a → Mem.read t.dst a = Mem.read t'.dst a := by
  refine ⟨ready_of (by decide), by decide, { rRgb32 with src := Mem.write rRgb32.src 0x103 9 }, _, _, rfl,
    by decide, rfl, rfl, ?_⟩
  intro a _
  have : (after (exec .decodeRgb32 rRgb32)).dst =
      (after (exec .decodeRgb32 { rRgb32 with src := Mem.write rRgb32.src 0x103 9 })).dst := by decide
  exact congrArg (fun m => Mem.read m a) this

theorem witness_DecodeIsIdempotentOnActiveAreas : rYuv.DecodeReady .packedYuv422 ∧
    (∃ t, exec .decodeYuv422 rYuv = .next t) ∧ rYuv.ActiveAddr rYuv.desc 0x1003 :=
  have r : rYuv.DecodeReady .packedYuv422 := ready_of (by decide)
  ⟨r, exec_next_of_ready rfl r, .p0, by decide, 0, by decide, 3, by decide, by decide⟩

theorem witness_CommandsStayInsideTheFootprints : (∃ t, exec .decodeYuv422 rYuv = .next t) ∧
    ¬ rYuv.TouchableAddr rYuv.desc 0x1004 := by
  refine ⟨exec_next_of_ready rfl (ready_of (by decide) : rYuv.DecodeReady .packedYuv422), ?_⟩
  unfold State.TouchableAddr
  decide

theorem witness_SourceChangesOnlyByHostStores : (∃ t, exec .close rYuv = .next t) ∧
    ∃ t, step { State.reset with inputs := [.srcStore 0 [1]] } = .next t ∧ t.src ≠ State.reset.src :=
  ⟨⟨_, rfl⟩, _, rfl, by decide⟩

/-! ### Reset, the invariant, decoding -/

theorem witness_EveryStepKeepsInvariant : rPlanar.Inv ∧ ∃ t, step rPlanar = .next t :=
  ⟨inv_of (by decide), _, rfl⟩
theorem witness_NoStepChangesTheRom : ∃ t, step rPlanar = .next t := ⟨_, rfl⟩
theorem witness_ResetEventClearsRegistersAndAbandons :
    ({ rPlanar with inputs := [.reset] } : State).inputs = .reset :: [] ∧
    (∃ u, engineStep { rPlanar with inputs := [.reset] } = .next u) ∧
    ({ rPlanar with inputs := [.reset] } : State).ActiveAddr rPlanar.desc 0x1007 ∧
    (({ State.reset with inputs := [.reset] } : State).seq = .idle ∧
      ({ State.reset with inputs := [.reset] } : State).bodyInFlight = false) ∧
    ({ rPlanar with inputs := [.reset], pending := 0 } : State).bodyInFlight = false ∧
    ({ rPlanar with inputs := [.reset], dstStride0 := 0 } : State).bodyInFlight = false ∧
    ¬ ({ rPlanar with inputs := [.reset] } : State).TouchableAddr rPlanar.desc 0x1008 := by
  refine ⟨rfl, ⟨_, rfl⟩, ⟨.p0, by decide, 1, by decide, 3, by decide, by decide⟩, by decide, by decide,
    by decide, ?_⟩
  unfold State.TouchableAddr
  decide
theorem witness_StepRunsTheDecodedCommand : rNv.seq = .busy ∧ decode rNv.dispatchWord = .ok .decodeNv ∧
    rNv.inputs = [] ∧ ({ rNv with inputs := [.wait] } : State).inputs = .wait :: [] := by decide
theorem witness_DescriptorWordIsTheSumOfItsFields : i420.legal = true := by decide

/-! ### Registers -/

theorem witness_RegisterReadsReturnTheRegisterMap :
    ({ State.reset with inputs := [.regRead .word 0] } : State).inputs = .regRead .word 0 :: [] ∧
    ({ State.reset with inputs := [.regRead .word 0xFC] } : State).inputs = .regRead .word 0xFC :: [] := by
  decide
theorem witness_CommandWriteIsAccepted :
    ((writing 0 7).inputs = .regWrite .word 0x00 7 :: [] ∧ (writing 0 7).seq = .idle) ∧
    (({ rNv with inputs := [wr 0 7] } : State).inputs = .regWrite .word 0x00 7 :: [] ∧ rNv.seq = .busy) := by
  decide
theorem witness_WriteWhileBusySetsStickyOverrun :
    (rNv.seq = .busy ∧ ({ rNv with inputs := [wr 0xFC 1] } : State).inputs = .regWrite .word 0xFC 1 :: []) ∧
    (∃ t, step { rNv with pending := 3, ovr := true } = .next t ∧ t.ovr = false) ∧
    (∃ t, step { rNv with ovr := true, inputs := [.reset] } = .next t ∧ t.ovr = false) :=
  ⟨by decide, ⟨_, rfl, rfl⟩, ⟨_, rfl, rfl⟩⟩
theorem witness_OperandRegistersHoldWhatIsWritten :
    (writing 0x08 5).seq = .idle ∧ Reg.width ∈ readWriteRegs ∧
    (writing 0x08 5).inputs = .regWrite .word Reg.width.offset 5 :: [] ∧
    Reg.dstStride2 ∈ readWriteRegs ∧
    (writing 0x44 5).inputs = .regWrite .word Reg.dstStride2.offset 5 :: [] := by decide
theorem witness_GeometryAndTagWritesCancelResolution :
    ({ rNv with seq := .idle, inputs := [wr 0x08 8] } : State).seq = .idle ∧ Reg.width ∈ cancellingRegs ∧
    ({ rNv with seq := .idle, inputs := [wr 0x08 8] } : State).inputs =
      .regWrite .word Reg.width.offset 8 :: [] ∧
    Reg.tag2 ∈ cancellingRegs ∧ (writing 0x18 8).inputs = .regWrite .word Reg.tag2.offset 8 :: [] := by decide
theorem witness_BaseAndStrideWritesKeepResolution :
    ({ rNv with seq := .idle, inputs := [wr 0x2C 8] } : State).seq = .idle ∧ Reg.srcBase ∈ readWriteRegs ∧
    Reg.srcBase ∉ cancellingRegs ∧ ({ rNv with seq := .idle, inputs := [wr 0x2C 8] } : State).inputs =
      .regWrite .word Reg.srcBase.offset 8 :: [] := by decide
theorem witness_ReadOnlyAndReservedWritesAreIgnored :
    ((writing 0x04 1).seq = .idle ∧ 0x04 % 4 = 0 ∧ 0x04 ∈ readOnlyRegs.map Reg.offset ∧
      (writing 0x04 1).inputs = .regWrite .word 0x04 1 :: []) ∧
    ((writing 0x48 1).inputs = .regWrite .word 0x48 1 :: [] ∧ 0x48 ≤ 0x48 ∧ 0x48 ≤ 0xFC) ∧
    ((writing 0xFC 1).inputs = .regWrite .word 0xFC 1 :: [] ∧ 0x48 ≤ 0xFC ∧ 0xFC ≤ 0xFC) := by decide
theorem witness_OddRegisterAccessesAreRefused :
    (AccessWidth.byte ≠ .word ∧ ({ State.reset with inputs := [.regRead .byte 4] } : State).inputs =
      .regRead .byte 4 :: []) ∧
    (0x06 % 4 ≠ 0 ∧ (writing 0x06 1).inputs = .regWrite .word 0x06 1 :: []) ∧
    (0xFC < 0x100 ∧ (writing 0x100 1).inputs = .regWrite .word 0x100 1 :: []) := by decide
theorem witness_SequencerChangesOnlyAsTheRuleSays :
    (∃ t, step (writing 0 3) = .next t ∧ (writing 0 3).seq = .idle ∧ t.seq = .busy) ∧
    (∃ t, step rPlanar = .next t ∧ rPlanar.seq = .busy ∧ t.seq = .idle) ∧
    (State.reset.seq = .idle ∧ State.reset.inputs = []) ∧
    ({ State.reset with inputs := [.wait, .reset] } : State).inputs = .wait :: [.reset] :=
  ⟨⟨_, rfl, rfl, rfl⟩, ⟨_, rfl, rfl, rfl⟩, ⟨rfl, rfl⟩, rfl⟩
theorem witness_ResolvedChangesOnlyAsTheRuleSays :
    (∃ t, step (cmd 1 0x30323449 0 0 4 2) = .next t ∧ t.resolved = true) ∧
    (∃ t, step { rPlanar with pending := 3 } = .next t ∧ rPlanar.resolved = true ∧ t.resolved = false) ∧
    (∃ t, step { rPlanar with pending := 1, width := 3 } = .next t ∧ t.resolved = false) ∧
    (∃ t, step { rPlanar with seq := .idle, inputs := [wr 0x18 0] } = .next t ∧ t.resolved = false) ∧
    (∃ t, step { rPlanar with inputs := [.reset] } = .next t ∧ t.resolved = false) :=
  ⟨⟨_, rfl, by decide⟩, ⟨_, rfl, by decide, by decide⟩, ⟨_, rfl, by decide⟩, ⟨_, rfl, by decide⟩,
    ⟨_, rfl, by decide⟩⟩
theorem witness_OperandRegistersChangeOnlyByTheHost : (∃ t, step rPlanar = .next t) ∧
    rPlanar.inputs.head? ≠ some .reset ∧ (∀ w off v, rPlanar.inputs.head? ≠ some (.regWrite w off v)) ∧
    Reg.srcBase ∈ readWriteRegs :=
  ⟨⟨_, rfl⟩, by decide, fun _ _ _ h => (by cases h), by decide⟩

/-! ### Commands -/

theorem witness_NopOnlyReportsDone :
    ({ State.reset with err := true, errCode := 2, inputs := [wr 0 0, .wait] } : State).seq = .idle ∧
    ({ State.reset with err := true, errCode := 2, inputs := [wr 0 0, .wait] } : State).inputs =
      .regWrite .word 0x00 0x00000000 :: .wait :: [] := by decide
theorem witness_CloseDropsResolutionAndOverrun :
    ({ rPlanar with seq := .idle, ovr := true, inputs := [wr 0 3, .wait] } : State).seq = .idle ∧
    ({ rPlanar with seq := .idle, ovr := true, inputs := [wr 0 3, .wait] } : State).inputs =
      .regWrite .word 0x00 0x00000003 :: .wait :: [] := by decide

/-- RESOLVE of `I420` for a geometry, and `RGB48` at the largest geometry. -/
def res (w h : Word) : State := cmd 1 0x30323449 0 0 w h
def resMax : State := cmd 1 0x34424752 0x38 0 16383 16383

theorem witness_ResolveFinalizesTheMatchedFormat :
    (romLookup (res 2 2).rom (res 2 2).tagKey = some (0, Config.referenceRom.getD 0 0) ∧
      RomEntry.legal (Config.referenceRom.getD 0 0) = true ∧ maxDimLegal (res 2 2).maxDim = true ∧
      (res 2 2).width.toNat % (RomEntry.desc (Config.referenceRom.getD 0 0)).subH.toNat = 0 ∧
      (res 2 2).height.toNat % (RomEntry.desc (Config.referenceRom.getD 0 0)).subV.toNat = 0) ∧
    (romLookup resMax.rom resMax.tagKey = some (48, Config.referenceRom.getD 48 0) ∧
      RomEntry.legal (Config.referenceRom.getD 48 0) = true ∧ resMax.width.toNat ≤ resMax.maxDim ∧
      resMax.width.toNat % (RomEntry.desc (Config.referenceRom.getD 48 0)).subH.toNat = 0) := by decide
theorem witness_ResolveReportsTagThenGeometry :
    romLookup (cmd 1 0 0 0 0 0).rom (cmd 1 0 0 0 0 0).tagKey = none ∧
    (romLookup (res 0 2).rom (res 0 2).tagKey = some (0, Config.referenceRom.getD 0 0) ∧
      RomEntry.legal (Config.referenceRom.getD 0 0) = true ∧ maxDimLegal (res 0 2).maxDim = true) ∧
    (res 0 2).width.toNat = 0 ∧ (res 2 0).height.toNat = 0 ∧
    (res 16384 2).maxDim < (res 16384 2).width.toNat ∧ (res 2 16384).maxDim < (res 2 16384).height.toNat ∧
    (res 175 144).width.toNat % (RomEntry.desc (Config.referenceRom.getD 0 0)).subH.toNat ≠ 0 ∧
    (res 176 143).height.toNat % (RomEntry.desc (Config.referenceRom.getD 0 0)).subV.toNat ≠ 0 := by decide
theorem witness_LookupFindsTheFirstMatch : Rom.legal Config.referenceRom = true ∧
    Config.referenceRom[49]? = some (Config.referenceRom.getD 49 0) := by decide

/-- The bytes of a tag, by index. -/
def tagByte (t0 t1 t2 : Word) (j : Nat) : Byte :=
  (if j < 4 then t0 else if j < 8 then t1 else t2).extractLsb' (8 * (j % 4)) 8
/-- No byte, four bytes, twelve bytes: the three boundaries of the tag's length. -/
theorem witness_TagKeyIsTheFoldedTag :
    (0 ≤ 12 ∧ tagByte 0 0 0 0 = 0) ∧
    ((∀ j < 4, tagByte 0x30323469 0x7A7A7A00 0 j ≠ 0) ∧ tagByte 0x30323469 0x7A7A7A00 0 4 = 0) ∧
    (12 ≤ 12 ∧ ∀ j < 12, tagByte 0x34565559 0x31503032 0x5A595830 j ≠ 0) := by decide
theorem witness_EmptyTagIsUnsupported : Rom.legal State.reset.rom = true ∧
    State.reset.tag0.extractLsb' 0 8 = 0 := by decide
theorem witness_DecodeWithoutResolutionIsSequenceError :
    ((cmd 2 0 0 0 0 0).EngineTurn ∧ (cmd 2 0 0 0 0 0).pending = 2 ∧
      (cmd 2 0 0 0 0 0).resolved = false) ∧
    State.EngineTurn { cmd 2 0 0 0 0 0 with inputs := [.wait, .reset] } ∧
    decodeVariant Variant.packedRgb48.code = .ok .decodeRgb48 :=
  ⟨⟨⟨rfl, .inl rfl⟩, rfl, rfl⟩, ⟨rfl, .inr rfl⟩, rfl⟩
theorem witness_BadDestinationIsDstConfigError :
    (decodeVariant Variant.planar.code = .ok .decodePlanar ∧ errBase.resolved = true ∧
      errBase.desc.legal = true ∧ errBase.desc.variant = Variant.planar.code ∧
      Plane.p1 ∈ usedPlanes errBase.desc) ∧
    ({ errBase with dstBase1 := 0x2002 } : State).dstBase .p1 % 4 ≠ 0 ∧
    ({ errBase with dstStride1 := 6 } : State).dstStride .p1 % 4 ≠ 0 ∧
    ({ errBase with dstStride1 := 0 } : State).dstStride .p1 < rowBytes errBase.desc errBase.W .p1 := by decide
theorem witness_WrappingWindowIsRangeError :
    (errBase.resolved = true ∧ errBase.desc.legal = true ∧ errBase.desc.variant = Variant.planar.code ∧
      ∀ p ∈ usedPlanes errBase.desc, errBase.dstBase p % 4 = 0 ∧ errBase.dstStride p % 4 = 0 ∧
        rowBytes errBase.desc errBase.W p ≤ errBase.dstStride p) ∧
    2 ^ 32 < ({ errBase with srcBase := 0xFFFFFFF5 } : State).srcBase.toNat + errBase.payloadSize.toNat ∧
    (∀ p ∈ usedPlanes errBase.desc, ({ errBase with dstBase0 := 0xFFFFFFFC } : State).dstBase p % 4 = 0) ∧
    2 ^ 32 < ({ errBase with dstBase0 := 0xFFFFFFFC } : State).dstBase .p0 +
      (planeHeight errBase.desc errBase.H .p0 - 1) * errBase.dstStride .p0 +
      ceil4 (rowBytes errBase.desc errBase.W .p0) := by decide

/-- I420's descriptor with VARIANT 7, in flight with its windows as the rules ask, WAIT next. -/
def reserved7 : State := { errBase with descLo := 0x02292107, inputs := [.wait] }
theorem witness_IllegalCommandChangesOnlyStatus :
    ((cmd 4 0 0 0 0 0).EngineTurn ∧ 4 ≤ (cmd 4 0 0 0 0 0).pending.toNat) ∧
    4 ≤ (cmd 0xFFFFFFFF 0 0 0 0 0).pending.toNat ∧
    (reserved7.EngineTurn ∧ reserved7.pending = 2 ∧ reserved7.desc.variant = 7 ∧
      reserved7.desc.fieldsLegal = true ∧ reserved7.resolved = true) :=
  ⟨⟨⟨rfl, .inl rfl⟩, by decide⟩, by decide, ⟨⟨rfl, .inr rfl⟩, by decide⟩⟩
/-- R227's order for VARIANT 7: a wrong base before a window that wraps, either before the variant. -/
theorem test_reserved_variant_is_last :
    (after (step { reserved7 with dstBase1 := 2, srcBase := 0xFFFFFFF5 })).errCode = 5 ∧
    (after (step { reserved7 with srcBase := 0xFFFFFFF5 })).errCode = 6 ∧
    (after (step reserved7)).errCode = 3 ∧ (after (step reserved7)).inputs = [] := by decide

/-- A table with one entry that is not legal, under the name `A`. -/
def badRom : Rom := [Config.romEntry 0x41 0 0 0 0]
theorem romScan_replicate (key : List Byte) (e : RomEntry) (h : e.nameBytes ≠ key) (r : Rom) (n i : Nat) :
    romScan key (List.replicate n e ++ r) i = romScan key r (i + n) := by
  induction n generalizing i with
  | zero => rfl
  | succ n ih =>
    rw [List.replicate_succ, List.cons_append, romScan, if_neg h, ih]
    congr 1
    omega
/-- A match that FMT_INDEX cannot hold. -/
theorem witness_index_too_large :
    romLookup (List.replicate 256 0 ++ Config.referenceRowsA) (res 4 2).tagKey =
      some (256, Config.referenceRom.getD 0 0) := by
  rw [romLookup, romScan_replicate _ _ (by decide)]
  decide
theorem witness_UnspecifiedCasesAreRefused :
    (romLookup badRom ({ cmd 1 0x41 0 0 4 2 with rom := badRom } : State).tagKey =
      some (0, Config.romEntry 0x41 0 0 0 0) ∧ RomEntry.legal (Config.romEntry 0x41 0 0 0 0) = false) ∧
    maxDimLegal 65536 = false ∧
    (({ errBase with descLo := 0x02202100 } : State).desc.variant = Variant.planar.code ∧
      ({ errBase with descLo := 0x02202100 } : State).desc.legal = false) ∧
    (({ errBase with dstBase1 := 0x1004 } : State).windowError errBase.desc = none ∧
      ({ errBase with dstBase1 := 0x1004 } : State).dstBase .p1 <
        ({ errBase with dstBase1 := 0x1004 } : State).footprintEnd errBase.desc .p0 ∧
      ({ errBase with dstBase1 := 0x1004 } : State).dstBase .p0 <
        ({ errBase with dstBase1 := 0x1004 } : State).footprintEnd errBase.desc .p1) := by decide

theorem witness_ErrorsArePrecise :
    (∃ t, step (cmd 1 0 0 0 4 2) = .next t ∧ t.err = true ∧ (cmd 1 0 0 0 4 2).err = false) ∧
    (∃ t, step { errBase with dstStride0 := 0 } = .next t ∧ t.err = true ∧ errBase.err = false) ∧
    (cmd 1 0 0 0 4 2).EngineTurn ∧
    State.EngineTurn { errBase with dstStride0 := 0, inputs := [.wait, .reset] } :=
  ⟨⟨_, rfl, by decide⟩, ⟨_, rfl, by decide⟩, ⟨rfl, .inl rfl⟩, ⟨rfl, .inr rfl⟩⟩
/-- Each code of R221 in turn, from states that meet the invariant. -/
theorem witness_StatusWordAfterEachOutcome :
    errBase.Inv ∧ errBase.EngineTurn ∧ (after (step errBase)).errCode = 0 ∧
    (({ errBase with inputs := [.regRead .word 4] } : State).Inv ∧
      ({ errBase with inputs := [.regRead .word 4] } : State).seq = .busy) ∧
    (cmd 1 0 0 0 0 0).Inv ∧ (after (step (cmd 1 0 0 0 0 0))).errCode = 1 ∧
    (res 0 2).Inv ∧ (after (step (res 0 2))).errCode = 2 ∧
    ({ errBase with pending := 7 } : State).Inv ∧ (after (step { errBase with pending := 7 })).errCode = 3 ∧
    (cmd 2 0 0 0 0 0).Inv ∧ (after (step (cmd 2 0 0 0 0 0))).errCode = 4 ∧
    ({ errBase with dstBase1 := 2 } : State).Inv ∧ (after (step { errBase with dstBase1 := 2 })).errCode = 5 ∧
    ({ errBase with srcBase := 0xFFFFFFF5 } : State).Inv ∧
    (after (step { errBase with srcBase := 0xFFFFFFF5 })).errCode = 6 :=
  ⟨inv_of (by decide), ⟨rfl, .inl rfl⟩, by decide, ⟨inv_of (by decide), rfl⟩, inv_of (by decide), by decide,
    inv_of (by decide),
    by decide, inv_of (by decide), by decide, inv_of (by decide), by decide, inv_of (by decide), by decide,
    inv_of (by decide), by decide⟩
theorem witness_EveryCommandCompletes : rPlanar.Inv ∧ Rom.legal rPlanar.rom = true ∧
    maxDimLegal rPlanar.maxDim = true ∧ rPlanar.EngineTurn ∧
    (rPlanar.pending = 2 → rPlanar.resolved = true → rPlanar.footprintsDisjoint rPlanar.desc = true) :=
  ⟨inv_of (by decide), by decide, by decide, ⟨rfl, .inl rfl⟩, by decide⟩

/-- The smallest geometry of a subsampled, a packed and a gray descriptor. -/
theorem witness_PayloadSizeIsExact : (i420.legal = true ∧ 1 ≤ 2 ∧ 2 % i420.subH.toNat = 0 ∧
      2 % i420.subV.toNat = 0) ∧ (rgba.legal = true ∧ rgba.variant = Variant.packedRgb32.code ∧
      1 % rgba.subH.toNat = 0 ∧ 1 % rgba.subV.toNat = 0) ∧ y8.legal = true := by decide
theorem witness_PayloadBytesAreReadOnce : (i420.legal = true ∧ 5 < payloadBytes i420 2 2) ∧
    (rgba.legal = true ∧ 3 < payloadBytes rgba 1 1 ∧ 3 % 4 = (if rgba.order 0 = 9 then 0 else 3)) := by decide
theorem witness_ActiveBytesAreAssignedOnce : i420.legal = true ∧ Plane.p2 ∈ usedPlanes i420 ∧
    0 < planeHeight i420 2 .p2 ∧ 0 < rowBytes i420 2 .p2 ∧
    (⟨.p2, 0, 0, some 5⟩ : Move) ∈ bodyMoves i420 2 2 := by decide

/-! ### Host memory accesses -/

theorem witness_PendingChangesOnlyAtAcceptanceAndReset :
    (∃ t, exec .close (cmd 3 0 0 0 0 0) = .next t) ∧
    (∃ t, step (writing 0 3) = .next t ∧ (writing 0 3).inputs.head? ≠ some .reset ∧ t.pending = 3) :=
  ⟨⟨_, rfl⟩, ⟨_, rfl, by decide, rfl⟩⟩
/-- `errBase` with `x` next: a body in flight, its source window 0x100 to 0x10B. -/
def touching (x : HostAction) : State := { errBase with inputs := [x] }
/-- The last byte of a space with no body in flight, and bytes next to the windows of one in flight. -/
theorem witness_HostMemoryAccesses :
    (State.reset.bodyInFlight = false ∧ 0xFFFFFFFF + ([7] : List Byte).length ≤ 2 ^ 32) ∧
    errBase.bodyInFlight = true ∧
    ((∀ i < [7, 8].length, 0x10C + i < errBase.srcBase.toNat ∨
        errBase.srcBase.toNat + errBase.payloadSize.toNat ≤ 0x10C + i) ∧
      (touching (.srcStore 0x10C [7, 8])).inputs = .srcStore 0x10C [7, 8] :: []) ∧
    ((∀ i < [7, 8].length, ∀ p ∈ usedPlanes errBase.desc, 0x2FFE + i < errBase.dstBase p ∨
        errBase.footprintEnd errBase.desc p ≤ 0x2FFE + i) ∧
      (touching (.dstStore 0x2FFE [7, 8])).inputs = .dstStore 0x2FFE [7, 8] :: []) ∧
    ((∀ p ∈ usedPlanes errBase.desc, 0xFFF < errBase.dstBase p ∨
        errBase.footprintEnd errBase.desc p ≤ 0xFFF) ∧
      (touching (.dstLoad 0xFFF)).inputs = .dstLoad 0xFFF :: []) := by decide
theorem witness_ForbiddenHostAccessesStop :
    2 ^ 32 < 0xFFFFFFFF + ([7, 8] : List Byte).length ∧ 2 ^ 32 ≤ 0x100000000 ∧
    errBase.bodyInFlight = true ∧ (errBase.srcBase.toNat ≤ 0x10A + 1 ∧
      0x10A + 1 < errBase.srcBase.toNat + errBase.payloadSize.toNat) ∧
    (Plane.p2 ∈ usedPlanes errBase.desc ∧ errBase.dstBase .p2 ≤ 0x3003 ∧
      0x3003 < errBase.footprintEnd errBase.desc .p2) := by decide
theorem witness_CanonicalMemoriesAreEqual : Mem.wf errBase.src = true ∧
    Mem.wf [(0, 1), (0xFFFFFFFF, 2)] = true := by decide

end Sys2Proof.Tests
end

section
/-! PROOFS. Register writes while IDLE (spec/10_state.md): the step they make, what they store, and
what they drop and leave of STATUS and of the resolution. -/

namespace Sys2Proof.Machine

/-! ## The step of a register write -/

/-- Every register's offset is one that a word access may name (R20, R64). -/
theorem regAccessOk_offset (r : Reg) : regAccessOk .word r.offset = true := by cases r <;> rfl

theorem State.writeOffset_offset {s : State} (r : Reg) (v : Word) (h : s.seq = .idle) :
    s.writeOffset r.offset v = s.writeReg r v := by
  simp [State.writeOffset, h, regAt_offset]

/-- While IDLE a word write at a register's offset is the write to that register, the input taken off
(R46). -/
theorem step_regWrite_idle {s : State} {r : Reg} {v : Word} {rest : List HostAction}
    (hs : s.seq = .idle) (hi : s.inputs = .regWrite .word r.offset v :: rest) :
    step s = .next (State.writeReg { s with inputs := rest } r v) := by
  have hw : State.writeOffset { s with inputs := rest } r.offset v =
      State.writeReg { s with inputs := rest } r v := State.writeOffset_offset r v hs
  rw [step_cons hi]
  simp [hostStep, hostRegWrite, regAccessOk_offset, hw]

/-! ## What a register write does -/

/-- A read/write register stores all 32 bits (R20, R46). -/
theorem State.readReg_writeReg_same (s : State) {r : Reg} (v : Word) (h : r ∈ readWriteRegs) :
    (s.writeReg r v).readReg r = v := by
  fin_cases h <;> rfl

/-- Only a write to CMD touches the report of the last command and OVR (R47, R150). -/
theorem State.writeReg_keeps_report (s : State) {r : Reg} (v : Word) (h : r ≠ .cmd) :
    (s.writeReg r v).done = s.done ∧ (s.writeReg r v).err = s.err ∧
      (s.writeReg r v).errCode = s.errCode ∧ (s.writeReg r v).ovr = s.ovr := by
  cases r with
  | cmd => exact absurd rfl h
  | _ => exact ⟨rfl, rfl, rfl, rfl⟩

/-- A geometry or tag write leaves the resolution as `clearResolution` does (R47). -/
theorem State.writeReg_drops_resolution (s : State) {r : Reg} (v : Word) (h : r ∈ cancellingRegs) :
    (s.writeReg r v).resolved = false ∧ (s.writeReg r v).fmtIndex = 0 ∧
      (s.writeReg r v).descLo = 0 ∧ (s.writeReg r v).descHi = 0 ∧
      (s.writeReg r v).payloadSize = 0 := by
  fin_cases h <;> exact ⟨rfl, rfl, rfl, rfl, rfl⟩

theorem cancellingRegs_subset_readWriteRegs : cancellingRegs ⊆ readWriteRegs := by decide

theorem cmd_notMem_cancellingRegs : Reg.cmd ∉ cancellingRegs := by decide

/-- Settles O17: the step is the register's write, which drops the resolution, keeps the report and
stores the word. -/
theorem geometryAndTagWritesCancelResolution : Obligations.GeometryAndTagWritesCancelResolution := by
  intro s r v rest hs hr hi
  have hcmd : r ≠ .cmd := fun h => cmd_notMem_cancellingRegs (h ▸ hr)
  obtain ⟨hres, hidx, hlo, hhi, hsize⟩ :=
    State.writeReg_drops_resolution { s with inputs := rest } v hr
  obtain ⟨hdone, herr, hcode, hovr⟩ := State.writeReg_keeps_report { s with inputs := rest } v hcmd
  exact ⟨_, step_regWrite_idle hs hi, hres, hidx, hlo, hhi, hsize, hdone, herr, hcode, hovr,
    State.readReg_writeReg_same _ v (cancellingRegs_subset_readWriteRegs hr)⟩

end Sys2Proof.Machine
end

section
/-! PROOFS. What a command leaves of DST (spec/20_memory.md): only a DECODE that reaches its body stores
to DST at all, and its body's moves stay inside the planes. -/

namespace Sys2Proof.Machine

/-- RESOLVE writes registers and STATUS alone (R152). -/
theorem execResolve_keeps_dst {s t : State} (h : execResolve s = .next t) : t.dst = s.dst := by
  rcases execResolve_next h with ⟨_, rfl⟩ | ⟨_, _, _, _, _, _, ⟨_, rfl⟩ | ⟨_, rfl⟩⟩
  case inl => exact State.raiseResolveErr_dst ..
  case inr.inl => rw [State.complete_dst, State.setResolution_dst]
  case inr.inr => exact State.raiseResolveErr_dst ..

/-- Only a DECODE that passes the tests of the front-end stores to DST, by the moves of its body
(R154, R225). -/
theorem exec_dst_kept_or_body {i : Instr} {s t : State} (h : exec i s = .next t) :
    t.dst = s.dst ∨
      (s.desc.legal = true ∧ t.dst = (s.runMoves (bodyMoves s.desc s.W s.H)).dst) := by
  rcases instr_cases i with rfl | rfl | rfl | ⟨v, hv⟩
  · cases h
    exact .inl (State.complete_dst s)
  · exact .inl (execResolve_keeps_dst h)
  · cases h
    exact .inl (State.clearResolution_dst s)
  · rcases exec_decode_next hv h with ⟨_, rfl⟩ | ⟨_, _, _, c, _, rfl⟩ | ⟨_, hlegal, _, _, rfl⟩
    · exact .inl (State.raiseErr_dst .sequence s)
    · exact .inl (State.raiseErr_dst c s)
    · exact .inr ⟨hlegal, State.complete_dst _⟩

/-- Settles O55: DST is as it was, or is what the moves of a legal descriptor's body left, each of which
stores to a position of a used plane. -/
theorem commandsStayInsideTheFootprints : Obligations.CommandsStayInsideTheFootprints := by
  intro i s t h a houtside
  rcases exec_dst_kept_or_body h with hkept | ⟨hlegal, hbody⟩
  · rw [hkept]
  · rw [hbody]
    exact State.runMoves_outside (bodyMoves_inPlanes hlegal s.W s.H).inPlane houtside

end Sys2Proof.Machine
end

section
/-! PROOFS. The ROM lookup (spec/40_format_rom.md, R122): what the scan finds, and why in a legal ROM no
second entry could match. -/

namespace Sys2Proof

/-! ## The NAME fields of a legal ROM -/

/-- The 12 NAME bytes hold the whole NAME field (R96). -/
theorem nameField_eq_of_nameBytes_eq {e e' : RomEntry} (h : e.nameBytes = e'.nameBytes) :
    e.extractLsb' 64 96 = e'.extractLsb' 64 96 := by
  have hbyte : ∀ j < 12, leByte e (8 + j) = leByte e' (8 + j) := fun j hj =>
    List.map_inj_left.1 h j (List.mem_range.2 hj)
  ext b hb
  have hbit := congrArg (·.getLsbD (b % 8)) (hbyte (b / 8) (by omega))
  have hplace : 8 * (8 + b / 8) + b % 8 = 64 + b := by omega
  simpa [leByte, hplace, Nat.mod_lt b (show 0 < 8 by decide)] using hbit

/-- R131 as a relation between any two entries of the table. -/
theorem Rom.namesDistinct_iff {r : Rom} :
    Rom.namesDistinct r = true ↔
      r.Pairwise fun e e' => e.extractLsb' 64 96 ≠ e'.extractLsb' 64 96 := by
  induction r with
  | nil => simp [Rom.namesDistinct]
  | cons head tail ih => simp [Rom.namesDistinct, ih]

/-- The NAME bytes of a legal ROM's entries are pairwise distinct (R131). -/
theorem Rom.legal_nameBytes_nodup {r : Rom} (h : Rom.legal r = true) :
    (r.map RomEntry.nameBytes).Nodup := by
  obtain ⟨_, hdistinct⟩ := Bool.and_eq_true_iff.1 h
  exact List.pairwise_map.2
    ((Rom.namesDistinct_iff.1 hdistinct).imp fun hne heq => hne (nameField_eq_of_nameBytes_eq heq))

/-- Two places of a legal ROM with one NAME are the same place. -/
theorem Rom.legal_index_unique {r : Rom} (h : Rom.legal r = true) {i j : Nat} {e e' : RomEntry}
    (hi : r[i]? = some e) (hj : r[j]? = some e') (hname : e.nameBytes = e'.nameBytes) : i = j := by
  obtain ⟨hilt, rfl⟩ := List.getElem?_eq_some_iff.1 hi
  obtain ⟨hjlt, rfl⟩ := List.getElem?_eq_some_iff.1 hj
  have hmap : (r.map RomEntry.nameBytes)[i]'(by simpa using hilt) =
      (r.map RomEntry.nameBytes)[j]'(by simpa using hjlt) := by
    simpa using hname
  exact (Rom.legal_nameBytes_nodup h).getElem_inj_iff.1 hmap

end Sys2Proof

namespace Sys2Proof.Machine

/-! ## The scan -/

/-- The scan from index `n` up finds the first entry whose NAME is the key; `j` is its place in the list
scanned. -/
theorem romScan_eq_some {key : List Byte} {r : Rom} {n i : Nat} {e : RomEntry} :
    romScan key r n = some (i, e) ↔
      ∃ j, i = n + j ∧ r[j]? = some e ∧ e.nameBytes = key ∧
        ∀ k < j, ∀ e', r[k]? = some e' → e'.nameBytes ≠ key := by
  induction r generalizing n with
  | nil => simp [romScan]
  | cons head tail ih =>
    by_cases hhead : head.nameBytes = key
    · rw [romScan, if_pos hhead, Option.some.injEq, Prod.mk.injEq]
      constructor
      · rintro ⟨rfl, rfl⟩
        exact ⟨0, rfl, rfl, hhead, fun k hk => absurd hk (Nat.not_lt_zero k)⟩
      · rintro ⟨j, rfl, he, _, hfirst⟩
        cases j with
        | zero => exact ⟨rfl, Option.some.inj he⟩
        | succ j => exact absurd hhead (hfirst 0 j.succ_pos head rfl)
    · rw [romScan, if_neg hhead, ih]
      constructor
      · rintro ⟨j, rfl, he, hkey, hfirst⟩
        refine ⟨j + 1, by omega, he, hkey, fun k hk e' he' => ?_⟩
        cases k with
        | zero => exact Option.some.inj he' ▸ hhead
        | succ k => exact hfirst k (by omega) e' he'
      · rintro ⟨j, rfl, he, hkey, hfirst⟩
        cases j with
        | zero => exact absurd (Option.some.inj he ▸ hkey) hhead
        | succ j => exact ⟨j, by omega, he, hkey, fun k hk => hfirst (k + 1) (by omega)⟩

/-- The scan answers none exactly where no entry's NAME is the key. -/
theorem romScan_eq_none {key : List Byte} {r : Rom} {n : Nat} :
    romScan key r n = none ↔ ∀ e ∈ r, e.nameBytes ≠ key := by
  induction r generalizing n with
  | nil => simp [romScan]
  | cons head tail ih =>
    by_cases hhead : head.nameBytes = key
    · simp [romScan, hhead]
    · simp [romScan, hhead, ih]

/-- Settles O28: the lookup is the scan from index 0, and a legal ROM has no NAME twice. -/
theorem lookupFindsTheFirstMatch : Obligations.LookupFindsTheFirstMatch := by
  intro r key
  refine ⟨fun i e => ?_, romScan_eq_none, fun hlegal i j e e' hi hj hkey hkey' =>
    Rom.legal_index_unique hlegal hi hj (hkey.trans hkey'.symm)⟩
  rw [romLookup, romScan_eq_some]
  constructor
  · rintro ⟨j, rfl, hmatch⟩
    rwa [Nat.zero_add]
  · exact fun hmatch => ⟨i, (Nat.zero_add i).symm, hmatch⟩

end Sys2Proof.Machine
end

section
/-! PROOFS. Where the active bytes of a DECODE come from (spec/42 to spec/45): every body assigns every
active byte of a legal descriptor from one payload offset, which lies in the source window (R70, R75). -/

namespace Sys2Proof.Machine

/-- Payload offset `i` is the source of byte `k` of row `y` of plane `p`: it is assigned there, and
nothing else is. -/
structure IsSource (ms : List Move) (p : Plane) (y k i : Nat) : Prop where
  assigned : ⟨p, y, k, some i⟩ ∈ ms
  only : ∀ m ∈ ms, m.plane = p → m.row = y → m.col = k → m.src = some i

/-- What every body owes its active bytes: one source each, in the payload (R70, R75). -/
def SourcesInPayload (d : Descriptor) (W H : Nat) (ms : List Move) : Prop :=
  ∀ p ∈ usedPlanes d, ∀ y < planeHeight d H p, ∀ k < rowBytes d W p,
    ∃ i < payloadBytes d W H, IsSource ms p y k i

/-- The source of a byte is the only one. -/
theorem IsSource.unique {ms : List Move} {p : Plane} {y k i j : Nat} (h : IsSource ms p y k i)
    (hj : ⟨p, y, k, some j⟩ ∈ ms) : j = i :=
  Option.some.inj (h.only _ hj rfl rfl rfl)

/-- Within checked windows an active byte ends as its source byte. -/
theorem IsSource.read {s : State} {d : Descriptor} {ms : List Move} {p : Plane} {y k i : Nat}
    (h : IsSource ms p y k i) (hw : s.WindowsOk d) (hb : MovesInPlanes d s.W s.H ms) :
    Mem.read (s.runMoves ms).dst (s.dstAddr p y k) = s.srcByte i :=
  State.runMoves_reads hw hb.inPlane h.assigned h.only

/-! ## Putting bodies together -/

/-- Moves to other planes after a list do not disturb a source of it. -/
theorem IsSource.append_left {ms others : List Move} {p : Plane} {y k i : Nat}
    (h : IsSource ms p y k i) (hp : ∀ m ∈ others, m.plane ≠ p) : IsSource (ms ++ others) p y k i where
  assigned := List.mem_append_left _ h.assigned
  only m hm hplane := (List.mem_append.1 hm).elim (fun hm => h.only m hm hplane)
    fun hm => absurd hplane (hp m hm)

/-- Nor do moves to other planes before it. -/
theorem IsSource.append_right {ms others : List Move} {p : Plane} {y k i : Nat}
    (h : IsSource ms p y k i) (hp : ∀ m ∈ others, m.plane ≠ p) : IsSource (others ++ ms) p y k i where
  assigned := List.mem_append_right _ h.assigned
  only m hm hplane := (List.mem_append.1 hm).elim (fun hm => absurd hplane (hp m hm))
    fun hm => h.only m hm hplane

/-- A source of row `y` is a source of the body made of the rows, where each row stays in its own. -/
theorem IsSource.flatMap_rows {row : Nat → List Move} {n : Nat} {p : Plane} {y k i : Nat}
    (h : IsSource (row y) p y k i) (hy : y < n) (hrow : ∀ y', ∀ m ∈ row y', m.row = y') :
    IsSource ((List.range n).flatMap row) p y k i where
  assigned := List.mem_flatMap.2 ⟨y, List.mem_range.2 hy, h.assigned⟩
  only m hm hplane hmy := by
    obtain ⟨y', _, hm⟩ := List.mem_flatMap.1 hm
    obtain rfl : y' = y := (hrow y' m hm).symm.trans hmy
    exact h.only m hm hplane hmy

/-- A copied plane's byte comes from the same place of the source plane. -/
theorem isSource_copyPlane {p : Plane} {off rb ph y k : Nat} (hy : y < ph) (hk : k < rb) :
    IsSource (copyPlane p off rb ph) p y k (off + y * rb + k) where
  assigned := mem_copyPlane.2 ⟨rfl, hy, hk, rfl⟩
  only m hm _ hrow hcol := by
    obtain ⟨_, _, _, hsrc⟩ := mem_copyPlane.1 hm
    rw [hsrc, hrow, hcol]

/-! ## The payload's size -/

/-- Element `(y, x)` of an `h` by `w` array stored row after row lies inside it. -/
theorem rowMajor_lt {y x h w : Nat} (hy : y < h) (hx : x < w) : y * w + x < w * h :=
  calc y * w + x < (y + 1) * w := by rw [Nat.add_one_mul]; omega
    _ ≤ h * w := Nat.mul_le_mul_right w hy
    _ = w * h := Nat.mul_comm h w

/-- Byte `c` of the `B` bytes of an element is one of the array's bytes. -/
theorem packedByte_lt {n N B c : Nat} (hn : n < N) (hc : c < B) : n * B + c < N * B :=
  Nat.mul_comm N B ▸ rowMajor_lt hn hc

/-- R127's law makes the payload of a planar or semi-planar layout as large as its planes together
(R133). -/
theorem payloadBytes_eq_planes {d : Descriptor} (hl : d.legal = true) (hb : d.planeBppLegal = true)
    {W H : Nat} (hW : W % d.subH.toNat = 0) (hH : H % d.subV.toNat = 0) :
    payloadBytes d W H = ((usedPlanes d).map fun p => rowBytes d W p * planeHeight d H p).sum := by
  unfold Descriptor.planeBppLegal at hb
  rcases Descriptor.legal_planes hl with h1 | h3
  · simp only [h1, beq_self_eq_true, if_true, beq_iff_eq] at hb
    have hbits : W * H * d.bpp.toNat = 8 * (W * d.bps * H) := by rw [hb]; ring
    simp [Descriptor.usedPlanes_one h1, payloadBytes, hbits, rowBytes, planeWidth, planeHeight]
  · simp only [h3, Nat.reduceBEq, Bool.false_eq_true, if_false, beq_iff_eq] at hb
    obtain ⟨w, hw⟩ := Nat.dvd_of_mod_eq_zero hW
    obtain ⟨h, hh⟩ := Nat.dvd_of_mod_eq_zero hH
    have hsub : 0 < d.subH.toNat ∧ 0 < d.subV.toNat := by
      have := Descriptor.legal_subH hl
      have := Descriptor.legal_subV hl
      omega
    have hbits : W * H * d.bpp.toNat = 8 * (W * d.bps * H + 2 * (w * d.bps * h)) := by
      calc W * H * d.bpp.toNat = w * h * (d.bpp.toNat * (d.subH.toNat * d.subV.toNat)) := by
            rw [hw, hh]; ring
        _ = 8 * (W * d.bps * H + 2 * (w * d.bps * h)) := by rw [hb, hw, hh]; ring
    have hw' : W / d.subH.toNat = w := by rw [hw, Nat.mul_div_cancel_left _ hsub.1]
    have hh' : H / d.subV.toNat = h := by rw [hh, Nat.mul_div_cancel_left _ hsub.2]
    rw [payloadBytes, hbits, Nat.mul_div_cancel_left _ (by decide), Descriptor.usedPlanes_three h3]
    simp only [rowBytes, planeWidth, planeHeight, hw', hh', List.map_cons, List.map_nil, List.sum_cons,
      List.sum_nil]
    omega

/-- The payload of a packed variant is `BPP / 8` bytes for each pixel (R129, R130). -/
theorem payloadBytes_packed {d : Descriptor} {B : Nat} (hb : d.bpp.toNat = B * 8) (W H : Nat) :
    payloadBytes d W H = W * H * B := by
  rw [payloadBytes, hb, ← Nat.mul_assoc, Nat.mul_div_cancel _ (by decide)]

/-! ## DECODE.PLANAR -/

/-- A source plane ends where the planes of the list together end, or before. -/
theorem planarOffset_add_le (d : Descriptor) (W H : Nat) {ps : List Plane} {i : Nat}
    (hi : i < ps.length) :
    planarOffset d W H ps i + rowBytes d W ps[i] * planeHeight d H ps[i] ≤
      (ps.map fun p => rowBytes d W p * planeHeight d H p).sum := by
  have hsucc : planarOffset d W H ps i + rowBytes d W ps[i] * planeHeight d H ps[i] =
      planarOffset d W H ps (i + 1) := by
    rw [planarOffset, planarOffset, ← List.take_concat_get' ps i hi, List.map_append, List.sum_append,
      List.map_singleton, List.sum_singleton]
  rw [hsucc]
  exact ((List.take_sublist _ _).map _).sum_le_sum (by simp)

theorem planarMoves_sources {d : Descriptor} (hl : d.legal = true)
    (hv : d.variant = Variant.planar.code) {W H : Nat} (hW : W % d.subH.toNat = 0)
    (hH : H % d.subV.toNat = 0) : SourcesInPayload d W H (planarMoves d W H) := by
  intro p hp y hy k hk
  have hperm := planarOrder_perm hl hv
  obtain ⟨i, hi, rfl⟩ := List.getElem_of_mem (hperm.mem_iff.2 hp)
  refine ⟨_, ?_, planarMoves_mem hi hy hk, ?_⟩
  · have hend := planarOffset_add_le d W H hi
    have hrow := rowMajor_lt hy hk
    rw [payloadBytes_eq_planes hl (Descriptor.legal_variant hl hv).2 hW hH, ← (hperm.map _).sum_eq]
    omega
  · rintro m hm hplane rfl rfl
    rw [planarMoves_src hl hv hi hm hplane, hplane]

/-! ## DECODE.NV and DECODE.P01X -/

/-- The payload of a semi-planar layout: the luma plane, then two chroma planes of one size. -/
theorem payloadBytes_semiPlanar {d : Descriptor} (hl : d.legal = true)
    (hs : d.semiPlanarLegal = true) (hb : d.planeBppLegal = true) {W H : Nat}
    (hW : W % d.subH.toNat = 0) (hH : H % d.subV.toNat = 0) :
    payloadBytes d W H =
      rowBytes d W .p0 * H + 2 * (rowBytes d W .p1 * planeHeight d H .p1) := by
  have hp2 : rowBytes d W .p2 * planeHeight d H .p2 = rowBytes d W .p1 * planeHeight d H .p1 := rfl
  have hp0 : planeHeight d H .p0 = H := rfl
  rw [payloadBytes_eq_planes hl hb hW hH,
    Descriptor.usedPlanes_three (Descriptor.semiPlanar_facts hs).1]
  simp only [List.map_cons, List.map_nil, List.sum_cons, List.sum_nil, hp2, hp0]
  omega

/-- What the chroma rows of a semi-planar body owe, the luma plane being copied: each stays in its row
and on the planes of slots 1 and 2, and gives each byte of these one source in the payload. -/
theorem semiPlanar_sources {d : Descriptor} (hs : d.semiPlanarLegal = true) {W H : Nat}
    {row : Nat → List Move}
    (hrow : ∀ y, ∀ m ∈ row y, m.row = y ∧ (m.plane = slotPlane d 1 ∨ m.plane = slotPlane d 2))
    (hluma : rowBytes d W .p0 * H ≤ payloadBytes d W H)
    (hchroma : ∀ p, p = slotPlane d 1 ∨ p = slotPlane d 2 → ∀ y < planeHeight d H .p1,
      ∀ k < rowBytes d W .p1, ∃ i < payloadBytes d W H, IsSource (row y) p y k i) :
    SourcesInPayload d W H (copyPlane .p0 0 (rowBytes d W .p0) H ++
      (List.range (planeHeight d H .p1)).flatMap row) := by
  have hplanes := Descriptor.semiPlanar_planes hs
  have hoff : ∀ y, ∀ m ∈ row y, m.plane ≠ .p0 := fun y m hm => by
    have := (hrow y m hm).2
    grind
  have hslot : ∀ p, p ≠ .p0 → p = slotPlane d 1 ∨ p = slotPlane d 2 := fun p => by
    cases p <;> grind
  have hcopy : ∀ p, p ≠ .p0 → ∀ m ∈ copyPlane .p0 0 (rowBytes d W .p0) H, m.plane ≠ p :=
    fun p hp m hm => (mem_copyPlane.1 hm).1 ▸ hp.symm
  have chroma : ∀ p, p ≠ .p0 → ∀ y < planeHeight d H .p1, ∀ k < rowBytes d W .p1,
      ∃ i < payloadBytes d W H, IsSource (copyPlane .p0 0 (rowBytes d W .p0) H ++
        (List.range (planeHeight d H .p1)).flatMap row) p y k i := fun p hp y hy k hk => by
    obtain ⟨i, hi, hsrc⟩ := hchroma p (hslot p hp) y hy k hk
    exact ⟨i, hi, (hsrc.flatMap_rows hy fun y' m hm => (hrow y' m hm).1).append_right (hcopy p hp)⟩
  intro p _ y hy k hk
  cases p with
  | p0 =>
    have hpos : y * rowBytes d W .p0 + k < rowBytes d W .p0 * H := rowMajor_lt hy hk
    refine ⟨_, by omega, (isSource_copyPlane hy hk).append_left fun m hm => ?_⟩
    obtain ⟨y', _, hm⟩ := List.mem_flatMap.1 hm
    exact hoff y' m hm
  | p1 => exact chroma .p1 (by decide) y hy k hk
  | p2 => exact chroma .p2 (by decide) y hy k hk

/-- A chroma row of DECODE.NV: the first byte of pair `k` for one plane, the second for the other. -/
theorem nvRow_sources {pa pb : Plane} (hne : pa ≠ pb) {cb cw y k : Nat} (hk : k < cw) :
    IsSource (nvRow pa pb cb cw y) pa y k (cb + y * (2 * cw) + 2 * k) ∧
      IsSource (nvRow pa pb cb cw y) pb y k (cb + y * (2 * cw) + 2 * k + 1) := by
  refine ⟨⟨mem_nvRow.2 (.inl ⟨rfl, rfl, hk, rfl⟩), fun m hm hp _ hcol => ?_⟩,
    ⟨mem_nvRow.2 (.inr (.inl ⟨rfl, rfl, hk, rfl⟩)), fun m hm hp _ hcol => ?_⟩⟩
  · rcases mem_nvRow.1 hm with ⟨_, _, _, hsrc⟩ | ⟨hpb, _⟩ | ⟨_, _, htail, _⟩
    · rw [hsrc, hcol]
    · exact absurd (hp.symm.trans hpb) hne
    · omega
  · rcases mem_nvRow.1 hm with ⟨hpa, _⟩ | ⟨_, _, _, hsrc⟩ | ⟨_, _, htail, _⟩
    · exact absurd (hpa.symm.trans hp) hne
    · rw [hsrc, hcol]
    · omega

theorem slots_ne_of_semiPlanar {d : Descriptor} (h : d.semiPlanarLegal = true) :
    slotPlane d 1 ≠ slotPlane d 2 := by
  rcases Descriptor.semiPlanar_planes h with ⟨h1, h2⟩ | ⟨h1, h2⟩ <;> rw [h1, h2] <;> decide

theorem nvMoves_sources {d : Descriptor} (hl : d.legal = true)
    (hv : d.variant = Variant.nvSemiplanar.code) {W H : Nat} (hW : W % d.subH.toNat = 0)
    (hH : H % d.subV.toNat = 0) : SourcesInPayload d W H (nvMoves d W H) := by
  obtain ⟨hs, _, _, hbpp⟩ := Descriptor.legal_variant hl hv
  have hsize := payloadBytes_semiPlanar hl hs hbpp hW hH
  have hrb := nv_rowBytes hl hv W
  have hluma : rowBytes d W .p0 = W := hrb .p0
  have hbody : nvMoves d W H = copyPlane .p0 0 (rowBytes d W .p0) H ++
      (List.range (planeHeight d H .p1)).flatMap
        (nvRow (slotPlane d 1) (slotPlane d 2) (W * H) (planeWidth d W .p1)) := by
    rw [hluma]
    rfl
  rw [hbody]
  refine semiPlanar_sources hs (fun y m hm => ?_) (by omega) fun p hp y hy k hk => ?_
  · rcases mem_nvRow.1 hm with ⟨hp, hr, _⟩ | ⟨hp, hr, _⟩ | ⟨hp, hr, _⟩
    · exact ⟨hr, .inl hp⟩
    · exact ⟨hr, .inr hp⟩
    · exact ⟨hr, hp⟩
  · rw [hluma, hrb] at hsize
    rw [hrb] at hk
    obtain ⟨hfirst, hsecond⟩ := nvRow_sources (slots_ne_of_semiPlanar hs) (cb := W * H) (y := y) hk
    have hpos := rowMajor_lt hy (show 2 * k + 1 < 2 * planeWidth d W .p1 by omega)
    rw [Nat.mul_assoc] at hpos
    rcases hp with rfl | rfl
    · exact ⟨_, by omega, hfirst⟩
    · exact ⟨_, by omega, hsecond⟩

/-- A chroma row of DECODE.P01X: byte `k` of the row is a byte of sample pair `k / 2`, whose first sample
is for one plane and whose second is for the other. -/
theorem p01xRow_sources {pa pb : Plane} (hne : pa ≠ pb) {cb cw y k : Nat} (hk : k < 2 * cw) :
    IsSource (p01xRow pa pb cb cw y) pa y k (cb + y * (4 * cw) + 4 * (k / 2) + k % 2) ∧
      IsSource (p01xRow pa pb cb cw y) pb y k (cb + y * (4 * cw) + 4 * (k / 2) + 2 + k % 2) := by
  have hx : k / 2 < cw := by omega
  have hb : k % 2 < 2 := by omega
  have hcol : k = 2 * (k / 2) + k % 2 := by omega
  have hpair : ∀ {m : Move} {x b : Nat}, m.col = k → m.col = 2 * x + b → b < 2 →
      x = k / 2 ∧ b = k % 2 := by omega
  refine ⟨⟨mem_p01xRow.2 ⟨k / 2, hx, k % 2, hb, rfl, hcol, .inl ⟨rfl, rfl⟩⟩, fun m hm hp _ hk => ?_⟩,
    ⟨mem_p01xRow.2 ⟨k / 2, hx, k % 2, hb, rfl, hcol, .inr ⟨rfl, rfl⟩⟩, fun m hm hp _ hk => ?_⟩⟩
  · obtain ⟨x, _, b, hb', _, hc, ⟨_, hsrc⟩ | ⟨hpb, _⟩⟩ := mem_p01xRow.1 hm
    · obtain ⟨rfl, rfl⟩ := hpair hk hc hb'
      exact hsrc
    · exact absurd (hp.symm.trans hpb) hne
  · obtain ⟨x, _, b, hb', _, hc, ⟨hpa, _⟩ | ⟨_, hsrc⟩⟩ := mem_p01xRow.1 hm
    · exact absurd (hpa.symm.trans hp) hne
    · obtain ⟨rfl, rfl⟩ := hpair hk hc hb'
      exact hsrc

theorem p01xMoves_sources {d : Descriptor} (hl : d.legal = true)
    (hv : d.variant = Variant.p01xSemiplanar16.code) {W H : Nat} (hW : W % d.subH.toNat = 0)
    (hH : H % d.subV.toNat = 0) : SourcesInPayload d W H (p01xMoves d W H) := by
  obtain ⟨hs, _, hbpp⟩ := Descriptor.legal_variant hl hv
  have hsize := payloadBytes_semiPlanar hl hs hbpp hW hH
  have hrb := p01x_rowBytes hl hv W
  have hluma : rowBytes d W .p0 = 2 * W := hrb .p0
  have hbody : p01xMoves d W H = copyPlane .p0 0 (rowBytes d W .p0) H ++
      (List.range (planeHeight d H .p1)).flatMap
        (p01xRow (slotPlane d 1) (slotPlane d 2) (2 * W * H) (planeWidth d W .p1)) := by
    rw [hluma]
    rfl
  rw [hbody]
  refine semiPlanar_sources hs (fun y m hm => ?_) (by omega) fun p hp y hy k hk => ?_
  · obtain ⟨_, _, _, _, hr, _, ⟨hp, _⟩ | ⟨hp, _⟩⟩ := mem_p01xRow.1 hm
    · exact ⟨hr, .inl hp⟩
    · exact ⟨hr, .inr hp⟩
  · rw [hluma, hrb, Nat.mul_assoc 2 (planeWidth d W .p1)] at hsize
    rw [hrb] at hk
    obtain ⟨hfirst, hsecond⟩ :=
      p01xRow_sources (slots_ne_of_semiPlanar hs) (cb := 2 * W * H) (y := y) hk
    have hpos := rowMajor_lt hy (show 4 * (k / 2) + 2 + k % 2 < 4 * planeWidth d W .p1 by omega)
    rw [Nat.mul_assoc] at hpos
    rcases hp with rfl | rfl
    · exact ⟨_, by omega, hfirst⟩
    · exact ⟨_, by omega, hsecond⟩

/-! ## DECODE.YUV422 -/

/-- Every rank below the count of a plane's slots is that of some slot: no column of a macropixel is
skipped. -/
theorem exists_slot_of_rank {d : Descriptor} {p : Plane} {n r : Nat} (hr : r < slotRank d p n) :
    ∃ j < n, slotPlane d j = p ∧ slotRank d p j = r := by
  induction n with
  | zero => exact absurd hr (Nat.not_lt_zero r)
  | succ n ih =>
    have hsucc : slotRank d p (n + 1) = slotRank d p n + if slotPlane d n = p then 1 else 0 := by
      simp [slotRank, List.range_succ, List.count_singleton]
    by_cases hlt : r < slotRank d p n
    · obtain ⟨j, hj, hslot⟩ := ih hlt
      exact ⟨j, by omega, hslot⟩
    · split_ifs at hsucc with hp
      · exact ⟨n, n.lt_succ_self, hp, by omega⟩
      · omega

theorem yuv422Moves_sources {d : Descriptor} (hl : d.legal = true)
    (hv : d.variant = Variant.packedYuv422.code) {W H : Nat} (hW : W % d.subH.toNat = 0) :
    SourcesInPayload d W H (yuv422Moves d W H) := by
  obtain ⟨hy422, hbpp⟩ := Descriptor.legal_variant hl hv
  obtain ⟨_, _, hsubH, hsubV, _⟩ := Descriptor.yuv422_facts hy422
  obtain ⟨⟨hs0, hs1, hs2⟩, _⟩ := yuv422_slots hy422
  intro p _ y hy k hk
  rw [yuv422_rowBytes hl hv] at hk
  rw [hsubH] at hW
  have hyH : y < H := by cases p <;> simpa [planeHeight, hsubV] using hy
  have hslots : 0 < slotsOf d p ∧ k / slotsOf d p < W / 2 := by
    cases p <;> simp only [planeWidth, hsubH, hs0, hs1, hs2] at hk ⊢ <;> omega
  obtain ⟨hpos, hx⟩ := hslots
  obtain ⟨j, hj, rfl, hrank⟩ := exists_slot_of_rank (Nat.mod_lt k hpos)
  have hcol : k = k / slotsOf d (slotPlane d j) * slotsOf d (slotPlane d j) +
      slotRank d (slotPlane d j) j := by
    rw [hrank]
    exact (Nat.div_add_mod' k _).symm
  refine ⟨y * (2 * W) + 4 * (k / slotsOf d (slotPlane d j)) + j, ?_,
    mem_yuv422Moves.2 ⟨hyH, _, hx, j, hj, rfl, hcol, rfl⟩, ?_⟩
  · have hin := rowMajor_lt hyH (show 4 * (k / slotsOf d (slotPlane d j)) + j < 2 * W by omega)
    have hsize : payloadBytes d W H = 2 * W * H := by
      rw [payloadBytes_packed (B := 2) hbpp, Nat.mul_comm, Nat.mul_assoc]
    omega
  · rintro m hm hplane rfl rfl
    exact yuv422Moves_src hl hv hj hm hplane (hplane ▸ hcol)

/-! ## DECODE.RGB24, DECODE.RGB32, DECODE.RGB48 -/

/-- Three slots from `a` up that are a permutation of 0, 1, 2 name each plane once. -/
theorem exists_slot_of_permutation {d : Descriptor} {a : Nat}
    (h : isPermutation (d.order a) (d.order (1 + a)) (d.order (2 + a)) = true) (p : Plane) :
    ∃ c < 3, slotPlane d (c + a) = p ∧ ∀ c' < 3, slotPlane d (c' + a) = p → c' = c := by
  obtain ⟨⟨h01, h02, h12⟩, hcover⟩ := Descriptor.slots_cover h
  have hcases : ∀ c' < 3, c' = 0 ∨ c' = 1 ∨ c' = 2 := by omega
  rcases hcover p with rfl | rfl | rfl
  · exact ⟨0, by decide, by rw [Nat.zero_add], by grind⟩
  · exact ⟨1, by decide, rfl, by grind⟩
  · exact ⟨2, by decide, rfl, by grind⟩

/-- A row of a word-gather RGB body: byte `k` of a plane is that plane's byte of pixel `k`, one of the
pixel's `B`. -/
theorem rgbRow_sources {d : Descriptor} {W B a y k : Nat} {p : Plane} (hk : k < W) (ha : 3 + a ≤ B)
    (h : isPermutation (d.order a) (d.order (1 + a)) (d.order (2 + a)) = true) :
    ∃ c < B, IsSource (rgbRow d W B a y) p y k ((y * W + k) * B + c) := by
  obtain ⟨c, hc, hslot, honly⟩ := exists_slot_of_permutation h p
  refine ⟨c + a, by omega,
    mem_rgbRow.2 (.inl ⟨rfl, hk, c, hc, hslot.symm, by simp only [Nat.add_assoc]⟩), ?_⟩
  rintro m hm hplane rfl rfl
  rcases mem_rgbRow.1 hm with ⟨_, _, c', hc', hslot', hsrc⟩ | ⟨_, htail, _⟩
  · rw [hsrc, honly c' hc' (hslot'.symm.trans hplane), Nat.add_assoc]
  · omega

/-- A word-gather RGB body of `B` bytes a pixel, whose planes are those of slots `a` to `a + 2`. -/
theorem rgbRows_sources {d : Descriptor} (hp : d.packedLegal = true) (h8 : d.depth.toNat = 8) {B a : Nat}
    (hbpp : d.bpp.toNat = B * 8) (ha : 3 + a ≤ B)
    (h : isPermutation (d.order a) (d.order (1 + a)) (d.order (2 + a)) = true) (W H : Nat) :
    SourcesInPayload d W H ((List.range H).flatMap fun y => rgbRow d W B a y) := by
  intro p _ y hy k hk
  obtain ⟨hwidth, hheight⟩ := packed_planeWidth hp W H p
  rw [hheight] at hy
  rw [rowBytes, hwidth, Descriptor.bps_eight h8, Nat.mul_one] at hk
  obtain ⟨c, hc, hsrc⟩ := rgbRow_sources (y := y) (p := p) hk ha h
  refine ⟨_, ?_, hsrc.flatMap_rows hy fun y' m hm => ?_⟩
  · rw [payloadBytes_packed hbpp]
    exact packedByte_lt (rowMajor_lt hy hk) hc
  · rcases mem_rgbRow.1 hm with ⟨hrow, _⟩ | ⟨hrow, _⟩ <;> exact hrow

theorem rgb24Moves_sources {d : Descriptor} (hl : d.legal = true)
    (hv : d.variant = Variant.packedRgb24.code) (W H : Nat) :
    SourcesInPayload d W H (rgb24Moves d W H) := by
  obtain ⟨hp, h8, horder, hbpp⟩ := Descriptor.legal_variant hl hv
  exact rgbRows_sources hp h8 (B := 3) hbpp (by decide) (Descriptor.trailing_perm horder).1 W H

/-- The channel slots of PACKED_RGB32 start at `alphaShift`, with either place of the sentinel (R130). -/
theorem alphaShift_cases {d : Descriptor} (h : d.trailingOrder = true ∨ d.leadingOrder = true) :
    alphaShift d ≤ 1 ∧ isPermutation (d.order (alphaShift d)) (d.order (1 + alphaShift d))
      (d.order (2 + alphaShift d)) = true := by
  rcases h with htrail | hlead
  · obtain ⟨hperm, _⟩ := Descriptor.trailing_perm htrail
    have h0 : d.order 0 ≠ noPlane := by
      have := (isPermutation_iff.1 hperm).1
      rw [noPlane]
      omega
    rw [alphaShift, if_neg h0]
    exact ⟨Nat.zero_le 1, hperm⟩
  · obtain ⟨h0, hperm⟩ := Descriptor.leading_perm hlead
    rw [alphaShift, if_pos h0]
    exact ⟨le_rfl, hperm⟩

theorem rgb32Moves_sources {d : Descriptor} (hl : d.legal = true)
    (hv : d.variant = Variant.packedRgb32.code) (W H : Nat) :
    SourcesInPayload d W H (rgb32Moves d W H) := by
  obtain ⟨hp, h8, horder, hbpp⟩ := Descriptor.legal_variant hl hv
  obtain ⟨hshift, hperm⟩ := alphaShift_cases horder
  exact rgbRows_sources hp h8 (B := 4) hbpp (by omega) hperm W H

theorem rgb48Moves_sources {d : Descriptor} (hl : d.legal = true)
    (hv : d.variant = Variant.packedRgb48.code) (W H : Nat) :
    SourcesInPayload d W H (rgb48Moves d W H) := by
  obtain ⟨hp, h9, horder, hbpp⟩ := Descriptor.legal_variant hl hv
  intro p _ y hy k hk
  obtain ⟨hwidth, hheight⟩ := packed_planeWidth hp W H p
  rw [hheight] at hy
  rw [rowBytes, hwidth, Descriptor.bps_above h9] at hk
  obtain ⟨c, hc, hslot, honly⟩ :=
    exists_slot_of_permutation (a := 0) (Descriptor.trailing_perm horder).1 p
  have hcol : k = 2 * (k / 2) + k % 2 := by omega
  refine ⟨(y * W + k / 2) * 6 + (2 * c + k % 2), ?_, mem_rgb48Moves.2 ⟨hy, k / 2, by omega, c, hc,
    k % 2, by omega, hslot.symm, hcol, by simp only [Nat.add_assoc]⟩, ?_⟩
  · rw [payloadBytes_packed (B := 6) hbpp]
    exact packedByte_lt (rowMajor_lt hy (by omega)) (by omega)
  · rintro m hm hplane rfl rfl
    obtain ⟨_, x, _, c', hc', b, hb, hslot', hcol, hsrc⟩ := mem_rgb48Moves.1 hm
    rw [hsrc, honly c' hc' (hslot'.symm.trans hplane), show x = m.col / 2 by omega,
      show b = m.col % 2 by omega, Nat.add_assoc]

/-! ## Every body -/

/-- Every active byte of a legal descriptor's planes has one source, and it is in the payload. -/
theorem bodyMoves_sources {d : Descriptor} (hl : d.legal = true) {W H : Nat}
    (hW : W % d.subH.toNat = 0) (hH : H % d.subV.toNat = 0) :
    SourcesInPayload d W H (bodyMoves d W H) := by
  obtain ⟨v, hv⟩ := Descriptor.legal_has_variant hl
  unfold bodyMoves
  cases v <;> (rw [hv]; simp only [Variant.code])
  case planar => exact planarMoves_sources hl hv hW hH
  case nvSemiplanar => exact nvMoves_sources hl hv hW hH
  case p01xSemiplanar16 => exact p01xMoves_sources hl hv hW hH
  case packedYuv422 => exact yuv422Moves_sources hl hv hW
  case packedRgb24 => exact rgb24Moves_sources hl hv W H
  case packedRgb32 => exact rgb32Moves_sources hl hv W H
  case packedRgb48 => exact rgb48Moves_sources hl hv W H

end Sys2Proof.Machine
end

section
/-! PROOFS. Descriptors that differ by 1 and 2 exchanged throughout ORDER (spec/40_format_rom.md, R134):
one body is the other with planes 1 and 2 exchanged, so the sources of the active bytes are. -/

namespace Sys2Proof

open Sys2Proof.Machine

/-- Planes 1 and 2 exchanged. -/
def Plane.swapChroma : Plane → Plane
  | .p0 => .p0
  | .p1 => .p2
  | .p2 => .p1

theorem Plane.swapChroma_injective : Function.Injective Plane.swapChroma := by
  intro p q
  cases p <;> cases q <;> decide

namespace Descriptor

/-- What `swapChroma` does to one slot value, read as a plane: 9 and the reserved values stay. -/
theorem ofCode_swap (v : BitVec 4) :
    (Plane.ofCode (if v = 1 then 2 else if v = 2 then 1 else v).toNat).getD .p0 =
      ((Plane.ofCode v.toNat).getD .p0).swapChroma := by
  revert v
  decide

/-- The exchange of ORDER's values is the exchange of the planes its slots name. -/
theorem slotPlane_swapChroma (d : Descriptor) (i : Nat) :
    slotPlane d.swapChroma i = (slotPlane d i).swapChroma :=
  match i with
  | 0 => ofCode_swap d.order0
  | 1 => ofCode_swap d.order1
  | 2 => ofCode_swap d.order2
  | _ + 3 => ofCode_swap d.order3

theorem swap_eq_noPlane_iff (v : BitVec 4) :
    (if v = 1 then 2 else if v = 2 then 1 else v).toNat = noPlane ↔ v.toNat = noPlane := by
  revert v
  decide

end Descriptor

end Sys2Proof

namespace Sys2Proof.Machine

/-! ## What the exchange keeps -/

/-- The sentinel keeps its place. -/
theorem alphaShift_swapChroma (d : Descriptor) : alphaShift d.swapChroma = alphaShift d :=
  if_congr (Descriptor.swap_eq_noPlane_iff d.order0) rfl rfl

@[simp] theorem planeHeight_swapChroma (d : Descriptor) (H : Nat) (p : Plane) :
    planeHeight d.swapChroma H p.swapChroma = planeHeight d H p := by cases p <;> rfl

@[simp] theorem rowBytes_swapChroma (d : Descriptor) (W : Nat) (p : Plane) :
    rowBytes d.swapChroma W p.swapChroma = rowBytes d W p := by cases p <;> rfl

theorem planarOrder_swapChroma (d : Descriptor) :
    planarOrder d.swapChroma = (planarOrder d).map Plane.swapChroma := by
  rw [planarOrder, planarOrder, List.map_map]
  exact List.map_congr_left fun i _ => Descriptor.slotPlane_swapChroma d i

theorem slotRank_swapChroma (d : Descriptor) (p : Plane) (j : Nat) :
    slotRank d.swapChroma p.swapChroma j = slotRank d p j := by
  have hmap : (List.range j).map (slotPlane d.swapChroma) =
      ((List.range j).map (slotPlane d)).map Plane.swapChroma := by
    rw [List.map_map]
    exact List.map_congr_left fun i _ => Descriptor.slotPlane_swapChroma d i
  rw [slotRank, hmap, List.count_map_of_injective _ _ Plane.swapChroma_injective, slotRank]

/-! ## The bodies -/

/-- A move with planes 1 and 2 exchanged. -/
def Move.swapChroma (m : Move) : Move := { m with plane := m.plane.swapChroma }

theorem copyPlane_swapChroma {p : Plane} {off rb ph : Nat} {m : Move} (h : m ∈ copyPlane p off rb ph) :
    m.swapChroma ∈ copyPlane p.swapChroma off rb ph := by
  obtain ⟨hp, hrest⟩ := mem_copyPlane.1 h
  exact mem_copyPlane.2 ⟨congrArg Plane.swapChroma hp, hrest⟩

theorem planarFrom_swapChroma {d : Descriptor} {W H : Nat} {ps : List Plane} {off : Nat} {m : Move}
    (h : m ∈ planarFrom d W H ps off) :
    m.swapChroma ∈ planarFrom d.swapChroma W H (ps.map Plane.swapChroma) off := by
  induction ps generalizing off with
  | nil => cases h
  | cons p ps ih =>
    rw [List.map_cons, planarFrom, rowBytes_swapChroma, planeHeight_swapChroma, List.mem_append]
    exact (List.mem_append.1 h).imp copyPlane_swapChroma ih

theorem planarMoves_swapChroma {d : Descriptor} {W H : Nat} {m : Move} (h : m ∈ planarMoves d W H) :
    m.swapChroma ∈ planarMoves d.swapChroma W H := by
  rw [planarMoves, planarOrder_swapChroma]
  exact planarFrom_swapChroma h

theorem nvMoves_swapChroma {d : Descriptor} {W H : Nat} {m : Move} (h : m ∈ nvMoves d W H) :
    m.swapChroma ∈ nvMoves d.swapChroma W H := by
  refine mem_nvMoves.2 ((mem_nvMoves.1 h).imp copyPlane_swapChroma ?_)
  rintro ⟨y, hy, hrow⟩
  refine ⟨y, hy, ?_⟩
  rw [Descriptor.slotPlane_swapChroma, Descriptor.slotPlane_swapChroma]
  have hplane : ∀ {p : Plane}, m.plane = p → m.swapChroma.plane = p.swapChroma :=
    congrArg Plane.swapChroma
  exact mem_nvRow.2 ((mem_nvRow.1 hrow).imp (.imp_left hplane)
    (.imp (.imp_left hplane) (.imp_left (.imp hplane hplane))))

theorem p01xMoves_swapChroma {d : Descriptor} {W H : Nat} {m : Move} (h : m ∈ p01xMoves d W H) :
    m.swapChroma ∈ p01xMoves d.swapChroma W H := by
  refine mem_p01xMoves.2 ((mem_p01xMoves.1 h).imp copyPlane_swapChroma ?_)
  rintro ⟨y, hy, hrow⟩
  refine ⟨y, hy, ?_⟩
  rw [Descriptor.slotPlane_swapChroma, Descriptor.slotPlane_swapChroma]
  obtain ⟨x, hx, b, hb, hr, hc, hsrc⟩ := mem_p01xRow.1 hrow
  exact mem_p01xRow.2 ⟨x, hx, b, hb, hr, hc, hsrc.imp (.imp_left (congrArg Plane.swapChroma))
    (.imp_left (congrArg Plane.swapChroma))⟩

theorem yuv422Moves_swapChroma {d : Descriptor} {W H : Nat} {m : Move} (h : m ∈ yuv422Moves d W H) :
    m.swapChroma ∈ yuv422Moves d.swapChroma W H := by
  obtain ⟨hy, x, hx, j, hj, hp, hc, hsrc⟩ := mem_yuv422Moves.1 h
  refine mem_yuv422Moves.2 ⟨hy, x, hx, j, hj, ?_, ?_, hsrc⟩
  · rw [Descriptor.slotPlane_swapChroma]
    exact congrArg Plane.swapChroma hp
  · change m.col = x * slotRank d.swapChroma m.plane.swapChroma 4 +
      slotRank d.swapChroma m.plane.swapChroma j
    rw [slotRank_swapChroma, slotRank_swapChroma]
    exact hc

theorem rgbRow_swapChroma {d : Descriptor} {W B a y : Nat} {m : Move} (h : m ∈ rgbRow d W B a y) :
    m.swapChroma ∈ rgbRow d.swapChroma W B a y := by
  refine mem_rgbRow.2 ((mem_rgbRow.1 h).imp ?_ id)
  rintro ⟨hr, hk, c, hc, hp, hsrc⟩
  refine ⟨hr, hk, c, hc, ?_, hsrc⟩
  rw [Descriptor.slotPlane_swapChroma]
  exact congrArg Plane.swapChroma hp

theorem rgb24Moves_swapChroma {d : Descriptor} {W H : Nat} {m : Move} (h : m ∈ rgb24Moves d W H) :
    m.swapChroma ∈ rgb24Moves d.swapChroma W H :=
  mem_rgb24Moves.2 ((mem_rgb24Moves.1 h).imp_right rgbRow_swapChroma)

theorem rgb32Moves_swapChroma {d : Descriptor} {W H : Nat} {m : Move} (h : m ∈ rgb32Moves d W H) :
    m.swapChroma ∈ rgb32Moves d.swapChroma W H := by
  rw [mem_rgb32Moves, alphaShift_swapChroma]
  exact (mem_rgb32Moves.1 h).imp_right rgbRow_swapChroma

theorem rgb48Moves_swapChroma {d : Descriptor} {W H : Nat} {m : Move} (h : m ∈ rgb48Moves d W H) :
    m.swapChroma ∈ rgb48Moves d.swapChroma W H := by
  obtain ⟨hy, x, hx, c, hc, b, hb, hp, hrest⟩ := mem_rgb48Moves.1 h
  refine mem_rgb48Moves.2 ⟨hy, x, hx, c, hc, b, hb, ?_, hrest⟩
  rw [Descriptor.slotPlane_swapChroma]
  exact congrArg Plane.swapChroma hp

/-- The body for the exchanged descriptor has every move of the body with planes 1 and 2 exchanged. -/
theorem bodyMoves_swapChroma {d : Descriptor} (hl : d.legal = true) {W H : Nat} {m : Move}
    (h : m ∈ bodyMoves d W H) : m.swapChroma ∈ bodyMoves d.swapChroma W H := by
  have hvariant : d.swapChroma.variant = d.variant := rfl
  obtain ⟨v, hv⟩ := Descriptor.legal_has_variant hl
  revert h
  unfold bodyMoves
  rw [hvariant]
  cases v <;> (rw [hv]; simp only [Variant.code])
  case planar => exact planarMoves_swapChroma
  case nvSemiplanar => exact nvMoves_swapChroma
  case p01xSemiplanar16 => exact p01xMoves_swapChroma
  case packedYuv422 => exact yuv422Moves_swapChroma
  case packedRgb24 => exact rgb24Moves_swapChroma
  case packedRgb32 => exact rgb32Moves_swapChroma
  case packedRgb48 => exact rgb48Moves_swapChroma

/-! ## The DECODE -/

/-- A geometry that a descriptor admits is one of multiples of its factors (R152). -/
theorem geometryOk_mod {maxDim W H : Nat} {d : Descriptor} (h : geometryOk maxDim d W H = true) :
    W % d.subH.toNat = 0 ∧ H % d.subV.toNat = 0 := by
  simp only [geometryOk, Bool.and_eq_true, beq_iff_eq] at h
  obtain ⟨⟨_, hW⟩, hH⟩ := h
  exact ⟨hW, hH⟩

/-- A DECODE that reaches its body leaves in each active byte its source byte, from inside the source
window. -/
theorem State.DecodeReady.read {s t : State} {v : Variant} {i : Instr} (h : s.DecodeReady v)
    (hi : decodeVariant v.code = .ok i) (ht : exec i s = .next t) {p : Plane}
    (hp : p ∈ usedPlanes s.desc) {y k : Nat} (hy : y < planeHeight s.desc s.H p)
    (hk : k < rowBytes s.desc s.W p) :
    ∃ j < s.payloadSize.toNat, IsSource (bodyMoves s.desc s.W s.H) p y k j ∧
      Mem.read t.dst (s.dstAddr p y k) = s.srcByte j := by
  obtain ⟨hW, hH⟩ := geometryOk_mod h.geometry
  obtain ⟨j, hj, hsrc⟩ := bodyMoves_sources h.legal hW hH p hp y hy k hk
  refine ⟨j, h.payload ▸ hj, hsrc, ?_⟩
  rw [exec_decode_body hi h.resolved h.legal h.variant h.windows] at ht
  cases ht
  exact hsrc.read h.windows (bodyMoves_inPlanes h.legal s.W s.H)

/-- Settles O52: an active byte and its counterpart in the exchanged plane have the same source offset,
and the two source windows hold the same bytes. -/
theorem swappedOrderSwapsPlanes : Obligations.SwappedOrderSwapsPlanes := by
  intro s s' t t' v i hi hdesc hplanes hwidth hheight _ hdst hsrc hready hready' ht ht'
  have hW : s'.W = s.W := congrArg BitVec.toNat hwidth
  have hH : s'.H = s.H := congrArg BitVec.toNat hheight
  have haddr : ∀ p y k, s'.dstAddr p y k = s.dstAddr p y k := fun p y k => by
    rw [State.dstAddr, State.dstAddr, (hdst p).1, (hdst p).2]
  have exchanged : ∀ p, ∀ y < planeHeight s.desc s.H p, ∀ k < rowBytes s.desc s.W p,
      Mem.read t.dst (s.dstAddr p y k) = Mem.read t'.dst (s.dstAddr p.swapChroma y k) := by
    intro p y hy k hk
    obtain ⟨j, hj, hsource, hread⟩ :=
      hready.read hi ht (Descriptor.mem_usedPlanes_three hplanes p) hy hk
    obtain ⟨j', _, hsource', hread'⟩ := hready'.read hi ht' (p := p.swapChroma) (y := y) (k := k)
      (Descriptor.mem_usedPlanes_three (hdesc ▸ hplanes) _) (by simpa [hdesc, hH] using hy)
      (by simpa [hdesc, hW] using hk)
    have hsame : j = j' := by
      rw [hdesc, hW, hH] at hsource'
      exact hsource'.unique (bodyMoves_swapChroma hready.legal hsource.assigned)
    rw [hread, ← haddr, hread', ← hsame, hsrc j hj]
  exact ⟨exchanged .p0, fun y hy k hk => ⟨exchanged .p1 y hy k hk, exchanged .p2 y hy k hk⟩⟩

end Sys2Proof.Machine
end

section
/-! PROOFS. Command words (spec/41_commands.md): what a write to CMD does while IDLE and while BUSY. -/

namespace Sys2Proof.Machine

/-- While BUSY a register write that the bus allows is discarded, with OVR set, the input taken off
(R46). -/
theorem step_regWrite_busy {s : State} {w : AccessWidth} {off : Nat} {v : Word}
    {rest : List HostAction} (hs : s.seq = .busy) (hok : regAccessOk w off = true)
    (hi : s.inputs = .regWrite w off v :: rest) :
    step s = .next (State.setOvr { s with inputs := rest }) := by
  have hw : State.writeOffset { s with inputs := rest } off v =
      State.setOvr { s with inputs := rest } := by
    simp [State.writeOffset, hs]
  rw [step_cons hi]
  simp [hostStep, hostRegWrite, hok, hw]

/-- Settles O14: CMD is the register at offset 0, whose write is the acceptance of the word while IDLE
and a discarded write while BUSY. -/
theorem commandWriteIsAccepted : Obligations.CommandWriteIsAccepted := by
  intro s c rest hi
  have hcmd : s.inputs = .regWrite .word Reg.cmd.offset c :: rest := hi
  constructor
  · intro hidle
    exact step_regWrite_idle hidle hcmd
  · intro hbusy
    exact step_regWrite_busy hbusy (regAccessOk_offset .cmd) hcmd

end Sys2Proof.Machine
end

section
/-! PROOFS. A DECODE whose body only copies source bytes (spec/41_commands.md, R154): the step that
completes it, and that it draws no free value. -/

namespace Sys2Proof.Machine

/-- In flight, the command word 2 steps to what the DECODE of the resolved variant answers (R91, R92). -/
theorem State.commandStepsTo_of_exec {v : Variant} {i : Instr} {s t : State}
    (hi : decodeVariant v.code = .ok i) (hv : s.desc.variant = v.code) (ht : exec i s = .next t) :
    s.CommandStepsTo t := by
  intro hbusy hinputs hpending
  have hdecode : decode s.dispatchWord = .ok i := by
    rw [decode_dispatch, hpending, hv, hi]
    rfl
  rw [step_nil hinputs, engineStep_busy hbusy, completion, hdecode]
  exact ht

/-- A move that copies a source byte draws no free value. -/
theorem State.applyMove_free_of_copy (s : State) {m : Move} (h : m.src ≠ none) :
    (s.applyMove m).free = s.free := by
  obtain ⟨i, hsrc⟩ := Option.ne_none_iff_exists'.1 h
  simp [State.applyMove, hsrc]

/-- Nor does a body of such moves. -/
theorem State.runMoves_free_of_copies (s : State) {ms : List Move} (h : ∀ m ∈ ms, m.src ≠ none) :
    (s.runMoves ms).free = s.free := by
  induction ms generalizing s with
  | nil => rfl
  | cons m ms ih =>
    obtain ⟨hm, hms⟩ := List.forall_mem_cons.1 h
    rw [State.runMoves, ih _ hms, s.applyMove_free_of_copy hm]

/-- An active body without free bytes keeps the counter and every DST byte outside the active areas. -/
theorem MovesActive.frame {s : State} {ms : List Move} (ha : MovesActive s.desc s.W s.H ms)
    (hc : ∀ m ∈ ms, m.src ≠ none) :
    (s.runMoves ms).complete.free = s.free ∧
      ∀ a, ¬ s.ActiveAddr s.desc a →
        Mem.read (s.runMoves ms).complete.dst a = Mem.read s.dst a := by
  constructor
  · rw [State.complete_free, s.runMoves_free_of_copies hc]
  · intro a houtside
    rw [State.complete_dst]
    exact State.runMoves_outside_active
      (fun m hm => ⟨ha.inPlanes.inPlane m hm, (ha m hm).2.2⟩) houtside

end Sys2Proof.Machine
end

section
/-! PROOFS. DECODE.PLANAR (spec/42_decode_planar.md): each source plane goes to the plane its slot
names. -/

namespace Sys2Proof.Machine

@[simp] theorem length_planarOrder (d : Descriptor) : (planarOrder d).length = d.planes.toNat := by
  simp [planarOrder]

@[simp] theorem getElem_planarOrder (d : Descriptor) {i : Nat} (hi : i < (planarOrder d).length) :
    (planarOrder d)[i] = slotPlane d i := by
  simp [planarOrder]

/-- A source plane starts at the sizes of the planes of the slots before its own (R171). -/
theorem planarOffset_planarOrder (d : Descriptor) (W H : Nat) {i : Nat} (hi : i < d.planes.toNat) :
    planarOffset d W H (planarOrder d) i = ((List.range i).map fun j =>
      rowBytes d W (slotPlane d j) * planeHeight d H (slotPlane d j)).sum := by
  rw [planarOffset, planarOrder, ← List.map_take, List.take_range, Nat.min_eq_left hi.le,
    List.map_map]
  rfl

theorem planarMoves_copies {d : Descriptor} {W H : Nat} : ∀ m ∈ planarMoves d W H, m.src ≠ none := by
  intro m hm
  obtain ⟨i, _, hcopy⟩ := mem_planarFrom.1 hm
  obtain ⟨_, _, _, hsrc⟩ := mem_copyPlane.1 hcopy
  simp [hsrc]

/-- The source of an active byte of the plane slot `i` names: its place in source plane `i`
(R170, R171). -/
theorem isSource_planarMoves {d : Descriptor} (hl : d.legal = true)
    (hv : d.variant = Variant.planar.code) {W H i y k : Nat} (hi : i < d.planes.toNat)
    (hy : y < planeHeight d H (slotPlane d i)) (hk : k < rowBytes d W (slotPlane d i)) :
    IsSource (planarMoves d W H) (slotPlane d i) y k
      (((List.range i).map fun j =>
          rowBytes d W (slotPlane d j) * planeHeight d H (slotPlane d j)).sum +
        y * rowBytes d W (slotPlane d i) + k) := by
  have hlen : i < (planarOrder d).length := by rwa [length_planarOrder]
  have hslot := getElem_planarOrder d hlen
  rw [← planarOffset_planarOrder d W H hi]
  constructor
  · rw [← hslot] at hy hk ⊢
    exact planarMoves_mem hlen hy hk
  · rintro m hm hplane rfl rfl
    rw [planarMoves_src hl hv hlen hm (hplane.trans hslot.symm), hplane]

/-- Settles O42: the body copies each active byte from its one place in the payload, touches only active
bytes, and draws no free value. -/
theorem decodePlanarCopiesPlanes : Obligations.DecodePlanarCopiesPlanes := by
  intro s hready
  have hactive := planarMoves_active hready.legal hready.variant s.W s.H
  obtain ⟨hfree, hframe⟩ := hactive.frame planarMoves_copies
  have hexec : exec .decodePlanar s = .next (s.runMoves (planarMoves s.desc s.W s.H)).complete :=
    decodeWith_body hready.resolved hready.legal hready.variant hready.windows
  refine ⟨_, hexec, State.commandStepsTo_of_exec (v := .planar) rfl hready.variant hexec,
    s.completedFrom_runMoves _, hfree, ?_, hframe⟩
  intro i hi p hp y hy k hk
  obtain rfl : slotPlane s.desc i = p := slotPlane_of_code hp
  rw [State.complete_dst]
  exact (isSource_planarMoves hready.legal hready.variant hi hy hk).read hready.windows
    hactive.inPlanes

end Sys2Proof.Machine
end

section
/-! PROOFS. What a DECODE that reaches its body answers, whatever its variant (spec/41_commands.md, R151,
R154), and what it leaves where its body assigns a payload byte. -/

namespace Sys2Proof.Machine

/-- A DECODE that reaches its body completes, by its meaning and by the step of command word 2, and
changes only what a completed body may. -/
theorem State.DecodeReady.completes {s : State} {v : Variant} {i : Instr} {ms : List Move}
    (h : s.DecodeReady v) (hi : decodeVariant v.code = .ok i)
    (hbody : bodyMoves s.desc s.W s.H = ms) :
    exec i s = .next (s.runMoves ms).complete ∧ s.CommandStepsTo (s.runMoves ms).complete ∧
      s.CompletedFrom (s.runMoves ms).complete := by
  have hexec := exec_decode_body hi h.resolved h.legal h.variant h.windows
  rw [hbody] at hexec
  exact ⟨hexec, State.commandStepsTo_of_exec hi h.variant hexec, s.completedFrom_runMoves ms⟩

/-- An active byte that the body assigns from payload offset `j` ends as source byte `j`: its source is
the only one. -/
theorem State.DecodeReady.read_assigned {s : State} {v : Variant} {ms : List Move}
    (h : s.DecodeReady v) (hbody : bodyMoves s.desc s.W s.H = ms) {p : Plane} {y k j : Nat}
    (hmem : ⟨p, y, k, some j⟩ ∈ ms) (hk : k < rowBytes s.desc s.W p) :
    Mem.read (s.runMoves ms).complete.dst (s.dstAddr p y k) = s.srcByte j := by
  subst hbody
  have hin := bodyMoves_inPlanes h.legal s.W s.H
  obtain ⟨hp, hy, _⟩ := hin _ hmem
  obtain ⟨hW, hH⟩ := geometryOk_mod h.geometry
  obtain ⟨j', _, hsrc⟩ := bodyMoves_sources h.legal hW hH p hp y hy k hk
  obtain rfl : j = j' := hsrc.unique hmem
  rw [State.complete_dst]
  exact hsrc.read h.windows hin

end Sys2Proof.Machine
end

section
/-! PROOFS. DECODE.NV and DECODE.P01X (spec/43_decode_semiplanar.md): luma is copied, the chroma pairs
are split between the planes of slots 1 and 2. -/

namespace Sys2Proof.Machine

/-- Slots 1 and 2 of a semi-planar descriptor name chroma planes (R128). -/
theorem slots_chroma_of_semiPlanar {d : Descriptor} (h : d.semiPlanarLegal = true) :
    (slotPlane d 1 = .p1 ∨ slotPlane d 1 = .p2) ∧ (slotPlane d 2 = .p1 ∨ slotPlane d 2 = .p2) := by
  rcases Descriptor.semiPlanar_planes h with ⟨h1, h2⟩ | ⟨h1, h2⟩ <;> simp [h1, h2]

/-! ## DECODE.NV -/

theorem bodyMoves_nv {d : Descriptor} (hv : d.variant = Variant.nvSemiplanar.code) (W H : Nat) :
    bodyMoves d W H = nvMoves d W H := by
  simp [bodyMoves, hv, Variant.code]

/-- A chroma row of NV holds a byte for every two luma samples. -/
theorem nv_chroma_rowBytes {d : Descriptor} (hl : d.legal = true)
    (hv : d.variant = Variant.nvSemiplanar.code) {p : Plane} (hp : p = .p1 ∨ p = .p2) (W : Nat) :
    rowBytes d W p = W / 2 := by
  obtain ⟨_, _, hsubH, _⟩ := Descriptor.legal_variant hl hv
  rw [nv_rowBytes hl hv, chroma_width hp, planeWidth, hsubH]

theorem nvMoves_luma (d : Descriptor) {W H y k : Nat} (hy : y < H) (hk : k < W) :
    ⟨.p0, y, k, some (y * W + k)⟩ ∈ nvMoves d W H :=
  mem_nvMoves.2 (.inl (mem_copyPlane.2 ⟨rfl, hy, hk, by rw [Nat.zero_add]⟩))

/-- Pair `x` of a chroma row gives its first byte to the plane of slot 1, its second to that of slot 2
(R180). -/
theorem nvMoves_pair {d : Descriptor} (h2 : d.subH.toNat = 2) {W H y x : Nat}
    (hy : y < H / d.subV.toNat) (hx : x < W / 2) :
    ⟨slotPlane d 1, y, x, some (W * H + y * (2 * (W / 2)) + 2 * x)⟩ ∈ nvMoves d W H ∧
      ⟨slotPlane d 2, y, x, some (W * H + y * (2 * (W / 2)) + 2 * x + 1)⟩ ∈ nvMoves d W H := by
  have hpairs : planeWidth d W .p1 = W / 2 := by rw [planeWidth, h2]
  rw [← hpairs] at hx ⊢
  exact ⟨mem_nvMoves.2 (.inr ⟨y, hy, mem_nvRow.2 (.inl ⟨rfl, rfl, hx, rfl⟩)⟩),
    mem_nvMoves.2 (.inr ⟨y, hy, mem_nvRow.2 (.inr (.inl ⟨rfl, rfl, hx, rfl⟩))⟩)⟩

/-- Every move of DECODE.NV goes to an active luma byte or to a chroma row, tail padding included. -/
theorem nvMoves_places {d : Descriptor} (hl : d.legal = true)
    (hv : d.variant = Variant.nvSemiplanar.code) {W H : Nat} {m : Move} (hm : m ∈ nvMoves d W H) :
    (m.plane = .p0 ∧ m.row < H ∧ m.col < W) ∨
      ((m.plane = .p1 ∨ m.plane = .p2) ∧ m.row < H / d.subV.toNat ∧ m.col < ceil4 (W / 2)) := by
  rcases mem_nvMoves.1 hm with hluma | ⟨y, _, hrow⟩
  · obtain ⟨hp, hy, hk, _⟩ := mem_copyPlane.1 hluma
    exact .inl ⟨hp, hy, hk⟩
  · obtain ⟨hfirst, hsecond⟩ := slots_chroma_of_semiPlanar (Descriptor.legal_variant hl hv).1
    have hplane : m.plane = slotPlane d 1 ∨ m.plane = slotPlane d 2 := by
      rcases mem_nvRow.1 hrow with ⟨hp, _⟩ | ⟨hp, _⟩ | ⟨hp, _⟩
      · exact .inl hp
      · exact .inr hp
      · exact hp
    have hchroma : m.plane = .p1 ∨ m.plane = .p2 :=
      hplane.elim (fun h => h ▸ hfirst) fun h => h ▸ hsecond
    obtain ⟨_, hy, hk⟩ := nvMoves_inPlanes hl hv W H m hm
    rw [chroma_height hchroma] at hy
    rw [nv_chroma_rowBytes hl hv hchroma] at hk
    exact .inr ⟨hchroma, hy, hk⟩

/-- Settles O43: luma bytes and chroma pairs are assigned where the statement says, and no move leaves
the active luma bytes and the chroma rows. -/
theorem decodeNvSplitsBytePairs : Obligations.DecodeNvSplitsBytePairs := by
  intro s hready
  obtain ⟨hsemi, _, hsubH, _⟩ := Descriptor.legal_variant hready.legal hready.variant
  obtain ⟨hfirst, hsecond⟩ := slots_chroma_of_semiPlanar hsemi
  have hlumaRow := nv_rowBytes hready.legal hready.variant s.W .p0
  have hfirstRow := nv_chroma_rowBytes hready.legal hready.variant hfirst s.W
  have hsecondRow := nv_chroma_rowBytes hready.legal hready.variant hsecond s.W
  have hbody := bodyMoves_nv hready.variant s.W s.H
  obtain ⟨hexec, hstep, hdone⟩ := hready.completes (i := .decodeNv) rfl hbody
  refine ⟨_, hexec, hstep, hdone, ?_, ?_, ?_⟩
  · intro y hy k hk
    exact hready.read_assigned hbody (nvMoves_luma _ hy hk) (hlumaRow ▸ hk)
  · intro pa pb hpa hpb y hy x hx
    obtain rfl : slotPlane s.desc 1 = pa := slotPlane_of_code hpa
    obtain rfl : slotPlane s.desc 2 = pb := slotPlane_of_code hpb
    obtain ⟨hmemFirst, hmemSecond⟩ := nvMoves_pair hsubH hy hx
    exact ⟨hready.read_assigned hbody hmemFirst (hfirstRow ▸ hx),
      hready.read_assigned hbody hmemSecond (hsecondRow ▸ hx)⟩
  · intro a hluma hchroma
    rw [State.complete_dst]
    refine State.runMoves_read_untouched s _ a fun m hm => ?_
    rw [State.moveAddr]
    obtain ⟨hp, hy, hk⟩ | ⟨hp | hp, hy, hk⟩ := nvMoves_places hready.legal hready.variant hm
    · exact hp ▸ hluma _ hy _ hk
    · exact hp ▸ (hchroma _ hy _ hk).1
    · exact hp ▸ (hchroma _ hy _ hk).2

/-! ## DECODE.P01X -/

theorem bodyMoves_p01x {d : Descriptor} (hv : d.variant = Variant.p01xSemiplanar16.code) (W H : Nat) :
    bodyMoves d W H = p01xMoves d W H := by
  simp [bodyMoves, hv, Variant.code]

theorem p01xMoves_luma (d : Descriptor) {W H y k : Nat} (hy : y < H) (hk : k < 2 * W) :
    ⟨.p0, y, k, some (y * (2 * W) + k)⟩ ∈ p01xMoves d W H :=
  mem_p01xMoves.2 (.inl (mem_copyPlane.2 ⟨rfl, hy, hk, by rw [Nat.zero_add]⟩))

/-- Pair `x` of a chroma row gives its first two bytes, in their order, to the plane of slot 1, the other
two to that of slot 2 (R182). -/
theorem p01xMoves_pair {d : Descriptor} {W H y x b : Nat} (hy : y < H / d.subV.toNat)
    (hx : x < W / d.subH.toNat) (hb : b < 2) :
    ⟨slotPlane d 1, y, 2 * x + b,
        some (2 * W * H + y * (4 * (W / d.subH.toNat)) + 4 * x + b)⟩ ∈ p01xMoves d W H ∧
      ⟨slotPlane d 2, y, 2 * x + b,
        some (2 * W * H + y * (4 * (W / d.subH.toNat)) + 4 * x + 2 + b)⟩ ∈ p01xMoves d W H :=
  ⟨mem_p01xMoves.2 (.inr ⟨y, hy, mem_p01xRow.2 ⟨x, hx, b, hb, rfl, rfl, .inl ⟨rfl, rfl⟩⟩⟩),
    mem_p01xMoves.2 (.inr ⟨y, hy, mem_p01xRow.2 ⟨x, hx, b, hb, rfl, rfl, .inr ⟨rfl, rfl⟩⟩⟩)⟩

theorem p01xMoves_copies {d : Descriptor} {W H : Nat} : ∀ m ∈ p01xMoves d W H, m.src ≠ none := by
  intro m hm
  rcases mem_p01xMoves.1 hm with hluma | ⟨y, _, hrow⟩
  · obtain ⟨_, _, _, hsrc⟩ := mem_copyPlane.1 hluma
    simp [hsrc]
  · obtain ⟨_, _, _, _, _, _, ⟨_, hsrc⟩ | ⟨_, hsrc⟩⟩ := mem_p01xRow.1 hrow <;> simp [hsrc]

/-- Settles O44: luma bytes and the bytes of each sample pair are assigned where the statement says, and
the body moves nothing but source bytes to active bytes. -/
theorem decodeP01xSplitsSamplePairs : Obligations.DecodeP01xSplitsSamplePairs := by
  intro s hready
  have hactive := p01xMoves_active hready.legal hready.variant s.W s.H
  obtain ⟨hfree, hframe⟩ := hactive.frame p01xMoves_copies
  have hbody := bodyMoves_p01x hready.variant s.W s.H
  obtain ⟨hexec, hstep, hdone⟩ := hready.completes (i := .decodeP01x) rfl hbody
  have hread : ∀ {p y k j}, ⟨p, y, k, some j⟩ ∈ p01xMoves s.desc s.W s.H →
      Mem.read (s.runMoves (p01xMoves s.desc s.W s.H)).complete.dst (s.dstAddr p y k) = s.srcByte j :=
    fun hm => hready.read_assigned hbody hm (hactive _ hm).2.2
  refine ⟨_, hexec, hstep, hdone, hfree, ?_, ?_, hframe⟩
  · intro y hy k hk
    exact hread (p01xMoves_luma _ hy hk)
  · rintro pa pb hpa hpb cw rfl y hy x hx b hb
    obtain rfl : slotPlane s.desc 1 = pa := slotPlane_of_code hpa
    obtain rfl : slotPlane s.desc 2 = pb := slotPlane_of_code hpb
    obtain ⟨hfirst, hsecond⟩ := p01xMoves_pair hy hx hb
    exact ⟨hread hfirst, hread hsecond⟩

end Sys2Proof.Machine
end

section
/-! PROOFS. DECODE.YUV422 (spec/44_decode_packed_yuv422.md): the four bytes of a macropixel go, by slot,
to two columns of plane 0 and to one column each of planes 1 and 2. -/

namespace Sys2Proof.Machine

theorem bodyMoves_yuv422 {d : Descriptor} (hv : d.variant = Variant.packedYuv422.code) (W H : Nat) :
    bodyMoves d W H = yuv422Moves d W H := by
  simp [bodyMoves, hv, Variant.code]

theorem yuv422Moves_copies {d : Descriptor} {W H : Nat} : ∀ m ∈ yuv422Moves d W H, m.src ≠ none := by
  intro m hm
  obtain ⟨_, _, _, _, _, _, _, hsrc⟩ := mem_yuv422Moves.1 hm
  simp [hsrc]

/-! ## The column each slot fills -/

theorem slotRank_mono (d : Descriptor) (p : Plane) {i j : Nat} (h : i ≤ j) :
    slotRank d p i ≤ slotRank d p j :=
  ((List.range_sublist.2 h).map (slotPlane d)).count_le p

/-- Of the two slots that name plane 0 the one first on disk has rank 0, the left pixel, and the other
rank 1 (R190). -/
theorem yuv422_luma_ranks {d : Descriptor} (h : d.yuv422Legal = true) {j0 j1 : Nat} (hlt : j0 < j1)
    (hj1 : j1 < 4) (h0 : slotPlane d j0 = .p0) (h1 : slotPlane d j1 = .p0) :
    slotRank d .p0 j0 = 0 ∧ slotRank d .p0 j1 = 1 := by
  obtain ⟨⟨hcount, _⟩, hbound, hinj⟩ := yuv422_slots h
  have hlt0 := hbound j0 (hlt.trans hj1)
  have hlt1 := hbound j1 hj1
  have hne := mt (hinj j0 (hlt.trans hj1) j1 hj1 (h0.trans h1.symm)) hlt.ne
  have hle := slotRank_mono d .p0 hlt.le
  rw [h0] at hlt0 hne
  rw [h1] at hlt1 hne
  omega

/-- A slot that names a plane of one byte a macropixel has rank 0. -/
theorem yuv422_rank_of_single {d : Descriptor} (h : d.yuv422Legal = true) {p : Plane}
    (hp : slotsOf d p = 1) {j : Nat} (hj : j < 4) (hslot : slotPlane d j = p) : slotRank d p j = 0 := by
  obtain ⟨_, hbound, _⟩ := yuv422_slots h
  subst hslot
  exact Nat.lt_one_iff.1 (hp ▸ hbound j hj)

/-- Byte `j` of macropixel `x` goes to the plane of slot `j`, past the bytes the plane has from the
macropixels before and from the slots before (R190). -/
theorem yuv422Moves_slot {d : Descriptor} {W H y x j : Nat} {p : Plane} (hy : y < H) (hx : x < W / 2)
    (hj : j < 4) (hslot : slotPlane d j = p) :
    ⟨p, y, x * slotsOf d p + slotRank d p j, some (y * (2 * W) + 4 * x + j)⟩ ∈ yuv422Moves d W H :=
  mem_yuv422Moves.2 ⟨hy, x, hx, j, hj, hslot.symm, rfl, rfl⟩

/-- The two luma bytes of a macropixel are the pixels `2 * x` and `2 * x + 1` of the row, in disk
order. -/
theorem yuv422Moves_luma {d : Descriptor} (h : d.yuv422Legal = true) {W H y x j0 j1 : Nat} (hy : y < H)
    (hx : x < W / 2) (hlt : j0 < j1) (hj1 : j1 < 4) (h0 : slotPlane d j0 = .p0)
    (h1 : slotPlane d j1 = .p0) :
    ⟨.p0, y, 2 * x, some (y * (2 * W) + 4 * x + j0)⟩ ∈ yuv422Moves d W H ∧
      ⟨.p0, y, 2 * x + 1, some (y * (2 * W) + 4 * x + j1)⟩ ∈ yuv422Moves d W H := by
  obtain ⟨⟨hcount, _⟩, _⟩ := yuv422_slots h
  obtain ⟨hleft, hright⟩ := yuv422_luma_ranks h hlt hj1 h0 h1
  have hmem0 := yuv422Moves_slot hy hx (hlt.trans hj1) h0
  have hmem1 := yuv422Moves_slot hy hx hj1 h1
  rw [hcount, hleft, Nat.mul_comm x 2] at hmem0
  rw [hcount, hright, Nat.mul_comm x 2] at hmem1
  exact ⟨hmem0, hmem1⟩

/-- A byte of a macropixel that goes to a plane of one byte a macropixel goes to the macropixel's own
column. -/
theorem yuv422Moves_chroma {d : Descriptor} (h : d.yuv422Legal = true) {W H y x j : Nat} {p : Plane}
    (hy : y < H) (hx : x < W / 2) (hj : j < 4) (hp : slotsOf d p = 1) (hslot : slotPlane d j = p) :
    ⟨p, y, x, some (y * (2 * W) + 4 * x + j)⟩ ∈ yuv422Moves d W H := by
  have hmem := yuv422Moves_slot hy hx hj hslot
  rwa [hp, yuv422_rank_of_single h hp hj hslot, Nat.mul_one] at hmem

/-- Settles O45: each byte of a macropixel is assigned to the column the statement names, and the body
moves nothing but source bytes to active bytes. -/
theorem decodeYuv422ScattersMacropixels : Obligations.DecodeYuv422ScattersMacropixels := by
  intro s hready
  obtain ⟨hlegal, _⟩ := Descriptor.legal_variant hready.legal hready.variant
  obtain ⟨⟨_, hcountu, hcountv⟩, _⟩ := yuv422_slots hlegal
  have hactive := yuv422Moves_active hready.legal hready.variant s.W s.H
  obtain ⟨hfree, hframe⟩ := hactive.frame yuv422Moves_copies
  have hbody := bodyMoves_yuv422 hready.variant s.W s.H
  obtain ⟨hexec, hstep, hdone⟩ := hready.completes (i := .decodeYuv422) rfl hbody
  have hread : ∀ {p y k j}, ⟨p, y, k, some j⟩ ∈ yuv422Moves s.desc s.W s.H →
      Mem.read (s.runMoves (yuv422Moves s.desc s.W s.H)).complete.dst (s.dstAddr p y k) = s.srcByte j :=
    fun hm => hready.read_assigned hbody hm (hactive _ hm).2.2
  refine ⟨_, hexec, hstep, hdone, hfree, ?_, hframe⟩
  intro j0 j1 ju jv hlt hj1 hju hjv h0 h1 hu hv y hy x hx
  obtain ⟨hleft, hright⟩ := yuv422Moves_luma hlegal hy hx hlt hj1 (slotPlane_of_code h0)
    (slotPlane_of_code h1)
  have hmemu := yuv422Moves_chroma hlegal hy hx hju hcountu (slotPlane_of_code hu)
  have hmemv := yuv422Moves_chroma hlegal hy hx hjv hcountv (slotPlane_of_code hv)
  exact ⟨hread hleft, hread hright, hread hmemu, hread hmemv⟩

end Sys2Proof.Machine
end

section
/-! PROOFS. DECODE.RGB24, DECODE.RGB32 and DECODE.RGB48 (spec/45_decode_packed_rgb.md): the channels of
each pixel are split between the planes their slots name. -/

namespace Sys2Proof.Machine

/-- No plane has the index that stands for "no plane" (R98). -/
theorem plane_code_ne_noPlane (p : Plane) : p.code ≠ noPlane := by cases p <;> decide

/-- A row of a packed format is `W` samples in every plane (R130). -/
theorem packed_rowBytes {d : Descriptor} (h : d.packedLegal = true) (W : Nat) (p : Plane) :
    rowBytes d W p = W * d.bps := by
  rw [rowBytes, (packed_planeWidth h W 0 p).1]

/-! ## The word-gather bodies: DECODE.RGB24 and DECODE.RGB32 -/

theorem bodyMoves_rgb24 {d : Descriptor} (hv : d.variant = Variant.packedRgb24.code) (W H : Nat) :
    bodyMoves d W H = (List.range H).flatMap fun y => rgbRow d W 3 0 y := by
  simp [bodyMoves, hv, Variant.code, rgb24Moves]

theorem bodyMoves_rgb32 {d : Descriptor} (hv : d.variant = Variant.packedRgb32.code) (W H : Nat) :
    bodyMoves d W H = (List.range H).flatMap fun y => rgbRow d W 4 (alphaShift d) y := by
  simp [bodyMoves, hv, Variant.code, rgb32Moves]

/-- Channel `c` of pixel `x` goes to the plane of slot `c + a` from the same byte of the pixel
(R201, R202). -/
theorem rgbRows_channel (d : Descriptor) {W H B a y x c : Nat} (hy : y < H) (hx : x < W) (hc : c < 3) :
    ⟨slotPlane d (c + a), y, x, some ((y * W + x) * B + (c + a))⟩ ∈
      (List.range H).flatMap fun y => rgbRow d W B a y :=
  List.mem_flatMap.2 ⟨y, List.mem_range.2 hy,
    mem_rgbRow.2 (.inl ⟨rfl, hx, c, hc, rfl, by rw [Nat.add_assoc]⟩)⟩

/-- A DECODE that reaches a word-gather RGB body completes, gives each plane its byte of every pixel, and
leaves DST alone outside the planes and their tail padding (R76, R77, R201, R202). -/
theorem State.DecodeReady.splits_rgbRows {s : State} {v : Variant} {i : Instr} {B a : Nat}
    (h : s.DecodeReady v) (hi : decodeVariant v.code = .ok i) (hp : s.desc.packedLegal = true)
    (h8 : s.desc.depth.toNat = 8)
    (hbody : bodyMoves s.desc s.W s.H = (List.range s.H).flatMap fun y => rgbRow s.desc s.W B a y) :
    ∃ t, exec i s = .next t ∧ s.CommandStepsTo t ∧ s.CompletedFrom t ∧
      (∀ c < 3, ∀ p : Plane, s.desc.order (c + a) = p.code → ∀ y < s.H, ∀ x < s.W,
        Mem.read t.dst (s.dstAddr p y x) = s.srcByte ((y * s.W + x) * B + (c + a))) ∧
      (∀ addr, ¬ s.TouchableAddr s.desc addr → Mem.read t.dst addr = Mem.read s.dst addr) := by
  obtain ⟨hexec, hstep, hdone⟩ := h.completes hi hbody
  refine ⟨_, hexec, hstep, hdone, ?_, commandsStayInsideTheFootprints i s _ hexec⟩
  intro c hc p hslot y hy x hx
  obtain rfl : slotPlane s.desc (c + a) = p := slotPlane_of_code hslot
  refine h.read_assigned hbody (rgbRows_channel _ hy hx hc) ?_
  rwa [packed_rowBytes hp, Descriptor.bps_eight h8, Nat.mul_one]

/-- Settles O46: RGB24 is the word-gather body of three bytes a pixel, none of them dropped. -/
theorem decodeRgb24SplitsPixels : Obligations.DecodeRgb24SplitsPixels := by
  intro s hready
  obtain ⟨hp, h8, _⟩ := Descriptor.legal_variant hready.legal hready.variant
  exact hready.splits_rgbRows (i := .decodeRgb24) rfl hp h8 (bodyMoves_rgb24 hready.variant s.W s.H)

/-- A slot of PACKED_RGB32 that names a plane is one of the three from `alphaShift` up: the sentinel is
in slot 0, before them, or in slot 3, after them (R130). -/
theorem exists_channel_of_slot {d : Descriptor} (h : d.trailingOrder = true ∨ d.leadingOrder = true)
    {j : Nat} (hj : j < 4) {p : Plane} (hp : d.order j = p.code) : ∃ c < 3, c + alphaShift d = j := by
  have hslot : d.order j ≠ noPlane := hp ▸ plane_code_ne_noPlane p
  by_cases h0 : d.order 0 = noPlane
  · have hj0 : j ≠ 0 := fun hj0 => hslot (hj0 ▸ h0)
    rw [alphaShift, if_pos h0]
    exact ⟨j - 1, by omega, by omega⟩
  · have htrail := h.resolve_right fun hlead => h0 (Descriptor.leading_perm hlead).1
    have hj3 : j ≠ 3 := fun hj3 => hslot (hj3 ▸ (Descriptor.trailing_perm htrail).2)
    rw [alphaShift, if_neg h0]
    exact ⟨j, by omega, rfl⟩

/-- Settles O47: RGB32 is the word-gather body of four bytes a pixel, whose channels are the slots
without the sentinel. -/
theorem decodeRgb32SplitsPixelsAndDropsOneByte :
    Obligations.DecodeRgb32SplitsPixelsAndDropsOneByte := by
  intro s hready
  obtain ⟨hp, h8, horder, _⟩ := Descriptor.legal_variant hready.legal hready.variant
  obtain ⟨t, hexec, hstep, hdone, hread, hframe⟩ := hready.splits_rgbRows (i := .decodeRgb32) rfl hp h8
    (bodyMoves_rgb32 hready.variant s.W s.H)
  refine ⟨t, hexec, hstep, hdone, ?_, hframe⟩
  intro j hj p hslot
  obtain ⟨c, hc, rfl⟩ := exists_channel_of_slot horder hj hslot
  exact hread c hc p hslot

/-! ## DECODE.RGB48 -/

theorem bodyMoves_rgb48 {d : Descriptor} (hv : d.variant = Variant.packedRgb48.code) (W H : Nat) :
    bodyMoves d W H = rgb48Moves d W H := by
  simp [bodyMoves, hv, Variant.code]

theorem rgb48Moves_copies {d : Descriptor} {W H : Nat} : ∀ m ∈ rgb48Moves d W H, m.src ≠ none := by
  intro m hm
  obtain ⟨_, _, _, _, _, _, _, _, _, hsrc⟩ := mem_rgb48Moves.1 hm
  simp [hsrc]

/-- Byte `b` of sample `c` of pixel `x` goes to byte `b` of sample `x` in the plane of slot `c`
(R203). -/
theorem rgb48Moves_sample (d : Descriptor) {W H y x c b : Nat} (hy : y < H) (hx : x < W) (hc : c < 3)
    (hb : b < 2) :
    ⟨slotPlane d c, y, 2 * x + b, some ((y * W + x) * 6 + 2 * c + b)⟩ ∈ rgb48Moves d W H :=
  mem_rgb48Moves.2 ⟨hy, x, hx, c, hc, b, hb, rfl, rfl, rfl⟩

/-- Settles O48: the two bytes of each sample are assigned where the statement says, and the body moves
nothing but source bytes to active bytes. -/
theorem decodeRgb48SplitsSamples : Obligations.DecodeRgb48SplitsSamples := by
  intro s hready
  have hactive := rgb48Moves_active hready.legal hready.variant s.W s.H
  obtain ⟨hfree, hframe⟩ := hactive.frame rgb48Moves_copies
  have hbody := bodyMoves_rgb48 hready.variant s.W s.H
  obtain ⟨hexec, hstep, hdone⟩ := hready.completes (i := .decodeRgb48) rfl hbody
  refine ⟨_, hexec, hstep, hdone, hfree, ?_, hframe⟩
  intro c hc p hslot y hy x hx b hb
  obtain rfl : slotPlane s.desc c = p := slotPlane_of_code hslot
  have hmem := rgb48Moves_sample s.desc hy hx hc hb
  exact hready.read_assigned hbody hmem (hactive _ hmem).2.2

end Sys2Proof.Machine
end

section
/-! PROOFS. STATUS after each outcome (spec/60_exceptions.md, R226): the word as the sum of its fields, and
the two reports a completion step can leave in them. -/

namespace Sys2Proof

/-! ## The codes of the error causes (R221) -/

theorem ErrCode.code_injective : Function.Injective ErrCode.code := by
  intro c c' h
  cases c <;> cases c' <;> trivial

theorem ErrCode.code_ne_zero (c : ErrCode) : c.code ≠ 0 := by cases c <;> decide

theorem ErrCode.code_le (c : ErrCode) : c.code.toNat ≤ 6 := by cases c <;> decide

end Sys2Proof

namespace Sys2Proof.Machine

/-! ## The STATUS word as a sum -/

theorem flagBit_toNat (b : Bool) {n : Nat} (h : n < 32) : (flagBit b n).toNat = if b then 2 ^ n else 0 := by
  have hpow : 2 ^ n < 2 ^ 32 := Nat.pow_lt_pow_right (by decide) h
  cases b with
  | false => simp [flagBit]
  | true => simpa [flagBit, Nat.shiftLeft_eq] using hpow

/-- A field that starts at bit `k`, above everything below it, adds its weight. -/
theorem toNat_or_field {low field : Word} {k x : Nat} (hlow : low.toNat < 2 ^ k)
    (hfield : field.toNat = 2 ^ k * x) : (low ||| field).toNat = low.toNat + field.toNat := by
  rw [BitVec.toNat_or, hfield, Nat.lor_comm, ← Nat.two_pow_add_eq_or_of_lt hlow, Nat.add_comm]

/-- A flag at bit `k` above everything below it: its weight is added, and the sum stays below the next
bit. -/
theorem toNat_or_flagBit {low : Word} {k : Nat} (b : Bool) (hk : k < 32) (hlow : low.toNat < 2 ^ k) :
    (low ||| flagBit b k).toNat = low.toNat + (if b then 2 ^ k else 0) ∧
      (low ||| flagBit b k).toNat < 2 ^ (k + 1) := by
  have hsum : (low ||| flagBit b k).toNat = low.toNat + (if b then 2 ^ k else 0) := by
    rw [← flagBit_toNat b hk]
    refine toNat_or_field (x := if b then 1 else 0) hlow ?_
    rw [flagBit_toNat b hk, mul_ite, mul_one, mul_zero]
  refine ⟨hsum, ?_⟩
  rw [hsum, pow_succ]
  split <;> omega

/-- ERRCODE at bits 7:4 above everything below them. -/
theorem toNat_or_errCode {low : Word} (c : BitVec 4) (hlow : low.toNat < 2 ^ 4) :
    (low ||| (c.setWidth 32 <<< 4)).toNat = low.toNat + c.toNat * 16 ∧
      (low ||| (c.setWidth 32 <<< 4)).toNat < 2 ^ 8 := by
  have hc := c.isLt
  have hfield : (c.setWidth 32 <<< 4).toNat = 2 ^ 4 * c.toNat := by
    simp only [BitVec.toNat_shiftLeft, BitVec.toNat_setWidth, Nat.shiftLeft_eq]
    omega
  have hsum := toNat_or_field hlow hfield
  omega

/-- R33: the fields of STATUS do not overlap, so its word is the sum of their weights. -/
theorem State.statusWord_toNat (s : State) :
    s.statusWord.toNat =
      (if s.seq = .busy then 1 else 0) + s.resolvedWeight + (if s.done then 4 else 0) +
      (if s.err then 8 else 0) + s.errCode.toNat * 16 + s.ovrWeight := by
  have hbusy : (flagBit s.busy 0).toNat = if s.seq = .busy then 1 else 0 := by
    simp [flagBit_toNat, State.busy]
  have hbit0 : (flagBit s.busy 0).toNat < 2 ^ 1 := by
    rw [hbusy]
    split <;> decide
  obtain ⟨hresolved, hbit1⟩ := toNat_or_flagBit s.resolved (by decide) hbit0
  obtain ⟨hdone, hbit2⟩ := toNat_or_flagBit s.done (by decide) hbit1
  obtain ⟨herr, hbit3⟩ := toNat_or_flagBit s.err (by decide) hbit2
  obtain ⟨hcode, hbit7⟩ := toNat_or_errCode s.errCode hbit3
  obtain ⟨hovr, _⟩ := toNat_or_flagBit s.ovr (by decide) hbit7
  rw [State.statusWord, hovr, hcode, herr, hdone, hresolved, hbusy]
  rfl

theorem State.resolvedWeight_of_resolved {t : State} (h : t.resolved = true) :
    t.resolvedWeight = 2 := if_pos h

theorem State.resolvedWeight_of_unresolved {t : State} (h : t.resolved = false) :
    t.resolvedWeight = 0 := by simp [State.resolvedWeight, h]

theorem State.ovrWeight_of_not_ovr {t : State} (h : t.ovr = false) : t.ovrWeight = 0 := by
  simp [State.ovrWeight, h]

/-! ## The reports of a completion step -/

/-- STATUS tells of a command that completed without error (R151). -/
structure State.ReportsDone (t : State) : Prop where
  idle : t.seq = .idle
  done : t.done = true
  no_err : t.err = false
  no_code : t.errCode = 0

/-- STATUS tells of a command that ended with error `c` (R225), and RESOLVED is what the cause implies: a
failed RESOLVE clears it, SEQUENCE is raised only without it, the window tests run only with it. -/
structure State.ReportsError (t : State) (c : ErrCode) : Prop where
  idle : t.seq = .idle
  not_done : t.done = false
  err : t.err = true
  code : t.errCode = c.code
  unresolved : c = .unsupportedFormat ∨ c = .invalidGeometry ∨ c = .sequence → t.resolved = false
  resolved : c = .dstConfig ∨ c = .range → t.resolved = true

theorem State.ReportsDone.statusWord_toNat {t : State} (h : t.ReportsDone) :
    t.statusWord.toNat = 0x004 + t.resolvedWeight + t.ovrWeight := by
  simp only [State.statusWord_toNat, h.idle, h.done, h.no_err, h.no_code, reduceCtorEq, if_true,
    if_false, Bool.false_eq_true, BitVec.ofNat_eq_ofNat, BitVec.toNat_zero]
  omega

theorem State.ReportsError.statusWord_toNat {t : State} {c : ErrCode} (h : t.ReportsError c) :
    t.statusWord.toNat = 0x008 + c.code.toNat * 16 + t.resolvedWeight + t.ovrWeight := by
  simp only [State.statusWord_toNat, h.idle, h.not_done, h.err, h.code, reduceCtorEq, if_true,
    if_false, Bool.false_eq_true]
  omega

/-- The errors that leave RESOLVED = 0: `r` adds nothing. -/
theorem State.ReportsError.statusWord_of_unresolved {t : State} {c : ErrCode} (h : t.ReportsError c)
    (hc : c = .unsupportedFormat ∨ c = .invalidGeometry ∨ c = .sequence) :
    t.statusWord.toNat = 0x008 + c.code.toNat * 16 + t.ovrWeight := by
  rw [h.statusWord_toNat, State.resolvedWeight_of_unresolved (h.unresolved hc), Nat.add_zero]

/-- The errors raised only with RESOLVED = 1: `r` is 2. -/
theorem State.ReportsError.statusWord_of_resolved {t : State} {c : ErrCode} (h : t.ReportsError c)
    (hc : c = .dstConfig ∨ c = .range) :
    t.statusWord.toNat = 0x00A + c.code.toNat * 16 + t.ovrWeight := by
  rw [h.statusWord_toNat, State.resolvedWeight_of_resolved (h.resolved hc)]
  omega

/-- ERRCODE names the cause. -/
theorem State.ReportsError.cause {t : State} {c c' : ErrCode} (h : t.ReportsError c)
    (hcode : t.errCode = c'.code) : c = c' :=
  ErrCode.code_injective (h.code.symm.trans hcode)

theorem State.ReportsError.errCode_ne_zero {t : State} {c : ErrCode} (h : t.ReportsError c) :
    t.errCode ≠ 0 := by
  rw [h.code]
  exact c.code_ne_zero

/-- While a command is in flight STATUS holds no report (R33, R150). -/
theorem State.StatusOk.no_report {s : State} (h : s.StatusOk) (hbusy : s.seq = .busy) :
    s.done = false ∧ s.err = false ∧ s.errCode = 0 := by
  obtain ⟨hdone, herr⟩ := h.busy_quiet hbusy
  refine ⟨hdone, herr, ?_⟩
  by_contra hcode
  simp [h.code_iff.1 hcode] at herr

theorem State.complete_reportsDone {s : State} (herr : s.err = false) (hcode : s.errCode = 0) :
    s.complete.ReportsDone := ⟨rfl, rfl, herr, hcode⟩

theorem State.raiseResolveErr_reportsError (s : State) {c : ErrCode}
    (h : c = .unsupportedFormat ∨ c = .invalidGeometry) : (s.raiseResolveErr c).ReportsError c where
  idle := rfl
  not_done := rfl
  err := rfl
  code := rfl
  unresolved _ := rfl
  resolved hc := by rcases h with rfl | rfl <;> simp at hc

/-- A completion step of a command whose acceptance cleared the report leaves one of the two reports; a
RESOLVE without error has resolved, a CLOSE has cleared RESOLVED and OVR (R152, R159, R225). -/
theorem completion_reports {s t : State} (herr : s.err = false) (hcode : s.errCode = 0)
    (h : completion s = .next t) :
    (t.ReportsDone ∧ (s.pending = 1 → t.resolved = true) ∧
      (s.pending = 3 → t.resolved = false ∧ t.ovr = false)) ∨
    ∃ c, t.ReportsError c := by
  rcases completion_shape h with
    ⟨hp, rfl⟩ | ⟨hp, hresolve⟩ | ⟨hp, hclose⟩ | ⟨_, _, _, c, rfl, hseq, hwin, htag, hgeo⟩ |
      ⟨hp, _, _, _, rfl⟩
  case inl =>
    exact .inl ⟨State.complete_reportsDone herr hcode, by simp [hp], by simp [hp]⟩
  case inr.inl =>
    rcases execResolve_next hresolve with ⟨_, rfl⟩ | ⟨_, _, _, _, _, _, ⟨_, rfl⟩ | ⟨_, rfl⟩⟩
    · exact .inr ⟨_, s.raiseResolveErr_reportsError (.inl rfl)⟩
    · exact .inl ⟨State.complete_reportsDone herr hcode, fun _ => rfl, by simp [hp]⟩
    · exact .inr ⟨_, s.raiseResolveErr_reportsError (.inr rfl)⟩
  case inr.inr.inl =>
    cases hclose
    exact .inl ⟨State.complete_reportsDone herr hcode, by simp [hp], fun _ => ⟨rfl, rfl⟩⟩
  case inr.inr.inr.inl =>
    refine .inr ⟨c, rfl, rfl, rfl, rfl, ?_, hwin⟩
    rintro (hc | hc | hc)
    · exact absurd hc htag
    · exact absurd hc hgeo
    · exact hseq hc
  case inr.inr.inr.inr =>
    rw [State.runMoves_frame]
    exact .inl ⟨State.complete_reportsDone herr hcode, by simp [hp], by simp [hp]⟩

/-- Settles O37: STATUS is the sum of its fields, which a command in flight leaves without a report and
its completion step with one of the two. -/
theorem statusWordAfterEachOutcome : Obligations.StatusWordAfterEachOutcome := by
  refine ⟨rfl, ?_, ?_⟩
  · intro s hinv hbusy
    obtain ⟨hdone, herr, hcode⟩ := hinv.status.no_report hbusy
    simp [State.statusWord_toNat, hbusy, hdone, herr, hcode]
  · intro s t hinv hturn hstep
    obtain ⟨_, herr, hcode⟩ := hinv.status.no_report hturn.1
    rw [step_engineTurn hturn] at hstep
    rcases completion_reports (s := { s with inputs := s.inputs.tail }) herr hcode hstep with
      ⟨hdone, hresolve, hclose⟩ | ⟨c, herror⟩
    · have hzero := hdone.no_code
      refine ⟨fun _ => ⟨hdone.statusWord_toNat, ?_, ?_⟩, by simp [hzero]⟩
      · exact fun hp => State.resolvedWeight_of_resolved (hresolve hp)
      · intro hp
        obtain ⟨hres, hovr⟩ := hclose hp
        exact ⟨State.resolvedWeight_of_unresolved hres, State.ovrWeight_of_not_ovr hovr⟩
    · refine ⟨fun h0 => absurd h0 herror.errCode_ne_zero, fun h1 => ?_, fun h2 => ?_, fun h3 => ?_,
        fun h4 => ?_, fun h5 => ?_, fun h6 => ?_, ?_⟩
      · obtain rfl := herror.cause (c' := .unsupportedFormat) h1
        exact herror.statusWord_of_unresolved (.inl rfl)
      · obtain rfl := herror.cause (c' := .invalidGeometry) h2
        exact herror.statusWord_of_unresolved (.inr (.inl rfl))
      · obtain rfl := herror.cause (c' := .illegalCmd) h3
        exact herror.statusWord_toNat
      · obtain rfl := herror.cause (c' := .sequence) h4
        exact herror.statusWord_of_unresolved (.inr (.inr rfl))
      · obtain rfl := herror.cause (c' := .dstConfig) h5
        exact herror.statusWord_of_resolved (.inl rfl)
      · obtain rfl := herror.cause (c' := .range) h6
        exact herror.statusWord_of_resolved (.inr rfl)
      · rw [herror.code]
        exact c.code_le

end Sys2Proof.Machine
end

section
/-! PROOFS. Writes while BUSY and the sticky OVR (spec/70_reset_and_hazards.md, R256): which
offsets a write may name, what leaves OVR, and what can clear it. -/

namespace Sys2Proof.Machine

/-- A word access at an aligned offset up to 0xFC is one that the bus allows (R64). -/
theorem regAccessOk_word {off : Nat} (h4 : off % 4 = 0) (hle : off ≤ 0xFC) :
    regAccessOk .word off = true := by
  simp [regAccessOk, h4, hle]

/-! ## What leaves OVR as it is -/

/-- No register write while IDLE touches OVR: `writeReg_keeps_report` for all registers but CMD, whose
acceptance keeps it too (R47, R150). -/
theorem State.writeReg_ovr (s : State) (r : Reg) (v : Word) : (s.writeReg r v).ovr = s.ovr := by
  by_cases h : r = .cmd
  · subst h
    exact s.accept_ovr v
  · obtain ⟨_, _, _, hovr⟩ := s.writeReg_keeps_report v h
    exact hovr

/-- A register write sets OVR or leaves it (R46). -/
theorem State.writeOffset_ovr_of_ovr {s : State} (off : Nat) (v : Word) (h : s.ovr = true) :
    (s.writeOffset off v).ovr = true := by
  rcases writeOffset_cases s off v with ⟨_, hw⟩ | ⟨_, r, _, hw⟩ | ⟨_, _, hw⟩
  · rw [hw, State.setOvr_ovr]
  · rw [hw, State.writeReg_ovr, h]
  · rw [hw, h]

theorem State.runMoves_ovr (s : State) (ms : List Move) : (s.runMoves ms).ovr = s.ovr := by
  rw [State.runMoves_frame]

theorem execResolve_keeps_ovr {s t : State} (h : execResolve s = .next t) : t.ovr = s.ovr := by
  rcases execResolve_next h with ⟨_, rfl⟩ | ⟨_, _, _, _, _, _, ⟨_, rfl⟩ | ⟨_, rfl⟩⟩ <;> simp

/-- Of the completion steps only that of CLOSE writes OVR (R159). -/
theorem completion_keeps_ovr {s t : State} (h : completion s = .next t) (hp : s.pending ≠ 3) :
    t.ovr = s.ovr := by
  rcases completion_shape h with
    ⟨_, rfl⟩ | ⟨_, hresolve⟩ | ⟨hclose, _⟩ | ⟨_, _, _, c, rfl, _⟩ | ⟨_, _, _, _, rfl⟩
  case inl => exact s.complete_ovr
  case inr.inl => exact execResolve_keeps_ovr hresolve
  case inr.inr.inl => exact absurd hclose hp
  case inr.inr.inr.inl => exact s.raiseErr_ovr c
  case inr.inr.inr.inr => rw [State.complete_ovr, State.runMoves_ovr]

/-! ## What can clear it -/

/-- The engine clears OVR only by completing a CLOSE. -/
theorem engineStep_ovr_cleared {s t : State} (h : engineStep s = .next t) (hs : s.ovr = true)
    (ht : t.ovr = false) : s.seq = .busy ∧ s.pending = 3 := by
  cases hseq : s.seq with
  | idle =>
    rw [engineStep_idle hseq] at h
    cases h
    simp [hs] at ht
  | busy =>
    rw [engineStep_busy hseq] at h
    refine ⟨rfl, ?_⟩
    by_contra hp
    simp [completion_keeps_ovr h hp, hs] at ht

/-- The outside world clears OVR only by the reset event, or by giving the engine its turn. -/
theorem hostStep_ovr_cleared {a : HostAction} {s t : State} (h : hostStep a s = .next t)
    (hs : s.ovr = true) (ht : t.ovr = false) :
    a = .reset ∨ (a = .wait ∧ s.seq = .busy ∧ s.pending = 3) := by
  cases a with
  | reset => exact .inl rfl
  | wait => exact .inr ⟨rfl, engineStep_ovr_cleared h hs ht⟩
  | regWrite w off v =>
    obtain ⟨_, rfl⟩ := hostRegWrite_next h
    simp [State.writeOffset_ovr_of_ovr off v hs] at ht
  | regRead w off =>
    obtain ⟨_, rfl⟩ := hostRegRead_next h
    simp [hs] at ht
  | srcStore a bs =>
    obtain ⟨_, rfl⟩ := hostSrcStore_next h
    simp [hs] at ht
  | dstLoad a =>
    obtain ⟨_, rfl⟩ := hostDstLoad_next h
    simp [hs] at ht
  | dstStore a bs =>
    obtain ⟨_, rfl⟩ := hostDstStore_next h
    simp [hs] at ht

/-- Settles O15: a write while BUSY is discarded with OVR set, and OVR is cleared neither by the other
actions of the host nor by the completion of another command than CLOSE. -/
theorem writeWhileBusySetsStickyOverrun : Obligations.WriteWhileBusySetsStickyOverrun := by
  constructor
  · intro s off v rest hbusy h4 hle hi
    exact step_regWrite_busy hbusy (regAccessOk_word h4 hle) hi
  · intro s t hstep hs ht
    rcases step_next hstep with ⟨hi, hengine⟩ | ⟨a, rest, hi, hhost⟩
    · obtain ⟨hbusy, hp⟩ := engineStep_ovr_cleared hengine hs ht
      exact .inr ⟨⟨hbusy, .inl hi⟩, hp⟩
    · rcases hostStep_ovr_cleared hhost hs ht with rfl | ⟨rfl, hbusy, hp⟩
      · exact .inl (by rw [hi, List.head?_cons])
      · exact .inr ⟨⟨hbusy, .inr (by rw [hi, List.head?_cons])⟩, hp⟩

end Sys2Proof.Machine
end

section
/-! PROOFS. What a command, a completion step and a step can do (spec/41_commands.md, R151, R161): one case
list and one frame each, from which the statements about single fields follow. -/

namespace Sys2Proof.Machine

/-! ## The frame of a command -/

/-- A command may change SEQ, the report, OVR, the resolution and DST, and draw free values; everything
else stays (R151, R225). -/
def State.CommandFrame (s t : State) : Prop :=
  t = { s with
    seq := t.seq, resolved := t.resolved, done := t.done, err := t.err, errCode := t.errCode
    ovr := t.ovr, fmtIndex := t.fmtIndex, descLo := t.descLo, descHi := t.descHi
    payloadSize := t.payloadSize, dst := t.dst, free := t.free }

theorem State.CommandFrame.refl (s : State) : s.CommandFrame s := rfl

theorem State.CommandFrame.runMoves_complete (s : State) (ms : List Move) :
    s.CommandFrame (s.runMoves ms).complete := by
  rw [State.runMoves_frame]
  rfl

section
variable {s t : State} (h : s.CommandFrame t)
include h

theorem State.CommandFrame.pending : t.pending = s.pending := by rw [h]

theorem State.CommandFrame.rom : t.rom = s.rom := by rw [h]

theorem State.CommandFrame.maxDim : t.maxDim = s.maxDim := by rw [h]

theorem State.CommandFrame.src : t.src = s.src := by rw [h]

theorem State.CommandFrame.inputs : t.inputs = s.inputs := by rw [h]

theorem State.CommandFrame.operands : ∀ r ∈ readWriteRegs, t.readReg r = s.readReg r := by
  rw [h]
  intro r hr
  fin_cases hr <;> rfl

end

/-! ## A completion step -/

/-- What a completion step can do: one case per outcome of a command (R152 to R159, R223). -/
inductive CompletionCase (s : State) : State → Prop
  | nop (hp : s.pending = 0) : CompletionCase s s.complete
  | resolved {i : Nat} {e : RomEntry} (hp : s.pending = 1)
      (hfound : romLookup s.rom s.tagKey = some (i, e)) (hlegal : e.legal = true) (hi : i < 256)
      (hmax : maxDimLegal s.maxDim = true) (hgeom : geometryOk s.maxDim e.desc s.W s.H = true) :
      CompletionCase s (s.setResolution i e).complete
  | resolveError (hp : s.pending = 1) (c : ErrCode) : CompletionCase s (s.raiseResolveErr c)
  | close (hp : s.pending = 3) : CompletionCase s ({ s.clearResolution with ovr := false }).complete
  | error (h1 : s.pending ≠ 1) (h3 : s.pending ≠ 3) (c : ErrCode) : CompletionCase s (s.raiseErr c)
  | body (hp : s.pending = 2) (hlegal : s.desc.legal = true) (hwindows : s.WindowsOk s.desc) :
      CompletionCase s (s.runMoves (bodyMoves s.desc s.W s.H)).complete

theorem completion_case {s t : State} (h : completion s = .next t) : CompletionCase s t := by
  rcases completion_shape h with
    ⟨hp, rfl⟩ | ⟨hp, hresolve⟩ | ⟨hp, hclose⟩ | ⟨_, h1, h3, c, rfl, _⟩ | ⟨hp, _, hlegal, hwin, rfl⟩
  case inl => exact .nop hp
  case inr.inl =>
    rcases execResolve_next hresolve with ⟨_, rfl⟩ | ⟨i, e, hs, hl, hi, hm, ⟨hg, rfl⟩ | ⟨_, rfl⟩⟩
    · exact .resolveError hp _
    · exact .resolved hp hs hl hi hm hg
    · exact .resolveError hp _
  case inr.inr.inl =>
    cases hclose
    exact .close hp
  case inr.inr.inr.inl => exact .error h1 h3 c
  case inr.inr.inr.inr => exact .body hp hlegal hwin

theorem CompletionCase.frame {s t : State} (h : CompletionCase s t) : s.CommandFrame t := by
  cases h with
  | body => exact State.CommandFrame.runMoves_complete ..
  | _ => rfl

/-- A completion step ends in IDLE (R151). -/
theorem CompletionCase.idle {s t : State} (h : CompletionCase s t) : t.seq = .idle := by
  cases h <;> rfl

/-- Each operation is held to the same frame. -/
theorem exec_frame {i : Instr} {s t : State} (h : exec i s = .next t) : s.CommandFrame t := by
  rcases instr_cases i with rfl | rfl | rfl | ⟨v, hv⟩
  · cases h
    rfl
  · rcases execResolve_next h with ⟨_, rfl⟩ | ⟨_, _, _, _, _, _, ⟨_, rfl⟩ | ⟨_, rfl⟩⟩ <;> rfl
  · cases h
    rfl
  · rcases exec_decode_next hv h with ⟨_, rfl⟩ | ⟨_, _, _, _, _, rfl⟩ | ⟨_, _, _, _, rfl⟩
    · rfl
    · rfl
    · exact State.CommandFrame.runMoves_complete ..

/-! ## A step -/

/-- What a step can do: one case per action of the outside world, the engine's turn and the two reads
apart (R40, R46, R250, R251, log 1). -/
inductive StepCase (s : State) : State → Prop
  | rest (hidle : s.seq = .idle) : StepCase s { s with inputs := s.inputs.tail }
  | turn {t : State} (hturn : s.EngineTurn)
      (hcase : CompletionCase { s with inputs := s.inputs.tail } t) : StepCase s t
  | regWrite (w : AccessWidth) (off : Nat) (v : Word)
      (hhead : s.inputs.head? = some (.regWrite w off v)) (hok : regAccessOk w off = true) :
      StepCase s (State.writeOffset { s with inputs := s.inputs.tail } off v)
  | read (d : Word) : StepCase s { s with inputs := s.inputs.tail, rdata := d }
  | srcStore (a : Nat) (bs : List Byte) (hhead : s.inputs.head? = some (.srcStore a bs))
      (hspace : a + bs.length ≤ spaceSize) :
      StepCase s { s with inputs := s.inputs.tail, src := Mem.writeBytes s.src a bs }
  | dstStore (a : Nat) (bs : List Byte) (hspace : a + bs.length ≤ spaceSize) :
      StepCase s { s with inputs := s.inputs.tail, dst := Mem.writeBytes s.dst a bs }
  | reset (hhead : s.inputs.head? = some .reset) :
      StepCase s (State.abandon { s with inputs := s.inputs.tail }).clearRegisters

/-- The engine's turn, given by an empty list of inputs or by WAIT. -/
theorem engineTurn_case {s t : State} (hi : s.inputs = [] ∨ s.inputs.head? = some .wait)
    (h : engineStep { s with inputs := s.inputs.tail } = .next t) : StepCase s t := by
  cases hseq : s.seq with
  | idle =>
    rw [engineStep_idle (s := { s with inputs := s.inputs.tail }) hseq] at h
    cases h
    exact .rest hseq
  | busy =>
    rw [engineStep_busy (s := { s with inputs := s.inputs.tail }) hseq] at h
    exact .turn ⟨hseq, hi⟩ (completion_case h)

theorem step_case {s t : State} (h : step s = .next t) : StepCase s t := by
  rcases step_next h with ⟨hi, hengine⟩ | ⟨a, rest, hi, hhost⟩
  · have hs : s = { s with inputs := s.inputs.tail } := by
      conv_rhs => rw [hi, List.tail_nil, ← hi]
    exact engineTurn_case (.inl hi) (hs ▸ hengine)
  · have htail : s.inputs.tail = rest := by rw [hi, List.tail_cons]
    have hhead : s.inputs.head? = some a := by rw [hi, List.head?_cons]
    subst htail
    cases a with
    | wait => exact engineTurn_case (.inr hhead) hhost
    | regWrite w off v =>
      obtain ⟨hok, rfl⟩ := hostRegWrite_next hhost
      exact .regWrite w off v hhead hok
    | regRead w off =>
      obtain ⟨_, rfl⟩ := hostRegRead_next hhost
      exact .read _
    | srcStore a bs =>
      obtain ⟨hspace, rfl⟩ := hostSrcStore_next hhost
      exact .srcStore a bs hhead hspace
    | dstLoad a =>
      obtain ⟨_, rfl⟩ := hostDstLoad_next hhost
      exact .read _
    | dstStore a bs =>
      obtain ⟨hspace, rfl⟩ := hostDstStore_next hhost
      exact .dstStore a bs hspace
    | reset =>
      cases hhost
      exact .reset hhead

end Sys2Proof.Machine
end

section
/-! PROOFS. Which step may change which field (spec/10_state.md, spec/40_format_rom.md, R121): the ROM,
SEQ, RESOLVED, the operand registers, PENDING and SRC. -/

namespace Sys2Proof.Machine

/-! ## Register writes and the reset event -/

/-- An abandoned command leaves everything but DST and the counter of free values (R250). -/
theorem State.abandon_frame (s : State) :
    s.abandon = { s with dst := s.abandon.dst, free := s.abandon.free } := by
  unfold State.abandon
  split
  · exact State.cutMoves_frame ..
  · rfl

/-- What the reset event leaves as it was: SRC, the ROM, MAXDIM and the inputs (R45, R250). -/
theorem State.abandon_clearRegisters_keeps (s : State) :
    s.abandon.clearRegisters.src = s.src ∧ s.abandon.clearRegisters.rom = s.rom ∧
      s.abandon.clearRegisters.maxDim = s.maxDim ∧ s.abandon.clearRegisters.inputs = s.inputs := by
  rw [State.abandon_frame]
  exact ⟨rfl, rfl, rfl, rfl⟩

theorem State.writeReg_keeps_parameters (s : State) (r : Reg) (v : Word) :
    (s.writeReg r v).rom = s.rom ∧ (s.writeReg r v).maxDim = s.maxDim ∧
      (s.writeReg r v).src = s.src ∧ (s.writeReg r v).dst = s.dst ∧
      (s.writeReg r v).inputs = s.inputs := by
  cases r <;> exact ⟨rfl, rfl, rfl, rfl, rfl⟩

/-- A register write never touches the memories, the parameters and the inputs (R46, R121). -/
theorem State.writeOffset_keeps_parameters (s : State) (off : Nat) (v : Word) :
    (s.writeOffset off v).rom = s.rom ∧ (s.writeOffset off v).maxDim = s.maxDim ∧
      (s.writeOffset off v).src = s.src ∧ (s.writeOffset off v).dst = s.dst ∧
      (s.writeOffset off v).inputs = s.inputs := by
  rcases writeOffset_cases s off v with ⟨_, hw⟩ | ⟨_, r, _, hw⟩ | ⟨_, _, hw⟩ <;> rw [hw]
  · exact ⟨rfl, rfl, rfl, rfl, rfl⟩
  · exact s.writeReg_keeps_parameters r v
  · exact ⟨rfl, rfl, rfl, rfl, rfl⟩

/-- Only a write to CMD touches SEQ and PENDING (R46, R150). -/
theorem State.writeReg_keeps_sequencer (s : State) {r : Reg} (v : Word) (h : r ≠ .cmd) :
    (s.writeReg r v).seq = s.seq ∧ (s.writeReg r v).pending = s.pending := by
  cases r with
  | cmd => exact absurd rfl h
  | _ => exact ⟨rfl, rfl⟩

/-- A register write leaves SEQ and PENDING, or is the acceptance of a command while IDLE (R46, R150). -/
theorem State.writeOffset_sequencer (s : State) (off : Nat) (v : Word) :
    ((s.writeOffset off v).seq = s.seq ∧ (s.writeOffset off v).pending = s.pending) ∨
      (s.seq = .idle ∧ off = 0x00 ∧ (s.writeOffset off v).seq = .busy ∧
        (s.writeOffset off v).pending = v) := by
  rcases writeOffset_cases s off v with ⟨_, hw⟩ | ⟨hidle, r, hr, hw⟩ | ⟨_, _, hw⟩ <;> rw [hw]
  · exact .inl ⟨rfl, rfl⟩
  · by_cases hcmd : r = .cmd
    · subst hcmd
      exact .inr ⟨hidle, offset_of_regAt hr, rfl, rfl⟩
    · exact .inl (s.writeReg_keeps_sequencer v hcmd)
  · exact .inl ⟨rfl, rfl⟩

/-- Only a write to a geometry or tag register touches RESOLVED (R47). -/
theorem State.writeReg_keeps_resolved (s : State) {r : Reg} (v : Word) (h : r ∉ cancellingRegs) :
    (s.writeReg r v).resolved = s.resolved := by
  cases r
  case width | height | tag0 | tag1 | tag2 => exact absurd (by decide) h
  all_goals rfl

/-- A register write leaves RESOLVED, or drops it by a geometry or tag write while IDLE (R46, R47). -/
theorem State.writeOffset_resolved (s : State) (off : Nat) (v : Word) :
    (s.writeOffset off v).resolved = s.resolved ∨
      (s.seq = .idle ∧ (∃ r ∈ cancellingRegs, off = r.offset) ∧
        (s.writeOffset off v).resolved = false) := by
  rcases writeOffset_cases s off v with ⟨_, hw⟩ | ⟨hidle, r, hr, hw⟩ | ⟨_, _, hw⟩ <;> rw [hw]
  · exact .inl rfl
  · by_cases hcancel : r ∈ cancellingRegs
    · exact .inr ⟨hidle, ⟨r, hcancel, offset_of_regAt hr⟩, (s.writeReg_drops_resolution v hcancel).1⟩
    · exact .inl (s.writeReg_keeps_resolved v hcancel)
  · exact .inl rfl

/-- An access that the bus allows is a word access (R64). -/
theorem word_of_regAccessOk {w : AccessWidth} {off : Nat} (h : regAccessOk w off = true) :
    w = .word := by
  simp only [regAccessOk, Bool.and_eq_true, beq_iff_eq] at h
  exact h.1.1

/-! ## The statements -/

/-- Settles O4: of the cases of a step, a command keeps both parameters by its frame, and neither a
register write nor the reset event touches them. -/
theorem noStepChangesTheRom : Obligations.NoStepChangesTheRom := by
  intro s t hstep
  cases step_case hstep with
  | turn _ hcase => exact ⟨hcase.frame.rom, hcase.frame.maxDim⟩
  | regWrite w off v =>
    obtain ⟨hrom, hmax, _⟩ := State.writeOffset_keeps_parameters { s with inputs := s.inputs.tail } off v
    exact ⟨hrom, hmax⟩
  | reset =>
    obtain ⟨_, hrom, hmax, _⟩ := State.abandon_clearRegisters_keeps { s with inputs := s.inputs.tail }
    exact ⟨hrom, hmax⟩
  | rest | read | srcStore | dstStore => exact ⟨rfl, rfl⟩

/-- Settles O57: a command keeps SRC by its frame, and of the actions of the outside world only a store
to SRC writes it. -/
theorem sourceChangesOnlyByHostStores : Obligations.SourceChangesOnlyByHostStores := by
  refine ⟨fun i s t h => (exec_frame h).src, fun s t hstep hne => ?_⟩
  cases step_case hstep with
  | srcStore a bs hhead => exact ⟨a, bs, hhead⟩
  | turn _ hcase => exact absurd hcase.frame.src hne
  | regWrite w off v =>
    obtain ⟨_, _, hsrc, _⟩ :=
      State.writeOffset_keeps_parameters { s with inputs := s.inputs.tail } off v
    exact absurd hsrc hne
  | reset =>
    obtain ⟨hsrc, _⟩ := State.abandon_clearRegisters_keeps { s with inputs := s.inputs.tail }
    exact absurd hsrc hne
  | rest | read | dstStore => exact absurd rfl hne

/-- Settles O23: a command keeps the operand registers by its frame, and no other action than a register
write or reset touches a register. -/
theorem operandRegistersChangeOnlyByTheHost : Obligations.OperandRegistersChangeOnlyByTheHost := by
  intro s t hstep hreset hwrite
  cases step_case hstep with
  | turn _ hcase =>
    intro r hr
    rw [hcase.frame.operands r hr]
    fin_cases hr <;> rfl
  | regWrite w off v hhead => exact absurd hhead (hwrite w off v)
  | reset hhead => exact absurd hhead hreset
  | rest | read | srcStore | dstStore =>
    intro r hr
    fin_cases hr <;> rfl

/-- Settles O56: a command keeps PENDING by its frame, and a register write keeps it or is an
acceptance. -/
theorem pendingChangesOnlyAtAcceptanceAndReset :
    Obligations.PendingChangesOnlyAtAcceptanceAndReset := by
  refine ⟨fun i s t h => (exec_frame h).pending, fun s t hstep hreset => ?_⟩
  cases step_case hstep with
  | turn _ hcase => exact .inl hcase.frame.pending
  | regWrite w off v hhead hok =>
    obtain rfl := word_of_regAccessOk hok
    rcases State.writeOffset_sequencer { s with inputs := s.inputs.tail } off v with
      ⟨_, hkept⟩ | ⟨hidle, rfl, _, hword⟩
    · exact .inl hkept
    · exact .inr ⟨hidle, by rw [hword]; exact hhead⟩
  | reset hhead => exact absurd hhead hreset
  | rest | read | srcStore | dstStore => exact .inl rfl

/-- While IDLE the engine's turn does nothing, and takes off the WAIT that gave it (R251). -/
theorem step_idle_turn {s : State} (hidle : s.seq = .idle) :
    (s.inputs = [] → step s = .next s) ∧
      ∀ rest, s.inputs = .wait :: rest → step s = .next { s with inputs := rest } :=
  ⟨fun hi => (step_nil hi).trans (engineStep_idle hidle),
    fun rest hi => (step_cons hi).trans (engineStep_idle (s := { s with inputs := rest }) hidle)⟩

/-- Settles O21: SEQ becomes BUSY only by the acceptance of a command, and IDLE only by a completion step,
which is the engine's turn, or by reset. -/
theorem sequencerChangesOnlyAsTheRuleSays : Obligations.SequencerChangesOnlyAsTheRuleSays := by
  refine ⟨fun s t hstep => ?_, fun s => step_idle_turn⟩
  have unchanged : t.seq = s.seq → ∀ P Q : Prop,
      (s.seq = .idle → t.seq = .busy → P) ∧ (s.seq = .busy → t.seq = .idle → Q) := fun heq P Q => by
    rw [heq]
    refine ⟨fun hidle hbusy => ?_, fun hbusy hidle => ?_⟩ <;> simp [hidle] at hbusy
  cases step_case hstep with
  | turn hturn hcase => exact ⟨fun _ hbusy => by simp [hcase.idle] at hbusy, fun _ _ => .inl hturn⟩
  | regWrite w off v hhead hok =>
    obtain rfl := word_of_regAccessOk hok
    rcases State.writeOffset_sequencer { s with inputs := s.inputs.tail } off v with
      ⟨heq, _⟩ | ⟨_, rfl, hbusy, hword⟩
    · exact unchanged heq _ _
    · exact ⟨fun _ _ => ⟨v, hhead, hword⟩, fun _ hidle => by simp [hbusy] at hidle⟩
  | reset hhead => exact ⟨fun _ hbusy => (by cases hbusy), fun _ _ => .inr hhead⟩
  | rest | read | srcStore | dstStore => exact unchanged rfl _ _

/-- What a completion step does to RESOLVED: only a RESOLVE without error sets it, only a RESOLVE with
error and a CLOSE clear it (R33, R152, R159). -/
theorem CompletionCase.resolved_change {s t : State} (h : CompletionCase s t) :
    t.resolved = s.resolved ∨ (s.pending = 1 ∧ t.resolved = true ∧ t.done = true) ∨
      (t.resolved = false ∧ ((s.pending = 1 ∧ t.err = true) ∨ s.pending = 3)) := by
  cases h with
  | resolved hp => exact .inr (.inl ⟨hp, rfl, rfl⟩)
  | resolveError hp c => exact .inr (.inr ⟨rfl, .inl ⟨hp, rfl⟩⟩)
  | close hp => exact .inr (.inr ⟨rfl, .inr hp⟩)
  | body => exact .inl (by rw [State.runMoves_frame]; rfl)
  | nop | error => exact .inl rfl

/-- Settles O22: RESOLVED changes by a command as R33 says, falls by a geometry or tag write or reset, and
no other step touches it. -/
theorem resolvedChangesOnlyAsTheRuleSays : Obligations.ResolvedChangesOnlyAsTheRuleSays := by
  intro s t hstep
  have unchanged : t.resolved = s.resolved → ∀ P Q : Prop,
      (s.resolved = false → t.resolved = true → P) ∧ (s.resolved = true → t.resolved = false → Q) :=
    fun heq P Q => by
      rw [heq]
      refine ⟨fun h0 h1 => ?_, fun h1 h0 => ?_⟩ <;> simp [h0] at h1
  cases step_case hstep with
  | turn hturn hcase =>
    rcases hcase.resolved_change with heq | ⟨hp, hset, hdone⟩ | ⟨hclear, hcause⟩
    · exact unchanged heq _ _
    · exact ⟨fun _ _ => ⟨hturn, hp, hdone⟩, fun _ hclear => by simp [hset] at hclear⟩
    · exact ⟨fun _ hset => by simp [hclear] at hset, fun _ _ => .inl ⟨hturn, hcause⟩⟩
  | regWrite w off v hhead hok =>
    obtain rfl := word_of_regAccessOk hok
    rcases State.writeOffset_resolved { s with inputs := s.inputs.tail } off v with
      heq | ⟨hidle, ⟨r, hr, rfl⟩, hclear⟩
    · exact unchanged heq _ _
    · exact ⟨fun _ hset => by simp [hclear] at hset, fun _ _ => .inr (.inr ⟨hidle, r, hr, v, hhead⟩)⟩
  | reset hhead => exact ⟨fun _ hset => (by cases hset), fun _ _ => .inr (.inl hhead)⟩
  | rest | read | srcStore | dstStore => exact unchanged rfl _ _

end Sys2Proof.Machine
end

section
/-! PROOFS. The payload's size in bits (spec/40_format_rom.md, R127, R133): a whole number of bytes, and one
that PAYLOAD_SIZE can hold (R160, U18). -/

namespace Sys2Proof.Machine

/-- R127's law makes the pixel group of a planar or semi-planar layout a whole number of bytes. -/
theorem eight_dvd_of_planeBpp {d : Descriptor} (hl : d.legal = true) (hb : d.planeBppLegal = true)
    {W H : Nat} (hW : W % d.subH.toNat = 0) (hH : H % d.subV.toNat = 0) : 8 ∣ W * H * d.bpp.toNat := by
  unfold Descriptor.planeBppLegal at hb
  rcases Descriptor.legal_planes hl with h1 | h3
  · simp only [h1, beq_self_eq_true, if_true, beq_iff_eq] at hb
    rw [hb]
    exact Dvd.intro (W * H * d.bps) (by ring)
  · simp only [h3, Nat.reduceBEq, Bool.false_eq_true, if_false, beq_iff_eq] at hb
    obtain ⟨w, hw⟩ := Nat.dvd_of_mod_eq_zero hW
    obtain ⟨h, hh⟩ := Nat.dvd_of_mod_eq_zero hH
    refine Dvd.intro (w * h * (d.bps * (d.subH.toNat * d.subV.toNat + 2))) ?_
    calc 8 * (w * h * (d.bps * (d.subH.toNat * d.subV.toNat + 2)))
        = w * h * (d.bpp.toNat * (d.subH.toNat * d.subV.toNat)) := by rw [hb]; ring
      _ = W * H * d.bpp.toNat := by rw [hw, hh]; ring

/-- The payload of a legal descriptor is a whole number of bytes (R133). -/
theorem payloadBytes_mul_eight {d : Descriptor} (hl : d.legal = true) {W H : Nat}
    (hW : W % d.subH.toNat = 0) (hH : H % d.subV.toNat = 0) :
    payloadBytes d W H * 8 = W * H * d.bpp.toNat := by
  have of_dvd : 8 ∣ W * H * d.bpp.toNat → payloadBytes d W H * 8 = W * H * d.bpp.toNat :=
    Nat.div_mul_cancel
  have of_bytes : ∀ B, d.bpp.toNat = B * 8 → payloadBytes d W H * 8 = W * H * d.bpp.toNat :=
    fun B hB => by rw [payloadBytes_packed hB, hB, Nat.mul_assoc]
  obtain ⟨v, hv⟩ := Descriptor.legal_has_variant hl
  have hvariant := Descriptor.legal_variant hl hv
  cases v with
  | planar => exact of_dvd (eight_dvd_of_planeBpp hl hvariant.2 hW hH)
  | nvSemiplanar => exact of_dvd (eight_dvd_of_planeBpp hl hvariant.2.2.2 hW hH)
  | p01xSemiplanar16 => exact of_dvd (eight_dvd_of_planeBpp hl hvariant.2.2 hW hH)
  | packedYuv422 => exact of_bytes 2 hvariant.2
  | packedRgb24 => exact of_bytes 3 hvariant.2.2.2
  | packedRgb32 => exact of_bytes 4 hvariant.2.2.2
  | packedRgb48 => exact of_bytes 6 hvariant.2.2.2

/-- What a geometry that a descriptor admits is (R152). -/
theorem geometryOk_iff {maxDim W H : Nat} {d : Descriptor} :
    geometryOk maxDim d W H = true ↔ W ≠ 0 ∧ H ≠ 0 ∧ W ≤ maxDim ∧ H ≤ maxDim ∧
      W % d.subH.toNat = 0 ∧ H % d.subV.toNat = 0 := by
  simp [geometryOk, and_assoc]

/-- PAYLOAD_SIZE cannot wrap (R160, U18). -/
theorem payloadBytes_lt {d : Descriptor} (hl : d.legal = true) {maxDim W H : Nat}
    (hm : maxDimLegal maxDim = true) (hW : W ≤ maxDim) (hH : H ≤ maxDim) :
    payloadBytes d W H < 2 ^ 32 := by
  obtain ⟨_, hbpp⟩ := Descriptor.legal_bpp hl
  calc payloadBytes d W H ≤ maxDim * maxDim * 48 / 8 :=
        Nat.div_le_div_right (Nat.mul_le_mul (Nat.mul_le_mul hW hH) hbpp)
    _ < 2 ^ 32 := of_decide_eq_true hm

end Sys2Proof.Machine
end

section
/-! PROOFS. The invariant (spec/10_state.md, sections 3 and 9): STATUS, the resolution registers and the
canonical memories, each kept by every step. -/

namespace Sys2Proof.Machine

/-! ## STATUS -/

theorem State.StatusOk.of_same {s t : State} (h : s.StatusOk) (hseq : t.seq = s.seq)
    (hdone : t.done = s.done) (herr : t.err = s.err) (hcode : t.errCode = s.errCode) : t.StatusOk where
  busy_quiet := by rw [hseq, hdone, herr]; exact h.busy_quiet
  one_outcome := by rw [hdone, herr]; exact h.one_outcome
  code_iff := by rw [hcode, herr]; exact h.code_iff
  code_le := by rw [hcode]; exact h.code_le

/-- No report at all, whether BUSY or IDLE. -/
theorem State.statusOk_of_no_report {t : State} (hdone : t.done = false) (herr : t.err = false)
    (hcode : t.errCode = 0) : t.StatusOk where
  busy_quiet _ := ⟨hdone, herr⟩
  one_outcome h := by simp [hdone] at h
  code_iff := by simp [hcode, herr]
  code_le := by simp [hcode]

/-- The report of an error (R225). -/
theorem State.statusOk_of_error {t : State} {c : ErrCode} (hseq : t.seq = .idle)
    (hdone : t.done = false) (herr : t.err = true) (hcode : t.errCode = c.code) : t.StatusOk where
  busy_quiet h := by simp [hseq] at h
  one_outcome h := by simp [hdone] at h
  code_iff := by
    rw [hcode]
    exact ⟨fun _ => herr, fun _ => c.code_ne_zero⟩
  code_le := by rw [hcode]; exact c.code_le

/-- The report of a completion without error (R151). -/
theorem State.ReportsDone.statusOk {t : State} (h : t.ReportsDone) : t.StatusOk where
  busy_quiet hbusy := by simp [h.idle] at hbusy
  one_outcome hboth := by simp [h.no_err] at hboth
  code_iff := by simp [h.no_code, h.no_err]
  code_le := by simp [h.no_code]

/-- A completion step of a command whose acceptance cleared the report leaves a consistent STATUS. -/
theorem CompletionCase.statusOk {s t : State} (h : CompletionCase s t) (herr : s.err = false)
    (hcode : s.errCode = 0) : t.StatusOk := by
  cases h with
  | nop | resolved | close => exact State.ReportsDone.statusOk ⟨rfl, rfl, herr, hcode⟩
  | body =>
    rw [State.runMoves_frame]
    exact State.ReportsDone.statusOk ⟨rfl, rfl, herr, hcode⟩
  | resolveError hp c | error h1 h3 c => exact State.statusOk_of_error (c := c) rfl rfl rfl rfl

/-! ## The resolution -/

/-- What the resolution depends on is as it was: no other field than the ones written out changed. -/
def State.KeepsResolution (s t : State) : Prop :=
  t = { s with
    seq := t.seq, pending := t.pending, done := t.done, err := t.err, errCode := t.errCode, ovr := t.ovr
    srcBase := t.srcBase, dstBase0 := t.dstBase0, dstBase1 := t.dstBase1, dstBase2 := t.dstBase2
    dstStride0 := t.dstStride0, dstStride1 := t.dstStride1, dstStride2 := t.dstStride2
    src := t.src, dst := t.dst, inputs := t.inputs, rdata := t.rdata, free := t.free }

/-- The two clauses of the invariant about the resolution. -/
def State.ResolutionOk (s : State) : Prop :=
  (s.resolved = true → s.Resolution) ∧ (s.resolved = false → s.NoResolution)

theorem State.ResolutionOk.keep {s t : State} (h : s.ResolutionOk) (hkeep : s.KeepsResolution t) :
    t.ResolutionOk := by
  rw [hkeep]
  refine ⟨fun hr => ?_, fun hr => ?_⟩
  · obtain ⟨hentry, hgeom, hpayload, hbound⟩ := h.1 hr
    exact ⟨hentry, hgeom, hpayload, hbound⟩
  · obtain ⟨hidx, hlo, hhi, hsize⟩ := h.2 hr
    exact ⟨hidx, hlo, hhi, hsize⟩

/-- Where the resolution was dropped the registers are 0 (R47, R152, R159). -/
theorem State.resolutionOk_of_dropped {t : State} (hres : t.resolved = false) (hregs : t.NoResolution) :
    t.ResolutionOk := ⟨fun hr => by simp [hres] at hr, fun _ => hregs⟩

/-- A RESOLVE without error leaves the resolution that it checked (R152). -/
theorem State.setResolution_resolution {s : State} {i : Nat} {e : RomEntry}
    (hfound : romLookup s.rom s.tagKey = some (i, e)) (hlegal : e.legal = true) (hi : i < 256)
    (hmax : maxDimLegal s.maxDim = true) (hgeom : geometryOk s.maxDim e.desc s.W s.H = true) :
    (s.setResolution i e).Resolution := by
  obtain ⟨_, _, hW, hH, _⟩ := geometryOk_iff.1 hgeom
  have hdesc : e.desc.legal = true := (Bool.and_eq_true_iff.1 hlegal).2
  have hindex : (BitVec.ofNat 8 i).toNat = i := by
    rw [BitVec.toNat_ofNat, Nat.mod_eq_of_lt hi]
  refine ⟨⟨e, ?_, hlegal, s.setResolution_descWord i e⟩, ?_, ?_, hmax⟩
  · rw [State.setResolution_rom, State.setResolution_tagKey, State.setResolution_fmtIndex, hindex, hfound]
  · rw [State.setResolution_desc]
    exact hgeom
  · rw [State.setResolution_desc, State.setResolution_payloadSize, BitVec.toNat_ofNat]
    exact Nat.mod_eq_of_lt (payloadBytes_lt hdesc hmax hW hH)

theorem State.runMoves_complete_keepsResolution (s : State) (ms : List Move) :
    s.KeepsResolution (s.runMoves ms).complete := by
  rw [State.runMoves_frame]
  rfl

theorem CompletionCase.resolutionOk {s t : State} (h : CompletionCase s t) (hs : s.ResolutionOk) :
    t.ResolutionOk := by
  cases h with
  | nop => exact hs.keep rfl
  | resolved hp hfound hlegal hi hmax hgeom =>
    have hres := State.setResolution_resolution hfound hlegal hi hmax hgeom
    have hset : (s.setResolution _ _).ResolutionOk := ⟨fun _ => hres, fun hr => by cases hr⟩
    exact hset.keep rfl
  | resolveError | close => exact State.resolutionOk_of_dropped rfl ⟨rfl, rfl, rfl, rfl⟩
  | error => exact hs.keep rfl
  | body => exact hs.keep (s.runMoves_complete_keepsResolution _)

/-! ## The memories -/

/-- Within checked ranges the moves of a legal descriptor's body store below 2^32. -/
theorem bodyMoves_addr_lt_space {s : State} (hlegal : s.desc.legal = true)
    (hrange : ∀ p ∈ usedPlanes s.desc, s.dstRangeOk s.desc p = true) :
    ∀ m ∈ bodyMoves s.desc s.W s.H, s.moveAddr m < spaceSize := fun m hm =>
  ((bodyMoves_inPlanes hlegal s.W s.H).inPlane m hm).addr_lt_space hrange

theorem CompletionCase.dst_wf {s t : State} (h : CompletionCase s t) (hs : Mem.wf s.dst = true) :
    Mem.wf t.dst = true := by
  cases h with
  | body _ hlegal hwindows =>
    obtain ⟨hwindow, _⟩ := State.windowsOk_iff.1 hwindows
    obtain ⟨_, _, hrange⟩ := State.windowError_eq_none.1 hwindow
    exact s.runMoves_dst_wf _ (bodyMoves_addr_lt_space hlegal hrange) hs
  | _ => exact hs

/-- What it takes for a DECODE body to be in flight (R154, log 11). -/
theorem State.bodyInFlight_iff {s : State} :
    s.bodyInFlight = true ↔ s.seq = .busy ∧ s.pending = 2 ∧ s.resolved = true ∧
      s.desc.legal = true ∧ s.windowError s.desc = none := by
  have hword : commandWord .decodePlanar = 2 := by decide
  simp [State.bodyInFlight, State.busy, hword, and_assoc]

theorem State.abandon_dst_wf {s : State} (hs : Mem.wf s.dst = true) : Mem.wf s.abandon.dst = true := by
  unfold State.abandon
  split
  · rename_i hflight
    obtain ⟨_, _, _, hlegal, hwindow⟩ := State.bodyInFlight_iff.1 hflight
    obtain ⟨_, _, hrange⟩ := State.windowError_eq_none.1 hwindow
    exact s.cutMoves_dst_wf _ (bodyMoves_addr_lt_space hlegal hrange) hs
  · exact hs

/-! ## The invariant, case by case -/

theorem State.Inv.resolutionOk {s : State} (h : s.Inv) : s.ResolutionOk :=
  ⟨h.resolution, h.no_resolution⟩

theorem State.inv_of {t : State} (hsrc : Mem.wf t.src = true) (hdst : Mem.wf t.dst = true)
    (hstatus : t.StatusOk) (hres : t.ResolutionOk) : t.Inv := ⟨hsrc, hdst, hstatus, hres.1, hres.2⟩

/-- The invariant does not depend on what the outside world does next, nor on the data of the last
read. -/
theorem State.Inv.with_inputs {s : State} (h : s.Inv) (as : List HostAction) (d : Word) :
    State.Inv { s with inputs := as, rdata := d } :=
  State.inv_of h.src_wf h.dst_wf (h.status.of_same rfl rfl rfl rfl) (h.resolutionOk.keep rfl)

theorem State.Inv.writeReg {s : State} (h : s.Inv) (r : Reg) (v : Word) : (s.writeReg r v).Inv := by
  obtain ⟨_, _, hsrc, hdst, _⟩ := s.writeReg_keeps_parameters r v
  refine State.inv_of (hsrc ▸ h.src_wf) (hdst ▸ h.dst_wf) ?_ ?_
  · cases r with
    | cmd => exact State.statusOk_of_no_report rfl rfl rfl
    | _ => exact h.status.of_same rfl rfl rfl rfl
  · by_cases hcancel : r ∈ cancellingRegs
    · obtain ⟨hres, hidx, hlo, hhi, hsize⟩ := s.writeReg_drops_resolution v hcancel
      exact State.resolutionOk_of_dropped hres ⟨hidx, hlo, hhi, hsize⟩
    · cases r
      case width | height | tag0 | tag1 | tag2 => exact absurd (by decide) hcancel
      all_goals exact h.resolutionOk.keep rfl

theorem State.Inv.writeOffset {s : State} (h : s.Inv) (off : Nat) (v : Word) :
    (s.writeOffset off v).Inv := by
  rcases writeOffset_cases s off v with ⟨_, hw⟩ | ⟨_, r, _, hw⟩ | ⟨_, _, hw⟩ <;> rw [hw]
  · exact State.inv_of h.src_wf h.dst_wf (h.status.of_same rfl rfl rfl rfl) (h.resolutionOk.keep rfl)
  · exact h.writeReg r v
  · exact h

theorem State.Inv.completion {s t : State} (h : s.Inv) (hbusy : s.seq = .busy)
    (hcase : CompletionCase s t) : t.Inv := by
  obtain ⟨_, herr, hcode⟩ := h.status.no_report hbusy
  exact State.inv_of (hcase.frame.src ▸ h.src_wf) (hcase.dst_wf h.dst_wf) (hcase.statusOk herr hcode)
    (hcase.resolutionOk h.resolutionOk)

theorem State.Inv.reset {s : State} (h : s.Inv) : s.abandon.clearRegisters.Inv := by
  obtain ⟨hsrc, _⟩ := s.abandon_clearRegisters_keeps
  exact State.inv_of (hsrc ▸ h.src_wf) (State.abandon_dst_wf h.dst_wf)
    (State.statusOk_of_no_report rfl rfl rfl)
    (State.resolutionOk_of_dropped rfl ⟨rfl, rfl, rfl, rfl⟩)

/-- Settles O3: each case of a step keeps the invariant. -/
theorem everyStepKeepsInvariant : Obligations.EveryStepKeepsInvariant := by
  intro s t h hstep
  have hnext := h.with_inputs s.inputs.tail
  cases step_case hstep with
  | rest => exact hnext s.rdata
  | turn hturn hcase => exact (hnext s.rdata).completion hturn.1 hcase
  | regWrite w off v => exact (hnext s.rdata).writeOffset off v
  | read d => exact hnext d
  | srcStore a bs _ hspace =>
    exact State.inv_of (Mem.wf_writeBytes _ _ _ hspace h.src_wf) h.dst_wf
      (h.status.of_same rfl rfl rfl rfl) (h.resolutionOk.keep rfl)
  | dstStore a bs hspace =>
    exact State.inv_of h.src_wf (Mem.wf_writeBytes _ _ _ hspace h.dst_wf)
      (h.status.of_same rfl rfl rfl rfl) (h.resolutionOk.keep rfl)
  | reset => exact (hnext s.rdata).reset

/-- Settles O2: after reset there is no report and no resolution, and both memories are empty. -/
theorem resetMeetsInvariant : Obligations.ResetMeetsInvariant :=
  State.inv_of rfl rfl (State.statusOk_of_no_report rfl rfl rfl)
    (State.resolutionOk_of_dropped rfl ⟨rfl, rfl, rfl, rfl⟩)

end Sys2Proof.Machine
end

section
/-! PROOFS. Encodings (spec/30_encoding.md): which dispatch words select which operation (R92, R93, R100),
and the descriptor word as the sum of its fields (R95). -/

namespace Sys2Proof.Machine

/-! ## The dispatch word -/

theorem toNat_append_eq_add {m n : Nat} (hi : BitVec m) (lo : BitVec n) :
    (hi ++ lo).toNat = hi.toNat * 2 ^ n + lo.toNat := by
  rw [BitVec.toNat_append, ← Nat.shiftLeft_add_eq_or_of_lt lo.isLt, Nat.shiftLeft_eq]

/-- The command word of a dispatch word as a number. -/
theorem toNat_low (dw : BitVec 35) : (dw.extractLsb' 0 32).toNat = dw.toNat % 2 ^ 32 := by
  simp [BitVec.extractLsb'_toNat]

/-- The variant bits of a dispatch word as a number. -/
theorem toNat_high (dw : BitVec 35) : (dw.extractLsb' 32 3).toNat = dw.toNat / 2 ^ 32 := by
  have hlt := dw.isLt
  rw [BitVec.extractLsb'_toNat, Nat.shiftRight_eq_div_pow]
  omega

/-- Every 35-bit word is the dispatch word of some state. -/
theorem exists_dispatchWord (dw : BitVec 35) : ∃ s : State, s.dispatchWord = dw := by
  let s : State :=
    { State.reset with pending := dw.extractLsb' 0 32, descLo := (dw.extractLsb' 32 3).setWidth 32 }
  have hvariant : s.descLo.extractLsb' 0 3 = dw.extractLsb' 32 3 :=
    BitVec.eq_of_toNat_eq (by simp [s, BitVec.extractLsb'_toNat])
  have hword : s.dispatchWord = dw.extractLsb' 32 3 ++ dw.extractLsb' 0 32 := by
    rw [State.dispatchWord, hvariant]
  refine ⟨s, BitVec.eq_of_toNat_eq ?_⟩
  rw [hword, toNat_append_eq_add, toNat_low, toNat_high]
  omega

/-- The operation a dispatch word selects, by its command word and its variant bits (R91 to R93). -/
theorem decode_eq (dw : BitVec 35) :
    decode dw =
      if dw.extractLsb' 0 32 = 0 then .ok .nop
      else if dw.extractLsb' 0 32 = 1 then .ok .resolve
      else if dw.extractLsb' 0 32 = 2 then decodeVariant (dw.extractLsb' 32 3)
      else if dw.extractLsb' 0 32 = 3 then .ok .close
      else if (dw.extractLsb' 0 32).extractLsb' 4 28 ≠ 0 then .error .nonzeroHighBits
      else .error .reservedOpcode := by
  obtain ⟨s, rfl⟩ := exists_dispatchWord dw
  rw [decode_dispatch, dispatchWord_low, dispatchWord_high]

/-- The variant bits select an operation exactly when they are its variant's code (R94). -/
theorem decodeVariant_eq_ok_iff {v : Variant} {i : Instr} (h : decodeVariant v.code = .ok i)
    (c : BitVec 3) : decodeVariant c = .ok i ↔ c = v.code := by
  revert c
  cases v <;> cases h <;> decide

theorem decodeVariant_ne_command (c : BitVec 3) :
    decodeVariant c ≠ .ok .nop ∧ decodeVariant c ≠ .ok .resolve ∧ decodeVariant c ≠ .ok .close := by
  revert c
  decide

/-- NOP, RESOLVE and CLOSE are selected by the command word alone (R93). -/
theorem decode_eq_ok_command {i : Instr} (hi : i = .nop ∨ i = .resolve ∨ i = .close) (dw : BitVec 35) :
    decode dw = .ok i ↔ dw.extractLsb' 0 32 = commandWord i := by
  obtain ⟨hnop, hresolve, hclose⟩ := decodeVariant_ne_command (dw.extractLsb' 32 3)
  have hwords : commandWord .nop = 0 ∧ commandWord .resolve = 1 ∧ commandWord .close = 3 := by decide
  obtain ⟨h0, h1, h3⟩ := hwords
  rw [decode_eq]
  generalize dw.extractLsb' 0 32 = low
  rcases hi with rfl | rfl | rfl <;> simp only [h0, h1, h3] <;> split_ifs <;> simp_all

/-- A DECODE is selected by command word 2 and its variant's code (R92, R93). -/
theorem decode_eq_ok_variant {v : Variant} {i : Instr} (h : decodeVariant v.code = .ok i)
    (dw : BitVec 35) :
    decode dw = .ok i ↔ dw.extractLsb' 0 32 = 2 ∧ dw.extractLsb' 32 3 = v.code := by
  obtain ⟨hnop, hresolve, hclose⟩ := decodeVariant_ne_command v.code
  rw [h] at hnop hresolve hclose
  rw [decode_eq, ← decodeVariant_eq_ok_iff h]
  generalize dw.extractLsb' 0 32 = low
  split_ifs with h0 h1 h2 h3
  · simp [h0, hnop.symm]
  · simp [h1, hresolve.symm]
  · simp [h2]
  · simp [h3, hclose.symm]
  · exact iff_of_false (by simp) fun hd => h2 hd.1
  · exact iff_of_false (by simp) fun hd => h2 hd.1

/-- The mask of NOP, RESOLVE and CLOSE leaves the command word (R93). -/
theorem and_lowMask_eq_iff (dw : BitVec 35) (c : Word) :
    dw &&& 0x0FFFFFFFF#35 = c.setWidth 35 ↔ dw.extractLsb' 0 32 = c := by
  have hmask : (dw &&& 0x0FFFFFFFF#35).toNat = dw.toNat % 2 ^ 32 := by
    rw [BitVec.toNat_and]
    exact Nat.and_two_pow_sub_one_eq_mod dw.toNat 32
  have hc : (c.setWidth 35).toNat = c.toNat := by
    have hlt := c.isLt
    rw [BitVec.toNat_setWidth]
    omega
  rw [← BitVec.toNat_inj, ← BitVec.toNat_inj, hmask, hc, toNat_low]

/-- The mask of a DECODE leaves the whole dispatch word (R93). -/
theorem and_fullMask (dw : BitVec 35) : dw &&& 0x7FFFFFFFF#35 = dw := BitVec.and_allOnes

/-- A dispatch word is its two fields. -/
theorem dispatch_eq_iff (dw : BitVec 35) (v : BitVec 3) (c : Word) :
    dw = v ++ c ↔ dw.extractLsb' 0 32 = c ∧ dw.extractLsb' 32 3 = v := by
  have hc := c.isLt
  rw [← BitVec.toNat_inj, ← BitVec.toNat_inj, ← BitVec.toNat_inj, toNat_low, toNat_high,
    toNat_append_eq_add]
  omega

/-- The row of a DECODE: the full mask, command word 2 and the variant's code (R93). -/
theorem decode_row {v : Variant} {i : Instr} (h : decodeVariant v.code = .ok i) :
    rowMask i = 0x7FFFFFFFF#35 ∧ encode i = v.code ++ (2 : Word) := by
  cases v <;> cases h <;> decide

/-- The row of NOP, RESOLVE and CLOSE: the mask of the command word, and that word (R93). -/
theorem command_row {i : Instr} (hi : i = .nop ∨ i = .resolve ∨ i = .close) :
    rowMask i = 0x0FFFFFFFF#35 ∧ encode i = (commandWord i).setWidth 35 := by
  rcases hi with rfl | rfl | rfl <;> decide

/-- Settles O8: both sides say the same of the command word and the variant bits. -/
theorem operationSelectedByMaskAndMatch : Obligations.OperationSelectedByMaskAndMatch := by
  intro dw i
  have command : i = .nop ∨ i = .resolve ∨ i = .close →
      (decode dw = .ok i ↔ dw &&& rowMask i = encode i) := fun hi => by
    obtain ⟨hmask, hmatch⟩ := command_row hi
    rw [hmask, hmatch, and_lowMask_eq_iff, decode_eq_ok_command hi]
  rcases instr_cases i with hi | hi | hi | ⟨v, hv⟩
  · exact command (.inl hi)
  · exact command (.inr (.inl hi))
  · exact command (.inr (.inr hi))
  · obtain ⟨hmask, hmatch⟩ := decode_row hv
    rw [hmask, hmatch, and_fullMask, dispatch_eq_iff, decode_eq_ok_variant hv]

/-- Three variant bits are the code of a variant or the reserved code 7 (R94). -/
theorem variant_code_or_seven (c : BitVec 3) : (∃ v : Variant, c = v.code) ∨ c = 7 := by
  have hcases : c.toNat = 0 ∨ c.toNat = 1 ∨ c.toNat = 2 ∨ c.toNat = 3 ∨ c.toNat = 4 ∨ c.toNat = 5 ∨
      c.toNat = 6 ∨ c.toNat = 7 := by
    have hlt := c.isLt
    omega
  rcases hcases with h | h | h | h | h | h | h | h
  · exact .inl ⟨.planar, BitVec.eq_of_toNat_eq h⟩
  · exact .inl ⟨.nvSemiplanar, BitVec.eq_of_toNat_eq h⟩
  · exact .inl ⟨.p01xSemiplanar16, BitVec.eq_of_toNat_eq h⟩
  · exact .inl ⟨.packedYuv422, BitVec.eq_of_toNat_eq h⟩
  · exact .inl ⟨.packedRgb24, BitVec.eq_of_toNat_eq h⟩
  · exact .inl ⟨.packedRgb32, BitVec.eq_of_toNat_eq h⟩
  · exact .inl ⟨.packedRgb48, BitVec.eq_of_toNat_eq h⟩
  · exact .inr (BitVec.eq_of_toNat_eq h)

/-- Every variant's code selects an operation (R92). -/
theorem exists_decodeVariant (v : Variant) : ∃ i, decodeVariant v.code = .ok i := by
  cases v <;> exact ⟨_, rfl⟩

theorem decodeVariant_illegal_iff (c : BitVec 3) : (∀ i, decodeVariant c ≠ .ok i) ↔ c.toNat = 7 := by
  rcases variant_code_or_seven c with ⟨v, rfl⟩ | rfl
  · obtain ⟨i, hi⟩ := exists_decodeVariant v
    have hcode : v.code.toNat ≠ 7 := by cases v <;> decide
    exact iff_of_false (fun h => h i hi) hcode
  · exact iff_of_true (fun i h => by cases h) rfl

/-- Settles O9: a word is no operation when its command word is none of 0 to 3, or is 2 with variant
code 7. -/
theorem illegalWordsAreThoseOfTheRule : Obligations.IllegalWordsAreThoseOfTheRule := by
  intro dw
  have hwords : (∀ i, decode dw ≠ .ok i) ↔
      dw.toNat % 2 ^ 32 ≠ 0 ∧ dw.toNat % 2 ^ 32 ≠ 1 ∧ dw.toNat % 2 ^ 32 ≠ 3 ∧
        (dw.toNat % 2 ^ 32 = 2 → dw.toNat / 2 ^ 32 = 7) := by
    have hnum : ∀ n < 2 ^ 32, dw.extractLsb' 0 32 = BitVec.ofNat 32 n ↔ dw.toNat % 2 ^ 32 = n :=
      fun n hn => by rw [← BitVec.toNat_inj, toNat_low, BitVec.toNat_ofNat, Nat.mod_eq_of_lt hn]
    have h0 := hnum 0 (by decide)
    have h1 := hnum 1 (by decide)
    have h2 := hnum 2 (by decide)
    have h3 := hnum 3 (by decide)
    have h7 := decodeVariant_illegal_iff (dw.extractLsb' 32 3)
    rw [toNat_high] at h7
    rw [← h7, decode_eq]
    simp only [BitVec.ofNat_eq_ofNat, h0, h1, h2, h3]
    split_ifs <;> simp_all
  rw [hwords]
  omega

/-- Settles O7: each word is one of the opcode map's. -/
theorem tableWordsDecode : Obligations.TableWordsDecode := by
  unfold Obligations.TableWordsDecode
  decide

/-- Settles O6: the engine's turn is the completion step, which runs the operation decoded. -/
theorem stepRunsTheDecodedCommand : Obligations.StepRunsTheDecodedCommand := by
  intro s i hbusy hdecode
  constructor
  · intro hi
    rw [step_nil hi, engineStep_busy hbusy, completion, hdecode]
  · intro rest hi
    have hrest : decode (State.dispatchWord { s with inputs := rest }) = .ok i := hdecode
    rw [step_cons hi]
    refine (engineStep_busy (s := { s with inputs := rest }) hbusy).trans ?_
    rw [completion, hrest]

/-! ## The descriptor word -/

/-- The descriptor word is the sum of its fields, each at the weight of its lowest bit (R95). -/
theorem pack_toNat (d : Descriptor) :
    d.pack.toNat = d.variant.toNat + d.zeroA.toNat * 2 ^ 3 + d.order0.toNat * 2 ^ 4 +
      d.order1.toNat * 2 ^ 8 + d.order2.toNat * 2 ^ 12 + d.order3.toNat * 2 ^ 16 +
      d.subH.toNat * 2 ^ 20 + d.subV.toNat * 2 ^ 24 + d.zeroB.toNat * 2 ^ 28 +
      d.bpp.toNat * 2 ^ 32 + d.depth.toNat * 2 ^ 40 + d.zeroC.toNat * 2 ^ 45 +
      d.planes.toNat * 2 ^ 48 + d.family.toNat * 2 ^ 50 + d.zeroD.toNat * 2 ^ 52 := by
  simp only [Descriptor.pack, toNat_append_eq_add]
  omega

/-- Settles O11: the fields marked zero are 0 in a legal descriptor. -/
theorem descriptorWordIsTheSumOfItsFields : Obligations.DescriptorWordIsTheSumOfItsFields := by
  intro d hlegal
  obtain ⟨hfields, _, _⟩ := Descriptor.legal_parts hlegal
  simp only [Descriptor.fieldsLegal, Bool.and_eq_true, beq_iff_eq] at hfields
  obtain ⟨⟨⟨⟨_, hA⟩, hB⟩, hC⟩, hD⟩ := hfields
  rw [pack_toNat, hA, hB, hC, hD]
  simp

/-- Words put together are equal exactly when their parts are. -/
theorem toNat_append_inj {m n : Nat} {hi hi' : BitVec m} {lo lo' : BitVec n} :
    (hi ++ lo).toNat = (hi' ++ lo').toNat ↔ hi.toNat = hi'.toNat ∧ lo.toNat = lo'.toNat := by
  rw [BitVec.toNat_inj, BitVec.toNat_inj, BitVec.toNat_inj]
  constructor
  · intro h
    have hhi := congrArg (BitVec.extractLsb' n m) h
    have hlo := congrArg (BitVec.extractLsb' 0 n) h
    rw [BitVec.extractLsb'_append_eq_left, BitVec.extractLsb'_append_eq_left] at hhi
    rw [BitVec.extractLsb'_append_eq_right, BitVec.extractLsb'_append_eq_right] at hlo
    exact ⟨hhi, hlo⟩
  · rintro ⟨rfl, rfl⟩
    rfl

/-- No field is lost in the descriptor word. -/
theorem pack_injective : Function.Injective Descriptor.pack := by
  rintro ⟨⟩ ⟨⟩ h
  have hfields := congrArg BitVec.toNat h
  simp only [Descriptor.pack, toNat_append_inj] at hfields
  simp only [BitVec.toNat_inj] at hfields
  simp only [Descriptor.mk.injEq]
  tauto

/-- Every bit of a descriptor word is in a field: a word is the sum of its slices. -/
theorem pack_unpack (w : BitVec 64) : (Descriptor.unpack w).pack = w := by
  apply BitVec.eq_of_toNat_eq
  have hlt := w.isLt
  rw [pack_toNat]
  simp only [Descriptor.unpack, BitVec.extractLsb'_toNat, Nat.shiftRight_eq_div_pow]
  omega

/-- Settles O10: the word of a word's fields is the word, and packing is injective. -/
theorem descriptorFieldsRoundTrip : Obligations.DescriptorFieldsRoundTrip :=
  ⟨pack_unpack, fun d => pack_injective (pack_unpack d.pack)⟩

end Sys2Proof.Machine
end

section
/-! PROOFS. The register space (spec/10_state.md, sections 1, 8 and 9): reads at every offset, writes while
IDLE, accesses that the bus refuses. -/

namespace Sys2Proof.Machine

/-! ## Reads -/

/-- Settles O12: the sum of `statusWord_toNat`, its two weights written out. -/
theorem statusWordIsTheSumOfItsFields : Obligations.StatusWordIsTheSumOfItsFields :=
  State.statusWord_toNat

/-- STATUS is 0 where no flag is set and SEQ is IDLE. -/
theorem State.statusWord_eq_zero {s : State} (hseq : s.seq = .idle) (hres : s.resolved = false)
    (hdone : s.done = false) (herr : s.err = false) (hcode : s.errCode = 0) (hovr : s.ovr = false) :
    s.statusWord = 0 := by
  apply BitVec.eq_of_toNat_eq
  rw [State.statusWord_toNat, State.resolvedWeight_of_unresolved hres, State.ovrWeight_of_not_ovr hovr]
  simp [hseq, hdone, herr, hcode]

/-- Where every register reads 0, so does every offset (R46). -/
theorem State.readOffset_eq_zero {s : State} (h : ∀ r, s.readReg r = 0) (off : Nat) :
    s.readOffset off = 0 := by
  unfold State.readOffset
  split
  · exact h _
  · rfl

/-- Settles O1: every register reads 0, STATUS because no flag is set. -/
theorem resetRegistersReadZero : Obligations.ResetRegistersReadZero := by
  refine ⟨rfl, State.readOffset_eq_zero fun r => ?_, rfl, rfl⟩
  cases r with
  | status => exact State.statusWord_eq_zero rfl rfl rfl rfl rfl rfl
  | _ => rfl

/-- No register stands above offset 0x44 (R20). -/
theorem regAt_of_above {off : Nat} (h : 0x44 < off) : regAt off = none := by
  cases hr : regAt off with
  | none => rfl
  | some r =>
    have hoff := offset_of_regAt hr
    cases r <;> simp only [Reg.offset] at hoff <;> omega

/-- What a word read finds, by the place of the offset in the register map (R20, R32, R46). -/
theorem State.readOffset_eq_map (s : State) {off : Nat} (h4 : off % 4 = 0) :
    s.readOffset off = ([0, s.statusWord, s.width, s.height, s.tag0, s.tag1, s.tag2,
      s.fmtIndex.setWidth 32, s.descLo, s.descHi, s.payloadSize, s.srcBase, s.dstBase0, s.dstBase1,
      s.dstBase2, s.dstStride0, s.dstStride1, s.dstStride2][off / 4]?).getD 0 := by
  obtain ⟨k, rfl⟩ := Nat.dvd_of_mod_eq_zero h4
  rw [Nat.mul_div_cancel_left k (by decide)]
  by_cases hk : k < 18
  · interval_cases k <;> rfl
  · rw [State.readOffset, regAt_of_above (by omega), List.getElem?_eq_none (by simpa using hk)]
    rfl

/-- Settles O13: the access is one that the bus allows, and its data is the map's. -/
theorem registerReadsReturnTheRegisterMap : Obligations.RegisterReadsReturnTheRegisterMap := by
  intro s off rest h4 hle hi
  rw [step_cons hi, hostStep, hostRegRead, if_pos (regAccessOk_word h4 hle),
    State.readOffset_eq_map _ h4]
  rfl

/-! ## Writes while IDLE -/

/-- A write to a register leaves the other read/write registers (R46). -/
theorem State.readReg_writeReg_other (s : State) {r r' : Reg} (v : Word) (hr' : r' ∈ readWriteRegs)
    (hne : r' ≠ r) : (s.writeReg r v).readReg r' = s.readReg r' := by
  cases r <;> fin_cases hr' <;> first | rfl | exact absurd rfl hne

theorem cmd_notMem_readWriteRegs : Reg.cmd ∉ readWriteRegs := by decide

/-- Settles O16: the step is the register's write, which stores the word and keeps everything the
statement names. -/
theorem operandRegistersHoldWhatIsWritten : Obligations.OperandRegistersHoldWhatIsWritten := by
  intro s r v rest hs hr hi
  have hcmd : r ≠ .cmd := fun h => cmd_notMem_readWriteRegs (h ▸ hr)
  obtain ⟨hdone, herr, hcode, hovr⟩ := State.writeReg_keeps_report { s with inputs := rest } v hcmd
  obtain ⟨hseq, _⟩ := State.writeReg_keeps_sequencer { s with inputs := rest } v hcmd
  obtain ⟨_, _, hsrc, hdst, hinputs⟩ := State.writeReg_keeps_parameters { s with inputs := rest } r v
  refine ⟨_, step_regWrite_idle hs hi, State.readReg_writeReg_same _ v hr, fun r' hr' hne => ?_,
    hseq.trans hs, hdone, herr, hcode, hovr, hsrc, hdst, hinputs⟩
  rw [State.readReg_writeReg_other _ v hr' hne]
  fin_cases hr' <;> rfl

/-- A write to SRC_BASE, a DST_BASE or a DST_STRIDE keeps the resolution and every field of STATUS
(R24 to R26). -/
theorem State.writeReg_keeps_resolution (s : State) {r : Reg} (v : Word) (hr : r ∈ readWriteRegs)
    (hcancel : r ∉ cancellingRegs) :
    (s.writeReg r v).resolved = s.resolved ∧ (s.writeReg r v).fmtIndex = s.fmtIndex ∧
      (s.writeReg r v).descLo = s.descLo ∧ (s.writeReg r v).descHi = s.descHi ∧
      (s.writeReg r v).payloadSize = s.payloadSize ∧
      (s.writeReg r v).statusWord = s.statusWord := by
  fin_cases hr
  case _ | _ | _ | _ | _ => exact absurd (by decide) hcancel
  all_goals exact ⟨rfl, rfl, rfl, rfl, rfl, rfl⟩

/-- Settles O18: the step is the register's write. -/
theorem baseAndStrideWritesKeepResolution : Obligations.BaseAndStrideWritesKeepResolution := by
  intro s r v rest hs hr hcancel hi
  obtain ⟨hres, hidx, hlo, hhi, hsize, hstatus⟩ :=
    State.writeReg_keeps_resolution { s with inputs := rest } v hr hcancel
  exact ⟨_, step_regWrite_idle hs hi, State.readReg_writeReg_same _ v hr, hres, hidx, hlo, hhi, hsize,
    hstatus⟩

theorem State.writeReg_readOnly (s : State) {r : Reg} (v : Word) (h : r ∈ readOnlyRegs) :
    s.writeReg r v = s := by
  fin_cases h <;> rfl

/-- Settles O19: at a read-only register the write has no effect, and at 0x48 and above there is no
register. -/
theorem readOnlyAndReservedWritesAreIgnored : Obligations.ReadOnlyAndReservedWritesAreIgnored := by
  intro s off v rest hs h4 hoff hi
  rcases hoff with hmem | ⟨hge, hle⟩
  · obtain ⟨r, hr, rfl⟩ := List.mem_map.1 hmem
    rw [step_regWrite_idle hs hi, State.writeReg_readOnly _ v hr]
  · have hnone : regAt off = none := regAt_of_above (by omega)
    have hwrite : State.writeOffset { s with inputs := rest } off v = { s with inputs := rest } := by
      simp [State.writeOffset, hs, hnone]
    rw [step_cons hi, hostStep, hostRegWrite, if_pos (regAccessOk_word h4 hle), hwrite]

/-- Settles O20: such an access fails the bus's test, whether it reads or writes. -/
theorem oddRegisterAccessesAreRefused : Obligations.OddRegisterAccessesAreRefused := by
  intro s w off v rest hodd hi
  have hbad : regAccessOk w off = false := by
    rw [← Bool.not_eq_true]
    simp only [regAccessOk, Bool.and_eq_true, beq_iff_eq, decide_eq_true_eq]
    rintro ⟨⟨hword, h4⟩, hle⟩
    rcases hodd with h | h | h
    · exact h hword
    · exact h h4
    · omega
  rcases hi with hi | hi
  · simp [step_cons hi, hostStep, hostRegWrite, hbad]
  · simp [step_cons hi, hostStep, hostRegRead, hbad]

end Sys2Proof.Machine
end

section
/-! PROOFS. NOP and CLOSE (spec/41_commands.md, R158, R159): each as its completion step, and accepted and
completed in two steps. -/

namespace Sys2Proof.Machine

/-- A command written to CMD while IDLE and followed by WAIT: the step that accepts it, then the
completion step of the accepted command (R150, R151). -/
theorem step_accept_then_complete {s : State} {c : Word} {rest : List HostAction}
    (hs : s.seq = .idle) (hi : s.inputs = .regWrite .word 0x00 c :: .wait :: rest) :
    ∃ u, step s = .next u ∧ step u = completion (State.accept c { s with inputs := rest }) := by
  have hcmd : s.inputs = .regWrite .word Reg.cmd.offset c :: .wait :: rest := hi
  exact ⟨_, step_regWrite_idle hs hcmd,
    step_engineTurn (s := State.accept c { s with inputs := .wait :: rest }) ⟨rfl, .inr rfl⟩⟩

/-- Settles O24: NOP's meaning is completion alone, and word 0 selects NOP. -/
theorem nopOnlyReportsDone : Obligations.NopOnlyReportsDone := by
  refine ⟨fun s => rfl, fun s rest hs hi => ?_⟩
  obtain ⟨u, haccept, hcomplete⟩ := step_accept_then_complete hs hi
  refine ⟨u, haccept, hcomplete.trans ?_⟩
  rw [completion, decode_dispatch]
  rfl

/-- Settles O25: CLOSE's meaning clears the resolution and OVR, and word 3 selects CLOSE. -/
theorem closeDropsResolutionAndOverrun : Obligations.CloseDropsResolutionAndOverrun := by
  refine ⟨fun s => rfl, fun s rest hs hi => ?_⟩
  obtain ⟨u, haccept, hcomplete⟩ := step_accept_then_complete hs hi
  refine ⟨u, haccept, hcomplete.trans ?_⟩
  rw [completion, decode_dispatch]
  rfl

end Sys2Proof.Machine
end

section
/-! PROOFS. The host's accesses to SRC and DST (spec/20_memory.md, spec/70_reset_and_hazards.md), and the
canonical form of a memory. -/

namespace Sys2Proof.Machine

/-! ## The canonical form -/

/-- Below the least address that a canonical list may hold no byte is listed. -/
theorem Mem.read_of_wfFrom {m : Mem} {lo a : Nat} (h : Mem.wfFrom lo m = true) (ha : a < lo) :
    Mem.read m a = Mem.unlisted := by
  cases m with
  | nil => rfl
  | cons e m =>
    obtain ⟨k, b⟩ := e
    simp only [Mem.wfFrom, Bool.and_eq_true, decide_eq_true_eq] at h
    obtain ⟨⟨⟨hlo, _⟩, _⟩, _⟩ := h
    rw [Mem.read, if_pos (by omega)]

/-- What a list in canonical form is: its first entry is in the space and listed for good reason, and the
rest stands above it. -/
theorem Mem.wfFrom_cons {lo k : Nat} {b : Byte} {m : Mem} :
    Mem.wfFrom lo ((k, b) :: m) = true ↔
      lo ≤ k ∧ k < spaceSize ∧ b ≠ Mem.unlisted ∧ Mem.wfFrom (k + 1) m = true := by
  simp [Mem.wfFrom, and_assoc]

theorem Mem.read_cons_same (k : Nat) (b : Byte) (m : Mem) : Mem.read ((k, b) :: m) k = b := by
  simp [Mem.read]

/-- Above the first entry the rest of the list is read. -/
theorem Mem.read_cons_above {k x : Nat} {b : Byte} {m : Mem} (h : k < x) :
    Mem.read ((k, b) :: m) x = Mem.read m x := by
  simp [Mem.read, show ¬ x < k by omega, show ¬ x = k by omega]

theorem Mem.eq_of_wfFrom {m m' : Mem} {lo : Nat} (h : Mem.wfFrom lo m = true)
    (h' : Mem.wfFrom lo m' = true) (hread : ∀ a, Mem.read m a = Mem.read m' a) : m = m' := by
  induction m generalizing m' lo with
  | nil =>
    cases m' with
    | nil => rfl
    | cons e' m' =>
      obtain ⟨k', b'⟩ := e'
      have hk := hread k'
      rw [Mem.read_nil, Mem.read_cons_same] at hk
      exact absurd hk.symm (Mem.wfFrom_cons.1 h').2.2.1
  | cons e m ih =>
    obtain ⟨k, b⟩ := e
    obtain ⟨_, _, hb, hm⟩ := Mem.wfFrom_cons.1 h
    cases m' with
    | nil =>
      have hk := hread k
      rw [Mem.read_nil, Mem.read_cons_same] at hk
      exact absurd hk hb
    | cons e' m' =>
      obtain ⟨k', b'⟩ := e'
      obtain ⟨_, _, hb', hm'⟩ := Mem.wfFrom_cons.1 h'
      have hkk : k = k' := by
        have hk := hread k
        have hk' := hread k'
        rw [Mem.read_cons_same] at hk hk'
        rcases Nat.lt_trichotomy k k' with hlt | heq | hgt
        · rw [Mem.read, if_pos hlt] at hk
          exact absurd hk hb
        · exact heq
        · rw [Mem.read, if_pos hgt] at hk'
          exact absurd hk'.symm hb'
      subst hkk
      have hbb : b = b' := by simpa only [Mem.read_cons_same] using hread k
      have htail : m = m' := ih hm hm' fun a => by
        rcases Nat.lt_or_ge k a with hlt | hge
        · simpa only [Mem.read_cons_above hlt] using hread a
        · rw [Mem.read_of_wfFrom hm (by omega), Mem.read_of_wfFrom hm' (by omega)]
      rw [hbb, htail]

/-- Settles O60: from address 0 up, the two lists agree entry by entry. -/
theorem canonicalMemoriesAreEqual : Obligations.CanonicalMemoriesAreEqual :=
  fun _ _ h h' hread => Mem.eq_of_wfFrom h h' hread

/-! ## Stores and loads -/

/-- A store puts its bytes at its addresses, in order (R64). -/
theorem Mem.read_writeBytes_inside (m : Mem) (a i : Nat) (bs : List Byte) (h : i < bs.length) :
    Mem.read (Mem.writeBytes m a bs) (a + i) = bs[i] := by
  rw [Mem.read_writeBytes, dif_pos (by omega)]
  simp only [Nat.add_sub_cancel_left]

/-- An access touches no address of a window if each of its addresses lies outside. -/
theorem touches_eq_false {f : Nat → Bool} {a n : Nat} (h : ∀ i < n, f (a + i) = false) :
    touches f a n = false := by
  rw [← Bool.not_eq_true, touches_iff]
  rintro ⟨i, hi, ht⟩
  simp [h i hi] at ht

theorem inSourceWindow_eq_false {s : State} {a : Nat}
    (h : a < s.srcBase.toNat ∨ s.srcBase.toNat + s.payloadSize.toNat ≤ a) :
    s.inSourceWindow a = false := by
  rw [← Bool.not_eq_true, inSourceWindow_iff]
  omega

theorem inSomeFootprint_eq_false {s : State} {a : Nat}
    (h : ∀ p ∈ usedPlanes s.desc, a < s.dstBase p ∨ s.footprintEnd s.desc p ≤ a) :
    s.inSomeFootprint a = false := by
  rw [← Bool.not_eq_true, inSomeFootprint_iff]
  rintro ⟨p, hp, hin⟩
  have := h p hp
  omega

/-- A store to SRC inside the space that touches no source window in use is carried out (R43, R257). -/
theorem step_srcStore {s : State} {a : Nat} {bs : List Byte} {rest : List HostAction}
    (hspace : a + bs.length ≤ 2 ^ 32)
    (hfree : s.bodyInFlight = true → touches s.inSourceWindow a bs.length = false)
    (hi : s.inputs = .srcStore a bs :: rest) :
    step s = .next { s with inputs := rest, src := Mem.writeBytes s.src a bs } := by
  rw [step_cons hi, hostStep, hostSrcStore, if_neg (Nat.not_lt.2 hspace)]
  exact if_neg (Bool.not_eq_true _ ▸ Bool.and_eq_false_imp.2 hfree)

/-- The same of a store to DST and the footprints (R43, R260). -/
theorem step_dstStore {s : State} {a : Nat} {bs : List Byte} {rest : List HostAction}
    (hspace : a + bs.length ≤ 2 ^ 32)
    (hfree : s.bodyInFlight = true → touches s.inSomeFootprint a bs.length = false)
    (hi : s.inputs = .dstStore a bs :: rest) :
    step s = .next { s with inputs := rest, dst := Mem.writeBytes s.dst a bs } := by
  rw [step_cons hi, hostStep, hostDstStore, if_neg (Nat.not_lt.2 hspace)]
  exact if_neg (Bool.not_eq_true _ ▸ Bool.and_eq_false_imp.2 hfree)

/-- The same of a load of DST (R43, R72). -/
theorem step_dstLoad {s : State} {a : Nat} {rest : List HostAction} (hspace : a < 2 ^ 32)
    (hfree : s.bodyInFlight = true → s.inSomeFootprint a = false)
    (hi : s.inputs = .dstLoad a :: rest) :
    step s = .next { s with inputs := rest, rdata := (Mem.read s.dst a).setWidth 32 } := by
  rw [step_cons hi, hostStep, hostDstLoad, if_neg (Nat.not_le.2 hspace)]
  exact if_neg (Bool.not_eq_true _ ▸ Bool.and_eq_false_imp.2 hfree)

/-- Settles O58: outside the windows of a body in flight each access is carried out, and reads of the
stored memory are as the laws of `writeBytes` say. -/
theorem hostMemoryAccesses : Obligations.HostMemoryAccesses := by
  intro s a bs rest
  refine ⟨fun hspace hout hi => ?_, fun hspace hout hi => ?_, fun hspace hout hi => ?_⟩
  · have hstep := step_srcStore hspace
      (fun hflight => touches_eq_false fun i hlt => inSourceWindow_eq_false (hout hflight i hlt)) hi
    exact ⟨_, hstep, rfl, fun i hlt => Mem.read_writeBytes_inside s.src a i bs hlt,
      fun x hx => Mem.read_writeBytes_outside s.src a x bs hx⟩
  · have hstep := step_dstStore hspace
      (fun hflight => touches_eq_false fun i hlt => inSomeFootprint_eq_false (hout hflight i hlt)) hi
    exact ⟨_, hstep, rfl, fun i hlt => Mem.read_writeBytes_inside s.dst a i bs hlt,
      fun x hx => Mem.read_writeBytes_outside s.dst a x bs hx⟩
  · exact step_dstLoad hspace (fun hflight => inSomeFootprint_eq_false (hout hflight)) hi

/-- Settles O59: an access past the space is tested first, then one that touches a window of a body in
flight. -/
theorem forbiddenHostAccessesStop : Obligations.ForbiddenHostAccessesStop := by
  intro s a bs rest
  refine ⟨fun hspace hi => ?_, fun hspace hi => ?_, fun hspace hflight hi hin => ?_,
    fun hspace hflight hi hin => ?_, fun hspace hflight hi hin => ?_⟩
  · rcases hi with hi | hi <;> rw [step_cons hi] <;> exact if_pos hspace
  · rw [step_cons hi]
    exact if_pos hspace
  · have htouch : touches s.inSourceWindow a bs.length = true :=
      touches_iff.2 (hin.imp fun _ ⟨hlt, hwindow⟩ => ⟨hlt, inSourceWindow_iff.2 hwindow⟩)
    rw [step_cons hi, hostStep, hostSrcStore, if_neg (Nat.not_lt.2 hspace)]
    exact if_pos (Bool.and_eq_true_iff.2 ⟨hflight, htouch⟩)
  · have htouch : touches s.inSomeFootprint a bs.length = true :=
      touches_iff.2 (hin.imp fun _ ⟨hlt, hwindow⟩ => ⟨hlt, inSomeFootprint_iff.2 hwindow⟩)
    rw [step_cons hi, hostStep, hostDstStore, if_neg (Nat.not_lt.2 hspace)]
    exact if_pos (Bool.and_eq_true_iff.2 ⟨hflight, htouch⟩)
  · rw [step_cons hi, hostStep, hostDstLoad, if_neg (Nat.not_le.2 hspace)]
    exact if_pos (Bool.and_eq_true_iff.2 ⟨hflight, inSomeFootprint_iff.2 hin⟩)

end Sys2Proof.Machine
end

section
/-! PROOFS. RESOLVE (spec/41_commands.md, R152, and spec/30_encoding.md, R97): the tag key, and what each
outcome of the lookup and of the geometry test leaves. -/

namespace Sys2Proof.Machine

/-! ## The tag key -/

/-- The 12 tag bytes, as a list indexed by byte (R23). -/
theorem State.tagBytes_eq_map {s : State} {t : Nat → Byte}
    (ht : ∀ j < 12, t j = (if j < 4 then s.tag0 else if j < 8 then s.tag1 else s.tag2).extractLsb'
      (8 * (j % 4)) 8) : s.tagBytes = (List.range 12).map t := by
  have hbytes : s.tagBytes = (List.range 12).map fun j =>
      (if j < 4 then s.tag0 else if j < 8 then s.tag1 else s.tag2).extractLsb' (8 * (j % 4)) 8 := rfl
  rw [hbytes]
  exact List.map_congr_left fun j hj => (ht j (List.mem_range.1 hj)).symm

/-- The longest run of elements with `p` is `n` long, where the first `n` have it and the next has not. -/
theorem takeWhile_range_map {α : Type} {p : α → Bool} {t : Nat → α} {n N : Nat} (hn : n ≤ N)
    (hrun : ∀ j < n, p (t j) = true) (hend : n < N → p (t n) = false) :
    ((List.range N).map t).takeWhile p = (List.range n).map t := by
  obtain ⟨m, rfl⟩ := Nat.exists_eq_add_of_le hn
  rw [List.range_add, List.map_append, List.takeWhile_append_of_pos (by simpa using hrun)]
  cases m with
  | zero => simp
  | succ m => simp [List.range_succ_eq_map, hend (by omega)]

/-- The key of a tag whose `n` bytes before the first zero byte are `t 0` to `t (n - 1)` (R97). -/
theorem State.tagKey_eq {s : State} {t : Nat → Byte} {n : Nat}
    (ht : ∀ j < 12, t j = (if j < 4 then s.tag0 else if j < 8 then s.tag1 else s.tag2).extractLsb'
      (8 * (j % 4)) 8)
    (hn : n ≤ 12) (hrun : ∀ j < n, t j ≠ 0) (hend : n < 12 → t n = 0) :
    s.tagKey = (List.range n).map (fun j => foldByte (t j)) ++ List.replicate (12 - n) 0 := by
  rw [State.tagKey, foldTag, State.tagBytes_eq_map ht,
    takeWhile_range_map hn (by simpa using hrun) (by simpa using hend), padKey, List.map_map,
    List.length_map, List.length_range]
  rfl

/-- Settles O29: the key is the folded run and as many zero bytes as are missing to 12. -/
theorem tagKeyIsTheFoldedTag : Obligations.TagKeyIsTheFoldedTag := by
  intro s t n ht hn hrun hend
  rw [State.tagKey_eq ht hn hrun hend]
  constructor
  · simp [hn]
  · intro j hj
    by_cases hjn : j < n
    · simp [List.getElem?_append_left, hjn, foldByte]
    · have hpad : j - n < 12 - n := by omega
      simp [List.getElem?_append_right (show ((List.range n).map fun j => foldByte (t j)).length ≤ j by
        simpa using hjn), hjn, hpad]

/-- The key of an empty tag starts with a zero byte (R97). -/
theorem State.tagKey_head_of_empty {s : State} (h : s.tag0.extractLsb' 0 8 = 0) :
    s.tagKey.head? = some 0 := by
  have hbytes : s.tagBytes = s.tag0.extractLsb' 0 8 :: s.tagBytes.tail := rfl
  rw [State.tagKey, foldTag, hbytes, h]
  rfl

/-! ## The entries of a legal ROM -/

theorem Rom.legal_entry {r : Rom} (h : Rom.legal r = true) {e : RomEntry} (he : e ∈ r) :
    e.legal = true := by
  simp only [Rom.legal, Bool.and_eq_true, List.all_eq_true] at h
  exact h.1.2 e he

theorem Rom.legal_length {r : Rom} (h : Rom.legal r = true) : r.length ≤ 256 := by
  simp only [Rom.legal, Bool.and_eq_true, decide_eq_true_eq] at h
  exact h.1.1.2

/-- No legal entry has an empty NAME (R123). -/
theorem RomEntry.legal_nameBytes_head {e : RomEntry} (h : e.legal = true) :
    e.nameBytes.head? ≠ some 0 := by
  simp only [RomEntry.legal, nameLegal, Bool.and_eq_true, bne_iff_ne] at h
  exact h.1.1.2

/-- What a lookup finds in a legal ROM is a legal entry that FMT_INDEX can name (R120, R122). -/
theorem romLookup_legal {r : Rom} (h : Rom.legal r = true) {key : List Byte} {i : Nat} {e : RomEntry}
    (hfound : romLookup r key = some (i, e)) : e.legal = true ∧ i < 256 := by
  obtain ⟨hiff, _⟩ := lookupFindsTheFirstMatch r key
  obtain ⟨hget, _⟩ := (hiff i e).1 hfound
  obtain ⟨hlt, rfl⟩ := List.getElem?_eq_some_iff.1 hget
  exact ⟨Rom.legal_entry h (List.getElem_mem hlt), hlt.trans_le (Rom.legal_length h)⟩

/-- Settles O30: the key of an empty tag is no NAME of a legal ROM. -/
theorem emptyTagIsUnsupported : Obligations.EmptyTagIsUnsupported := by
  intro s hrom hempty
  have hnone : romLookup s.rom s.tagKey = none := by
    refine romScan_eq_none.2 fun e he hname => RomEntry.legal_nameBytes_head (Rom.legal_entry hrom he) ?_
    rw [hname, State.tagKey_head_of_empty hempty]
  exact ⟨_, execResolve_of_none hnone, rfl, rfl, rfl⟩

/-! ## The outcomes -/

/-- Settles O26: the resolution registers hold what was looked up, and the payload's size neither wraps nor
rounds. -/
theorem resolveFinalizesTheMatchedFormat : Obligations.ResolveFinalizesTheMatchedFormat := by
  intro s i e hfound hlegal hi hmax hW1 hW hH1 hH hWmod hHmod
  have hdesc : e.desc.legal = true := (Bool.and_eq_true_iff.1 hlegal).2
  have hgeom : geometryOk s.maxDim e.desc s.W s.H = true :=
    geometryOk_iff.2 ⟨Nat.one_le_iff_ne_zero.1 hW1, Nat.one_le_iff_ne_zero.1 hH1, hW, hH, hWmod, hHmod⟩
  have hexec := execResolve_of_legal hfound hlegal hi hmax
  rw [if_pos hgeom] at hexec
  refine ⟨_, hexec, rfl, ?_, s.setResolution_descWord i e, ?_⟩
  · rw [State.complete_fmtIndex, State.setResolution_fmtIndex, BitVec.toNat_ofNat, Nat.mod_eq_of_lt hi]
  · have hlt : payloadBytes e.desc s.W s.H < 2 ^ 32 := payloadBytes_lt hdesc hmax hW hH
    rw [State.complete_payloadSize, State.setResolution_payloadSize, BitVec.toNat_ofNat,
      Nat.mod_eq_of_lt hlt]
    exact payloadBytes_mul_eight hdesc hWmod hHmod

/-- Settles O27: the lookup comes first, then the geometry test. -/
theorem resolveReportsTagThenGeometry : Obligations.ResolveReportsTagThenGeometry := by
  refine fun s => ⟨execResolve_of_none, fun i e hfound hlegal hi hmax hbad => ?_⟩
  have hgeom : ¬ geometryOk s.maxDim e.desc s.W s.H = true := by
    rw [geometryOk_iff]
    rintro ⟨hW, hH, hWmax, hHmax, hWmod, hHmod⟩
    rcases hbad with h | h | h | h | h | h
    · exact hW h
    · exact hH h
    · exact absurd hWmax (Nat.not_le.2 h)
    · exact absurd hHmax (Nat.not_le.2 h)
    · exact h hWmod
    · exact h hHmod
  have hexec := execResolve_of_legal hfound hlegal hi hmax
  rw [if_neg hgeom] at hexec
  exact hexec

end Sys2Proof.Machine
end

section
/-! PROOFS. The front-end of DECODE and command errors (spec/41_commands.md, section 3, and
spec/60_exceptions.md): which test reports, that a report changes only STATUS, and that every command
completes. -/

namespace Sys2Proof.Machine

/-! ## The tests of the front-end -/

/-- A DECODE of a legal descriptor reports the first window test that fails (R154, R227). -/
theorem exec_decode_windowError {v : Variant} {i : Instr} (h : decodeVariant v.code = .ok i) {s : State}
    (hr : s.resolved = true) (hl : s.desc.legal = true) (hv : s.desc.variant = v.code) {c : ErrCode}
    (hw : s.windowError s.desc = some c) : exec i s = .next (s.raiseErr c) := by
  obtain ⟨body, hx, _⟩ := decodeVariant_exec h
  simp [hx, decodeWith, hr, hl, hv, hw]

/-- A DECODE of any variant with RESOLVED = 0 reports SEQUENCE (R155). -/
theorem exec_decode_unresolved {v : Variant} {i : Instr} (h : decodeVariant v.code = .ok i) {s : State}
    (hr : s.resolved = false) : exec i s = .next (s.raiseErr .sequence) := by
  obtain ⟨body, hx, _⟩ := decodeVariant_exec h
  rw [hx, decodeWith_unresolved hr]

/-- Settles O32: the DST_CONFIG test is the first of the window tests. -/
theorem badDestinationIsDstConfigError : Obligations.BadDestinationIsDstConfigError := by
  intro s v i hi hr hl hv hbad
  exact exec_decode_windowError hi hr hl hv ((s.windowError_eq s.desc).trans (if_pos hbad))

/-- Settles O33: where the DST_CONFIG test passes, the range tests report. -/
theorem wrappingWindowIsRangeError : Obligations.WrappingWindowIsRangeError := by
  intro s v i hi hr hl hv hconfig hwrap
  have hgood : ¬ ∃ p ∈ usedPlanes s.desc, s.dstBase p % 4 ≠ 0 ∨ s.dstStride p % 4 ≠ 0 ∨
      s.dstStride p < rowBytes s.desc s.W p := by
    rintro ⟨p, hp, hbad⟩
    obtain ⟨hbase, hstride, hcovers⟩ := hconfig p hp
    omega
  exact exec_decode_windowError hi hr hl hv
    ((s.windowError_eq s.desc).trans ((if_neg hgood).trans (if_pos hwrap)))

theorem completion_of_ok {s : State} {i : Instr} (h : decode s.dispatchWord = .ok i) :
    completion s = exec i s := by rw [completion, h]

theorem completion_of_error {s : State} {e : DecodeError} (h : decode s.dispatchWord = .error e) :
    completion s = completeIllegal e s := by rw [completion, h]

/-- With command word 2 the dispatch word decodes by the resolved variant (R92). -/
theorem decode_dispatch_decode {s : State} (hp : s.pending = 2) :
    decode s.dispatchWord = decodeVariant s.desc.variant := by
  rw [decode_dispatch, hp]
  rfl

/-- At the engine's turn command word 2 without a resolution reports SEQUENCE, whatever the variant bits
select (R155). -/
theorem completion_unresolved {s : State} (hp : s.pending = 2) (hr : s.resolved = false) :
    completion s = .next (s.raiseErr .sequence) := by
  have hdecode := decode_dispatch_decode hp
  rcases variant_code_or_seven s.desc.variant with ⟨v, hv⟩ | hv
  · obtain ⟨i, hi⟩ := exists_decodeVariant v
    rw [completion_of_ok (hdecode.trans (hv ▸ hi))]
    exact exec_decode_unresolved hi hr
  · rw [completion_of_error (e := .reservedVariant) (hdecode.trans (hv ▸ rfl))]
    simp [completeIllegal, completeReservedVariant, hr]

/-- At the engine's turn an error completion leaves its report and takes off the input that gave the turn
(R225, log 1). -/
theorem step_reportAtTurn {s : State} (hturn : s.EngineTurn) {c : ErrCode}
    (h : completion { s with inputs := s.inputs.tail } =
      .next (State.raiseErr c { s with inputs := s.inputs.tail })) :
    step s = .next (s.reportAtTurn c.code) := by
  rw [step_engineTurn hturn, h, State.raiseErr_tail]

/-- Settles O31: at the engine's turn, and for each of the seven operations. -/
theorem decodeWithoutResolutionIsSequenceError : Obligations.DecodeWithoutResolutionIsSequenceError := by
  exact ⟨fun s hturn hp hr => step_reportAtTurn hturn (c := .sequence) (completion_unresolved hp hr),
    fun s v i hi hr => exec_decode_unresolved hi hr⟩

/-! ## Words that are no operation -/

/-- A command word of 4 or more reports ILLEGAL_CMD before anything else is looked at (R223). -/
theorem completion_malformed {s : State} (h : 4 ≤ s.pending.toNat) :
    completion s = .next (s.raiseErr .illegalCmd) := by
  have hne : ∀ c : Word, c.toNat < 4 → s.pending ≠ c := fun c hc heq => by
    rw [heq] at h
    omega
  rw [completion, decode_dispatch, if_neg (hne 0 (by decide)), if_neg (hne 1 (by decide)),
    if_neg (hne 2 (by decide)), if_neg (hne 3 (by decide))]
  split_ifs <;> rfl

/-- Settles O34: a malformed word is reported at once, a DECODE with VARIANT 7 after the window tests. -/
theorem illegalCommandChangesOnlyStatus : Obligations.IllegalCommandChangesOnlyStatus := by
  intro s hturn
  refine ⟨fun h4 => step_reportAtTurn hturn (c := .illegalCmd) (completion_malformed h4),
    fun hp hv hf hr => ?_⟩
  have report : ∀ c : ErrCode, (s.windowError s.desc).getD .illegalCmd = c →
      step s = .next (s.reportAtTurn c.code) := by
    rintro c rfl
    exact step_reportAtTurn hturn
      (completion_reservedVariant (s := { s with inputs := s.inputs.tail }) hp hv hf hr)
  rw [State.windowError_eq] at report
  split_ifs at report ⊢
  · exact report .dstConfig rfl
  · exact report .range rfl
  · exact report .illegalCmd rfl

/-- Settles O36: of the cases of a completion step only the two error reports set ERR. -/
theorem errorsArePrecise : Obligations.ErrorsArePrecise := by
  intro s t hturn herr hstep hset
  have code_range : ∀ c : ErrCode, 1 ≤ c.code.toNat ∧ c.code.toNat ≤ 6 := fun c => by
    cases c <;> decide
  rw [step_engineTurn hturn] at hstep
  cases completion_case hstep with
  | resolveError hp c =>
    have hp' : s.pending = 1 := hp
    rw [if_pos hp']
    exact ⟨(code_range c).1, (code_range c).2, rfl⟩
  | error h1 _ c =>
    have h1' : s.pending ≠ 1 := h1
    rw [if_neg h1']
    exact ⟨(code_range c).1, (code_range c).2, rfl⟩
  | body =>
    rw [State.runMoves_frame] at hset
    exact absurd hset (by simp [herr])
  | nop | resolved | close => exact absurd hset (by simp [herr])

/-! ## What is refused -/

/-- Settles O35: the tests that refuse stand where the statement says. -/
theorem unspecifiedCasesAreRefused : Obligations.UnspecifiedCasesAreRefused := by
  refine ⟨fun s i e hfound hbad => ?_, fun s v i hi hr hv => ?_⟩
  · have hcheck : (e.legal && decide (i < 256) && maxDimLegal s.maxDim) = false := by
      rcases hbad with h | h | h
      · simp [h]
      · simp [Nat.not_lt.2 h]
      · simp [h]
    change execResolve s = _
    simp [execResolve, hfound, hcheck]
  · obtain ⟨body, hx, _⟩ := decodeVariant_exec hi
    refine ⟨fun hl => by simp [hx, decodeWith, hr, hl], fun hl hw hmeet => ?_⟩
    have hoverlap : s.footprintsDisjoint s.desc = false := by
      obtain ⟨p, hp, q, hq, hne, hpq, hqp⟩ := hmeet
      rw [← Bool.not_eq_true, State.footprintsDisjoint_iff]
      intro hdisjoint
      have := hdisjoint p hp q hq hne
      omega
    simp [hx, decodeWith, hr, hl, hv, hw, hoverlap]

/-! ## Every command completes -/

/-- While RESOLVED = 1 the invariant makes the resolved descriptor a legal one (R35). -/
theorem State.Inv.desc_legal {s : State} (h : s.Inv) (hr : s.resolved = true) : s.desc.legal = true := by
  obtain ⟨e, _, hlegal, hword⟩ := (h.resolution hr).entry
  have hdesc : s.desc = e.desc := congrArg Descriptor.unpack hword
  rw [hdesc]
  exact (Bool.and_eq_true_iff.1 hlegal).2

/-- A RESOLVE with a legal ROM and a MAXDIM in bound answers a next state. -/
theorem execResolve_answers {s : State} (hrom : Rom.legal s.rom = true)
    (hmax : maxDimLegal s.maxDim = true) : ∃ t, execResolve s = .next t := by
  cases hfound : romLookup s.rom s.tagKey with
  | none => exact ⟨_, execResolve_of_none hfound⟩
  | some found =>
    obtain ⟨hlegal, hi⟩ := romLookup_legal hrom hfound
    exact ⟨_, execResolve_of_legal hfound hlegal hi hmax⟩

/-- A DECODE of a legal descriptor whose footprints are disjoint answers a next state. -/
theorem exec_decode_answers {v : Variant} {i : Instr} (h : decodeVariant v.code = .ok i) {s : State}
    (hr : s.resolved = true) (hl : s.desc.legal = true) (hv : s.desc.variant = v.code)
    (hd : s.footprintsDisjoint s.desc = true) : ∃ t, exec i s = .next t := by
  cases hw : s.windowError s.desc with
  | some c => exact ⟨_, exec_decode_windowError h hr hl hv hw⟩
  | none => exact ⟨_, exec_decode_body h hr hl hv (State.windowsOk_iff.2 ⟨hw, hd⟩)⟩

theorem word_below_four {c : Word} (h : c.toNat < 4) : c = 0 ∨ c = 1 ∨ c = 2 ∨ c = 3 := by
  bv_omega

/-- No completion step is refused where the ROM is legal and the host kept the footprints apart (R151,
R259). -/
theorem completion_answers {s : State} (h : s.Inv) (hrom : Rom.legal s.rom = true)
    (hmax : maxDimLegal s.maxDim = true)
    (hd : s.pending = 2 → s.resolved = true → s.footprintsDisjoint s.desc = true) :
    ∃ t, completion s = .next t := by
  by_cases h4 : 4 ≤ s.pending.toNat
  · exact ⟨_, completion_malformed h4⟩
  · rcases word_below_four (Nat.not_le.1 h4) with hp | hp | hp | hp
    · rw [completion_of_ok (i := .nop) (by rw [decode_dispatch, hp]; rfl)]
      exact ⟨_, rfl⟩
    · rw [completion_of_ok (i := .resolve) (by rw [decode_dispatch, hp]; rfl)]
      exact execResolve_answers hrom hmax
    · cases hr : s.resolved with
      | false => exact ⟨_, completion_unresolved hp hr⟩
      | true =>
        have hl := h.desc_legal hr
        obtain ⟨v, hv⟩ := Descriptor.legal_has_variant hl
        obtain ⟨i, hi⟩ := exists_decodeVariant v
        rw [completion_of_ok ((decode_dispatch_decode hp).trans (hv ▸ hi))]
        exact exec_decode_answers hi hr hl hv (hd hp hr)
    · rw [completion_of_ok (i := .close) (by rw [decode_dispatch, hp]; rfl)]
      exact ⟨_, rfl⟩

/-- Settles O38: the completion step answers, and leaves one of the two reports. -/
theorem everyCommandCompletes : Obligations.EveryCommandCompletes := by
  intro s hinv hrom hmax hturn hd
  obtain ⟨_, herr, hcode⟩ := hinv.status.no_report hturn.1
  obtain ⟨t, ht⟩ := completion_answers (s := { s with inputs := s.inputs.tail })
    (hinv.with_inputs s.inputs.tail s.rdata) hrom hmax hd
  refine ⟨t, (step_engineTurn hturn).trans ht, ?_⟩
  rcases completion_reports (s := { s with inputs := s.inputs.tail }) herr hcode ht with
    ⟨hdone, _⟩ | ⟨c, herror⟩
  · exact ⟨hdone.idle, by simp [hdone.done, hdone.no_err]⟩
  · exact ⟨herror.idle, by simp [herror.not_done, herror.err]⟩

end Sys2Proof.Machine
end

section
/-! PROOFS. The word gather as a datapath step (spec/20_memory.md, R61, R181, R200): the bytes of a gathered
word, and the full groups of DECODE.NV, DECODE.RGB24 and DECODE.RGB32. -/

namespace Sys2Proof.Machine

/-- A gathered word's value: sample `j` at weight `2 ^ (8 * j)` (R61). -/
theorem gatherWord_toNat (b0 b1 b2 b3 : Byte) :
    (gatherWord b0 b1 b2 b3).toNat =
      b0.toNat + b1.toNat * 2 ^ 8 + b2.toNat * 2 ^ 16 + b3.toNat * 2 ^ 24 := by
  simp only [gatherWord, toNat_append_eq_add]
  omega

/-- Byte `j` of a word as a number. -/
theorem leByte_toNat {n : Nat} (w : BitVec n) (j : Nat) :
    (leByte w j).toNat = w.toNat / 2 ^ (8 * j) % 2 ^ 8 := by
  rw [leByte, BitVec.extractLsb'_toNat, Nat.shiftRight_eq_div_pow]

/-- The bytes of a gathered word are its samples, least significant first (R61). -/
theorem leByte_gatherWord (b0 b1 b2 b3 : Byte) :
    leByte (gatherWord b0 b1 b2 b3) 0 = b0 ∧ leByte (gatherWord b0 b1 b2 b3) 1 = b1 ∧
      leByte (gatherWord b0 b1 b2 b3) 2 = b2 ∧ leByte (gatherWord b0 b1 b2 b3) 3 = b3 := by
  have hvalue := gatherWord_toNat b0 b1 b2 b3
  have h0 := b0.isLt
  have h1 := b1.isLt
  have h2 := b2.isLt
  have h3 := b3.isLt
  refine ⟨?_, ?_, ?_, ?_⟩ <;> (apply BitVec.eq_of_toNat_eq; rw [leByte_toNat, hvalue]; omega)

/-- Settles O49: the bytes and the value of a gathered word. -/
theorem gatherWordLanes : Obligations.GatherWordLanes := by
  intro b0 b1 b2 b3
  obtain ⟨h0, h1, h2, h3⟩ := leByte_gatherWord b0 b1 b2 b3
  exact ⟨h0, h1, h2, h3, gatherWord_toNat b0 b1 b2 b3⟩

/-- Four bytes of a memory are the bytes of the word gathered from them. -/
theorem readBytes_eq_gathered {m : Mem} {a : Nat} {b0 b1 b2 b3 : Byte} (h0 : Mem.read m a = b0)
    (h1 : Mem.read m (a + 1) = b1) (h2 : Mem.read m (a + 2) = b2) (h3 : Mem.read m (a + 3) = b3) :
    Mem.readBytes m a 4 = (List.range 4).map (leByte (gatherWord b0 b1 b2 b3)) := by
  obtain ⟨hb0, hb1, hb2, hb3⟩ := leByte_gatherWord b0 b1 b2 b3
  simp [Mem.readBytes, List.range_succ, h0, h1, h2, h3, hb0, hb1, hb2, hb3]

/-- Settles O50: the pairs of the group are split as `decodeNvSplitsBytePairs` says. -/
theorem nvGroupsAreGatheredWords : Obligations.NvGroupsAreGatheredWords := by
  rintro s t pa pb hready ht hpa hpb y hy g hg o rfl
  obtain ⟨t', ht', _, _, _, hsplit, _⟩ := decodeNvSplitsBytePairs s hready
  obtain rfl : t = t' := Host.Outcome.next.inj (ht.symm.trans ht')
  have pair : ∀ j, 4 * g + j < s.W / 2 → ∀ o, o = s.W * s.H + y * (2 * (s.W / 2)) + 8 * g + 2 * j →
      Mem.read t.dst (s.dstAddr pa y (4 * g + j)) = s.srcByte o ∧
      Mem.read t.dst (s.dstAddr pb y (4 * g + j)) = s.srcByte (o + 1) := by
    rintro j hj o rfl
    have hsame : s.W * s.H + y * (2 * (s.W / 2)) + 8 * g + 2 * j =
        s.W * s.H + y * (2 * (s.W / 2)) + 2 * (4 * g + j) := by omega
    rw [hsame]
    exact hsplit pa pb hpa hpb y hy (4 * g + j) hj
  obtain ⟨ha0, hb0⟩ := pair 0 (by omega) _ rfl
  obtain ⟨ha1, hb1⟩ := pair 1 (by omega) _ rfl
  obtain ⟨ha2, hb2⟩ := pair 2 (by omega) _ rfl
  obtain ⟨ha3, hb3⟩ := pair 3 (by omega) _ rfl
  exact ⟨readBytes_eq_gathered ha0 ha1 ha2 ha3, readBytes_eq_gathered hb0 hb1 hb2 hb3⟩

/-- A row of a plane that holds byte `e` of each pixel of `B` bytes holds in each full group of four the
word gathered from these bytes (R200). -/
theorem rgbGroup_eq_gathered {s t : State} {p : Plane} {y g B e : Nat} (hg : 4 * g + 3 < s.W)
    (h : ∀ x < s.W, Mem.read t.dst (s.dstAddr p y x) = s.srcByte ((y * s.W + x) * B + e)) :
    Mem.readBytes t.dst (s.dstAddr p y (4 * g)) 4 =
      (List.range 4).map (leByte (gatherWord (s.srcByte (y * B * s.W + 4 * g * B + e))
        (s.srcByte (y * B * s.W + 4 * g * B + B + e)) (s.srcByte (y * B * s.W + 4 * g * B + 2 * B + e))
        (s.srcByte (y * B * s.W + 4 * g * B + 3 * B + e)))) := by
  have pixel : ∀ j (_ : 4 * g + j < s.W) o, o = y * B * s.W + 4 * g * B + j * B + e →
      Mem.read t.dst (s.dstAddr p y (4 * g + j)) = s.srcByte o := by
    rintro j hj o rfl
    rw [h _ hj]
    congr 1
    ring
  exact readBytes_eq_gathered (pixel 0 (by omega) _ (by ring)) (pixel 1 (by omega) _ (by ring))
    (pixel 2 (by omega) _ rfl) (pixel 3 (by omega) _ rfl)

/-- Settles O51: the channels of the group's pixels are split as the statements of the two variants
say. -/
theorem rgbGroupsAreGatheredWords : Obligations.RgbGroupsAreGatheredWords := by
  rintro s t B a hvariant c hc p hslot y hy g hg o rfl
  have hsplit : ∀ x < s.W,
      Mem.read t.dst (s.dstAddr p y x) = s.srcByte ((y * s.W + x) * B + (a + c)) := by
    rcases hvariant with ⟨hready, ht, rfl, rfl⟩ | ⟨hready, ht, rfl, ha⟩
    · obtain ⟨t', ht', _, _, hsplit, _⟩ := decodeRgb24SplitsPixels s hready
      obtain rfl : t = t' := Host.Outcome.next.inj (ht.symm.trans ht')
      intro x hx
      rw [hsplit c hc p hslot y hy x hx, Nat.zero_add]
    · obtain ⟨t', ht', _, _, hsplit, _⟩ := decodeRgb32SplitsPixelsAndDropsOneByte s hready
      obtain rfl : t = t' := Host.Outcome.next.inj (ht.symm.trans ht')
      have hj : c + a < 4 := by
        rw [ha]
        split <;> omega
      intro x hx
      rw [hsplit (c + a) hj p hslot y hy x hx, Nat.add_comm c a]
  simpa only [Nat.add_assoc] using rgbGroup_eq_gathered hg hsplit

end Sys2Proof.Machine
end

section
/-! PROOFS. The moves of a body and the active areas (spec/40_format_rom.md, R133, and spec/20_memory.md,
R68 to R77): where moves may go, how large the areas are, and that a second DECODE changes nothing. -/

namespace Sys2Proof.Machine

/-! ## Where the moves of a body go -/

/-- The variants with word gather, whose bodies also write tail padding (R77). -/
def gatherVariants : List (BitVec 3) :=
  [Variant.nvSemiplanar.code, Variant.packedRgb24.code, Variant.packedRgb32.code]

theorem nvMoves_col_lt {d : Descriptor} (hl : d.legal = true)
    (hv : d.variant = Variant.nvSemiplanar.code) {W H : Nat} {m : Move} (hm : m ∈ nvMoves d W H)
    (hcopy : m.src ≠ none) : m.col < rowBytes d W m.plane := by
  rw [nv_rowBytes hl hv]
  obtain ⟨hfirst, hsecond⟩ := slots_chroma_of_semiPlanar (Descriptor.legal_variant hl hv).1
  rcases mem_nvMoves.1 hm with hluma | ⟨y, _, hrow⟩
  · obtain ⟨hp, _, hk, _⟩ := mem_copyPlane.1 hluma
    rw [hp]
    exact hk
  · rcases mem_nvRow.1 hrow with ⟨hp, _, hk, _⟩ | ⟨hp, _, hk, _⟩ | ⟨_, _, _, _, hnone⟩
    · rw [hp, chroma_width hfirst]
      exact hk
    · rw [hp, chroma_width hsecond]
      exact hk
    · exact absurd hnone hcopy

theorem rgbRow_col_lt {d : Descriptor} (hp : d.packedLegal = true) (h8 : d.depth.toNat = 8)
    {W B a y : Nat} {m : Move} (hm : m ∈ rgbRow d W B a y) (hcopy : m.src ≠ none) :
    m.col < rowBytes d W m.plane := by
  rw [packed_rowBytes hp, Descriptor.bps_eight h8, Nat.mul_one]
  rcases mem_rgbRow.1 hm with ⟨_, hk, _⟩ | ⟨_, _, _, hnone⟩
  · exact hk
  · exact absurd hnone hcopy

/-- A move that copies a source byte goes to an active byte, and so does every move of a variant without
word gather (R77). -/
theorem bodyMoves_col_lt {d : Descriptor} (hl : d.legal = true) {W H : Nat} {m : Move}
    (hm : m ∈ bodyMoves d W H) (h : m.src ≠ none ∨ d.variant ∉ gatherVariants) :
    m.col < rowBytes d W m.plane := by
  obtain ⟨v, hv⟩ := Descriptor.legal_has_variant hl
  have copies : v.code ∈ gatherVariants → m.src ≠ none := fun hgather =>
    h.resolve_right fun hnot => hnot (hv ▸ hgather)
  have hvariant := Descriptor.legal_variant hl hv
  unfold bodyMoves at hm
  cases v <;> (rw [hv] at hm; simp only [Variant.code] at hm)
  case planar => exact (planarMoves_active hl hv W H m hm).2.2
  case nvSemiplanar => exact nvMoves_col_lt hl hv hm (copies (by decide))
  case p01xSemiplanar16 => exact (p01xMoves_active hl hv W H m hm).2.2
  case packedYuv422 => exact (yuv422Moves_active hl hv W H m hm).2.2
  case packedRgb24 =>
    obtain ⟨_, hrow⟩ := mem_rgb24Moves.1 hm
    exact rgbRow_col_lt hvariant.1 hvariant.2.1 hrow (copies (by decide))
  case packedRgb32 =>
    obtain ⟨_, hrow⟩ := mem_rgb32Moves.1 hm
    exact rgbRow_col_lt hvariant.1 hvariant.2.1 hrow (copies (by decide))
  case packedRgb48 => exact (rgb48Moves_active hl hv W H m hm).2.2

/-- Settles O41: each active byte has its one source, and moves stay in the planes. -/
theorem activeBytesAreAssignedOnce : Obligations.ActiveBytesAreAssignedOnce := by
  intro d W H hl _ _ hW hH
  refine ⟨fun p hp y hy k hk => ?_, fun m hm => ?_⟩
  · obtain ⟨i, _, hsrc⟩ := bodyMoves_sources hl hW hH p hp y hy k hk
    exact ⟨⟨i, hsrc.assigned, fun j hj => hsrc.unique hj⟩,
      fun hnone => by cases hsrc.only _ hnone rfl rfl rfl⟩
  · obtain ⟨hp, hy, hk⟩ := bodyMoves_inPlanes hl W H m hm
    exact ⟨hp, hy, hk, fun hgather => bodyMoves_col_lt hl hm (.inr hgather)⟩

/-! ## The payload's size and the active areas -/

/-- The active areas of the used planes together, in bytes. -/
def activeBytes (d : Descriptor) (W H : Nat) : Nat :=
  ((usedPlanes d).map fun p => rowBytes d W p * planeHeight d H p).sum

theorem activeBytes_packed {d : Descriptor} (h : d.packedLegal = true) (W H : Nat) :
    activeBytes d W H = W * H * (3 * d.bps) := by
  have hplane : ∀ p, rowBytes d W p * planeHeight d H p = W * d.bps * H := fun p => by
    rw [packed_rowBytes h, (packed_planeWidth h W H p).2]
  rw [activeBytes, Descriptor.usedPlanes_three (Descriptor.packed_facts h).1]
  simp only [List.map_cons, List.map_nil, List.sum_cons, List.sum_nil, hplane]
  ring

theorem activeBytes_yuv422 {d : Descriptor} (hl : d.legal = true)
    (hv : d.variant = Variant.packedYuv422.code) {W H : Nat} (hW : W % d.subH.toNat = 0) :
    activeBytes d W H = W * H * 2 := by
  obtain ⟨h3, _, hsubH, hsubV, _⟩ := Descriptor.yuv422_facts (Descriptor.legal_variant hl hv).1
  rw [hsubH] at hW
  obtain ⟨w, rfl⟩ := Nat.dvd_of_mod_eq_zero hW
  rw [activeBytes, Descriptor.usedPlanes_three h3]
  simp only [List.map_cons, List.map_nil, List.sum_cons, List.sum_nil, yuv422_rowBytes hl hv, planeWidth,
    planeHeight, hsubH, hsubV, Nat.div_one, Nat.mul_div_cancel_left w (show 0 < 2 by decide)]
  ring

/-- The payload is as large as the active areas together, but for PACKED_RGB32, of whose four bytes a
pixel they hold three (R133). -/
theorem activeBytes_eq {d : Descriptor} (hl : d.legal = true) {W H : Nat} (hW : W % d.subH.toNat = 0)
    (hH : H % d.subV.toNat = 0) :
    if d.variant = Variant.packedRgb32.code then 4 * activeBytes d W H = 3 * payloadBytes d W H
    else activeBytes d W H = payloadBytes d W H := by
  obtain ⟨v, hv⟩ := Descriptor.legal_has_variant hl
  have hvariant := Descriptor.legal_variant hl hv
  rw [hv]
  cases v
  case planar =>
    rw [if_neg (by decide)]
    exact (payloadBytes_eq_planes hl hvariant.2 hW hH).symm
  case nvSemiplanar =>
    rw [if_neg (by decide)]
    exact (payloadBytes_eq_planes hl hvariant.2.2.2 hW hH).symm
  case p01xSemiplanar16 =>
    rw [if_neg (by decide)]
    exact (payloadBytes_eq_planes hl hvariant.2.2 hW hH).symm
  case packedYuv422 =>
    rw [if_neg (by decide), activeBytes_yuv422 hl hv hW, payloadBytes_packed (B := 2) hvariant.2]
  case packedRgb24 =>
    obtain ⟨hp, h8, _, hbpp⟩ := hvariant
    rw [if_neg (by decide), activeBytes_packed hp, Descriptor.bps_eight h8,
      payloadBytes_packed (B := 3) hbpp]
  case packedRgb32 =>
    obtain ⟨hp, h8, _, hbpp⟩ := hvariant
    rw [if_pos rfl, activeBytes_packed hp, Descriptor.bps_eight h8, payloadBytes_packed (B := 4) hbpp]
    ring
  case packedRgb48 =>
    obtain ⟨hp, h9, _, hbpp⟩ := hvariant
    rw [if_neg (by decide), activeBytes_packed hp, Descriptor.bps_above h9,
      payloadBytes_packed (B := 6) hbpp]

/-- Settles O39: a whole number of bytes, at least one since a pixel has 8 bits or more, and the active
areas' share. -/
theorem payloadSizeIsExact : Obligations.PayloadSizeIsExact := by
  intro d W H hl hW1 hH1 hW hH
  have hbits := payloadBytes_mul_eight hl hW hH
  have hpos : 8 ≤ W * H * d.bpp.toNat := calc
    8 = 1 * 1 * 8 := rfl
    _ ≤ W * H * d.bpp.toNat := Nat.mul_le_mul (Nat.mul_le_mul hW1 hH1) (Descriptor.legal_bpp hl).1
  exact ⟨hbits, by omega, activeBytes_eq hl hW hH⟩

/-! ## A DECODE repeated -/

/-- A DECODE is as ready after it ran as it was before, since it changes none of its operands. -/
theorem State.DecodeReady.of_completedFrom {s t : State} {v : Variant} (h : s.DecodeReady v)
    (hdone : s.CompletedFrom t) : t.DecodeReady v := by
  rw [hdone]
  obtain ⟨hbase, hstride, hcovers, hsrc, hdst, hapart⟩ := h.windows
  exact ⟨h.resolved, h.legal, h.variant, h.geometry, h.payload,
    ⟨hbase, hstride, hcovers, hsrc, hdst, hapart⟩⟩

/-- What a DECODE reads its addresses and source bytes from is as it was before. -/
theorem State.CompletedFrom.operands {s t : State} (h : s.CompletedFrom t) :
    t.desc = s.desc ∧ t.W = s.W ∧ t.H = s.H ∧ (∀ p y k, t.dstAddr p y k = s.dstAddr p y k) ∧
      ∀ j, t.srcByte j = s.srcByte j := by
  rw [h]
  exact ⟨rfl, rfl, rfl, fun p _ _ => by cases p <;> rfl, fun _ => rfl⟩

/-- Settles O54: both runs leave in an active byte the byte of its one source, which neither changes. -/
theorem decodeIsIdempotentOnActiveAreas : Obligations.DecodeIsIdempotentOnActiveAreas := by
  intro s t v i hi hready ht
  obtain ⟨hexec, _, hdone⟩ := hready.completes hi rfl
  obtain rfl := Host.Outcome.next.inj (hexec.symm.trans ht)
  have hready' := hready.of_completedFrom hdone
  obtain ⟨hdesc, hW, hH, haddr, hsrc⟩ := hdone.operands
  obtain ⟨hexec', _⟩ := hready'.completes hi rfl
  refine ⟨_, hexec', ?_⟩
  rintro a ⟨p, hp, y, hy, k, hk, rfl⟩
  obtain ⟨j, _, hsource, hread⟩ := hready.read hi ht hp hy hk
  have hagain := hready'.read_assigned rfl (p := p) (y := y) (k := k) (j := j)
    (by rw [hdesc, hW, hH]; exact hsource.assigned) (by rw [hdesc, hW]; exact hk)
  rw [haddr, hsrc] at hagain
  rw [hagain, hread]

end Sys2Proof.Machine
end

section
/-! PROOFS. Every payload byte is read once (spec/40_format_rom.md, R133, R172, R183, R191, R204): the source
offsets of a body's moves, with the dropped bytes of PACKED_RGB32, are the payload's offsets, each once. -/

namespace Sys2Proof.Machine

/-! ## The source offsets of a list of moves -/

/-- The payload offsets that the moves of a list read, in the order of the list. -/
def sourceOffsets (ms : List Move) : List Nat := ms.filterMap Move.src

theorem sourceOffsets_append (ms ms' : List Move) :
    sourceOffsets (ms ++ ms') = sourceOffsets ms ++ sourceOffsets ms' := List.filterMap_append

theorem sourceOffsets_flatMap {α : Type} (l : List α) (f : α → List Move) :
    sourceOffsets (l.flatMap f) = l.flatMap fun a => sourceOffsets (f a) := List.filterMap_flatMap

/-- Moves that each read an offset read these offsets. -/
theorem sourceOffsets_map {α : Type} (l : List α) {f : α → Move} {o : α → Nat}
    (h : ∀ a, (f a).src = some (o a)) : sourceOffsets (l.map f) = l.map o := by
  rw [sourceOffsets, List.filterMap_map, ← List.filterMap_eq_map]
  exact List.filterMap_congr fun a _ => h a

/-- Moves that read nothing, as those of a tail padding. -/
theorem sourceOffsets_tailPadding (ps : List Plane) (y rb : Nat) :
    sourceOffsets (tailPadding ps y rb) = [] :=
  List.filterMap_eq_nil_iff.2 fun m hm => by
    obtain ⟨_, _, _, _, hnone⟩ := mem_tailPadding.1 hm
    exact hnone

theorem mem_sourceOffsets {ms : List Move} {i : Nat} :
    i ∈ sourceOffsets ms ↔ ∃ m ∈ ms, m.src = some i := List.mem_filterMap

/-- Where no offset is read twice, a move is known by the offset that it reads. -/
theorem eq_of_src_eq {ms : List Move} (h : (sourceOffsets ms).Nodup) {m m' : Move} {i : Nat}
    (hm : m ∈ ms) (hm' : m' ∈ ms) (hs : m.src = some i) (hs' : m'.src = some i) : m = m' := by
  induction ms with
  | nil => cases hm
  | cons head tail ih =>
    have hhead : head.src = some i → ∀ n ∈ tail, n.src ≠ some i := fun hsrc n hn hsrc' => by
      rw [sourceOffsets, List.filterMap_cons_some hsrc] at h
      exact (List.nodup_cons.1 h).1 (mem_sourceOffsets.2 ⟨n, hn, hsrc'⟩)
    have htail : (sourceOffsets tail).Nodup :=
      h.sublist ((List.sublist_cons_self head tail).filterMap Move.src)
    rcases List.mem_cons.1 hm with rfl | hmt
    · rcases List.mem_cons.1 hm' with rfl | hmt'
      · rfl
      · exact absurd hs' (hhead hs m' hmt')
    · rcases List.mem_cons.1 hm' with rfl | hmt'
      · exact absurd hs (hhead hs' m hmt)
      · exact ih htail hmt hmt'

/-! ## Arrays stored row after row -/

/-- `n` runs of `w` offsets, one after the other, are one run of `n * w` offsets. -/
theorem flatMap_range' (o n w : Nat) :
    (List.range n).flatMap (fun y => List.range' (o + y * w) w) = List.range' o (n * w) := by
  induction n with
  | zero => simp
  | succ n ih =>
    rw [List.range_succ, List.flatMap_append, ih, List.flatMap_singleton, Nat.succ_mul,
      ← List.range'_append_1]

/-- The elements of an `n` by `w` array, row after row. -/
theorem flatMap_rowMajor {α : Type} (n w : Nat) (f : Nat → List α) :
    (List.range n).flatMap (fun y => (List.range w).flatMap fun x => f (y * w + x)) =
      (List.range (n * w)).flatMap f := by
  have hrows : List.range (n * w) = (List.range n).flatMap fun y => (List.range w).map (y * w + ·) := by
    rw [List.range_eq_range', ← flatMap_range' 0 n w]
    simp [List.range'_eq_map_range]
  rw [hrows, List.flatMap_assoc]
  simp only [List.flatMap_map]

/-! ## The planar and semi-planar bodies -/

theorem sourceOffsets_copyPlane (p : Plane) (off rb ph : Nat) :
    sourceOffsets (copyPlane p off rb ph) = List.range' off (ph * rb) := by
  rw [copyPlane, sourceOffsets_flatMap, ← flatMap_range']
  refine congrArg (fun f => (List.range ph).flatMap f) (funext fun y => ?_)
  rw [sourceOffsets_map (o := fun k => off + y * rb + k) _ fun k => rfl, List.range'_eq_map_range]

theorem sourceOffsets_planarFrom (d : Descriptor) (W H : Nat) (ps : List Plane) (off : Nat) :
    sourceOffsets (planarFrom d W H ps off) =
      List.range' off (ps.map fun p => rowBytes d W p * planeHeight d H p).sum := by
  induction ps generalizing off with
  | nil => rfl
  | cons p ps ih =>
    rw [planarFrom, sourceOffsets_append, sourceOffsets_copyPlane, ih, List.map_cons, List.sum_cons,
      ← List.range'_append_1, Nat.mul_comm (planeHeight d H p)]

/-- The payload of a semi-planar body: the luma plane's offsets, then the chroma rows', `n` in each. -/
theorem sourceOffsets_semiPlanar {luma n h : Nat} {ms : List Move} {row : Nat → List Move} {H rb : Nat}
    (hms : ms = copyPlane .p0 0 rb H ++ (List.range h).flatMap row) (hluma : luma = H * rb)
    (hrow : ∀ y, (sourceOffsets (row y)).Perm (List.range' (luma + y * n) n)) :
    (sourceOffsets ms).Perm (List.range (luma + h * n)) := by
  have hchroma : ((List.range h).flatMap fun y => sourceOffsets (row y)).Perm
      (List.range' luma (h * n)) := by
    rw [← flatMap_range']
    exact List.Perm.flatMap_left _ fun y _ => hrow y
  have hsplit : List.range (luma + h * n) = List.range' 0 luma ++ List.range' luma (h * n) := by
    rw [List.range_eq_range', ← List.range'_append_1, Nat.zero_add]
  rw [hms, sourceOffsets_append, sourceOffsets_copyPlane, sourceOffsets_flatMap, hsplit, ← hluma]
  exact hchroma.append_left _

theorem sourceOffsets_nvRow (pa pb : Plane) (cb cw y : Nat) :
    sourceOffsets (nvRow pa pb cb cw y) = List.range' (cb + y * (cw * 2)) (cw * 2) := by
  rw [nvRow, sourceOffsets_append, sourceOffsets_tailPadding, List.append_nil, sourceOffsets_flatMap,
    ← flatMap_range']
  refine congrArg (fun f => (List.range cw).flatMap f) (funext fun x => ?_)
  rw [Nat.mul_comm cw 2, Nat.mul_comm x 2]
  rfl

/-- A chroma row of P01X reads the two samples of each pair byte by byte in turn. -/
theorem sourceOffsets_p01xRow (pa pb : Plane) (cb cw y : Nat) :
    (sourceOffsets (p01xRow pa pb cb cw y)).Perm (List.range' (cb + y * (cw * 4)) (cw * 4)) := by
  rw [p01xRow, sourceOffsets_flatMap, ← flatMap_range']
  refine List.Perm.flatMap_left _ fun x _ => ?_
  rw [Nat.mul_comm cw 4, Nat.mul_comm x 4]
  have hpair : ∀ o, [o, o + 2, o + 1, o + 3].Perm (List.range' o 4) := fun o =>
    (List.Perm.swap (o + 1) (o + 2) [o + 3]).cons o
  exact hpair _

/-! ## The packed bodies -/

theorem sourceOffsets_yuvSlots (d : Descriptor) (y o : Nat) (js : List Nat) (c : Columns) :
    sourceOffsets (yuvSlots d y o js c).1 = js.map (o + ·) := by
  induction js generalizing c with
  | nil => rfl
  | cons j js ih => exact congrArg (List.cons (o + j)) (ih _)

theorem sourceOffsets_yuvMacropixels (d : Descriptor) (y o : Nat) (ms : List Nat) (c : Columns) :
    sourceOffsets (yuvMacropixels d y o ms c) = ms.flatMap fun m => List.range' (o + m * 4) 4 := by
  induction ms generalizing c with
  | nil => rfl
  | cons m ms ih =>
    rw [yuvMacropixels, sourceOffsets_append, sourceOffsets_yuvSlots, ih, List.flatMap_cons,
      Nat.mul_comm m 4]
    rfl

theorem sourceOffsets_yuv422Moves (d : Descriptor) {W : Nat} (hW : W % 2 = 0) (H : Nat) :
    sourceOffsets (yuv422Moves d W H) = List.range (W * H * 2) := by
  have hrow : ∀ y, sourceOffsets (yuvMacropixels d y (y * (2 * W)) (List.range (W / 2)) ⟨0, 0, 0⟩) =
      List.range' (0 + y * (2 * W)) (2 * W) := fun y => by
    rw [sourceOffsets_yuvMacropixels, flatMap_range', Nat.zero_add]
    congr 1
    omega
  rw [yuv422Moves, sourceOffsets_flatMap]
  simp only [hrow]
  rw [flatMap_range', List.range_eq_range']
  congr 1
  ring

/-- A word-gather RGB body reads three bytes of each pixel, from byte `a` up. -/
theorem sourceOffsets_rgbRows (d : Descriptor) (W H B a : Nat) :
    sourceOffsets ((List.range H).flatMap fun y => rgbRow d W B a y) =
      (List.range (H * W)).flatMap fun n => List.range' (n * B + a) 3 := by
  rw [← flatMap_rowMajor, sourceOffsets_flatMap]
  refine congrArg (fun f => (List.range H).flatMap f) (funext fun y => ?_)
  rw [rgbRow, sourceOffsets_append, sourceOffsets_tailPadding, List.append_nil, sourceOffsets_flatMap]
  refine congrArg (fun f => (List.range W).flatMap f) (funext fun x => ?_)
  rw [sourceOffsets_map (o := fun c => (y * W + x) * B + a + c) _ fun c => ?_, List.range'_eq_map_range]
  exact congrArg some (Nat.add_right_comm _ _ _)

theorem sourceOffsets_rgb48Moves (d : Descriptor) (W H : Nat) :
    sourceOffsets (rgb48Moves d W H) = List.range (W * H * 6) := by
  have hpixels : sourceOffsets (rgb48Moves d W H) =
      (List.range (H * W)).flatMap fun n => List.range' (0 + n * 6) 6 := by
    rw [← flatMap_rowMajor, rgb48Moves, sourceOffsets_flatMap]
    refine congrArg (fun f => (List.range H).flatMap f) (funext fun y => ?_)
    rw [sourceOffsets_flatMap]
    refine congrArg (fun f => (List.range W).flatMap f) (funext fun x => ?_)
    rw [Nat.zero_add]
    rfl
  rw [hpixels, flatMap_range', List.range_eq_range', Nat.mul_comm H W]

/-! ## Every body -/

/-- The place of the dropped byte in a PACKED_RGB32 pixel: that of the slot with the sentinel (R202). -/
def droppedByte (d : Descriptor) : Nat := if d.order 0 = 9 then 0 else 3

/-- The payload offsets that no move reads: one in each PACKED_RGB32 pixel, none in the other variants
(R133, R204). -/
def droppedOffsets (d : Descriptor) (W H : Nat) : List Nat :=
  if d.variant = Variant.packedRgb32.code then (List.range (H * W)).map fun n => n * 4 + droppedByte d
  else []

theorem droppedOffsets_of_ne {d : Descriptor} (h : d.variant ≠ Variant.packedRgb32.code) (W H : Nat) :
    droppedOffsets d W H = [] := if_neg h

/-- The three channels of a pixel and its dropped byte are its four bytes. -/
theorem rgb32_pixel (d : Descriptor) (n : Nat) :
    (List.range' (n * 4 + alphaShift d) 3 ++ [n * 4 + droppedByte d]).Perm (List.range' (n * 4) 4) := by
  by_cases h : d.order 0 = 9
  · rw [alphaShift, droppedByte, noPlane, if_pos h, if_pos h]
    exact List.perm_append_comm
  · rw [alphaShift, droppedByte, noPlane, if_neg h, if_neg h]
    exact .refl _

theorem sourceOffsets_rgb32Moves (d : Descriptor) (W H : Nat) :
    (sourceOffsets (rgb32Moves d W H) ++ (List.range (H * W)).map fun n => n * 4 + droppedByte d).Perm
      (List.range (W * H * 4)) := by
  have hpayload : List.range (W * H * 4) =
      (List.range (H * W)).flatMap fun n => List.range' (0 + n * 4) 4 := by
    rw [flatMap_range', List.range_eq_range', Nat.mul_comm H W]
  rw [rgb32Moves, sourceOffsets_rgbRows, hpayload, List.map_eq_flatMap]
  refine (List.flatMap_append_perm _ _ _).trans ?_
  refine List.Perm.flatMap_left _ fun n _ => ?_
  rw [Nat.zero_add]
  exact rgb32_pixel d n

/-- The offsets that the moves of a legal descriptor's body read, and the dropped ones, are the payload's,
each once. -/
theorem sourceOffsets_bodyMoves {d : Descriptor} (hl : d.legal = true) {W H : Nat}
    (hW : W % d.subH.toNat = 0) (hH : H % d.subV.toNat = 0) :
    (sourceOffsets (bodyMoves d W H) ++ droppedOffsets d W H).Perm
      (List.range (payloadBytes d W H)) := by
  obtain ⟨v, hv⟩ := Descriptor.legal_has_variant hl
  have hvariant := Descriptor.legal_variant hl hv
  have undropped : v.code ≠ Variant.packedRgb32.code → ∀ ms, bodyMoves d W H = ms →
      (sourceOffsets ms).Perm (List.range (payloadBytes d W H)) →
      (sourceOffsets (bodyMoves d W H) ++ droppedOffsets d W H).Perm
        (List.range (payloadBytes d W H)) := by
    rintro hne _ rfl h
    rwa [droppedOffsets_of_ne (hv ▸ hne), List.append_nil]
  cases v
  case planar =>
    refine undropped (by decide) (planarMoves d W H) (by simp [bodyMoves, hv, Variant.code]) ?_
    rw [planarMoves, sourceOffsets_planarFrom, ((planarOrder_perm hl hv).map _).sum_eq,
      ← payloadBytes_eq_planes hl hvariant.2 hW hH, List.range_eq_range']
  case nvSemiplanar =>
    obtain ⟨hsemi, _, hsubH, hbpp⟩ := hvariant
    refine undropped (by decide) _ (bodyMoves_nv hv W H) ?_
    have h := sourceOffsets_semiPlanar (ms := nvMoves d W H) rfl (Nat.mul_comm W H)
      fun y => .of_eq (sourceOffsets_nvRow _ _ _ _ y)
    have hsize : payloadBytes d W H = W * H + planeHeight d H .p1 * (planeWidth d W .p1 * 2) := by
      rw [payloadBytes_semiPlanar hl hsemi hbpp hW hH, nv_rowBytes hl hv, nv_rowBytes hl hv,
        show planeWidth d W .p0 = W from rfl]
      ring
    rwa [hsize]
  case p01xSemiplanar16 =>
    obtain ⟨hsemi, _, hbpp⟩ := hvariant
    refine undropped (by decide) _ (bodyMoves_p01x hv W H) ?_
    have h := sourceOffsets_semiPlanar (ms := p01xMoves d W H) rfl (Nat.mul_comm (2 * W) H)
      fun y => sourceOffsets_p01xRow _ _ _ _ y
    have hsize : payloadBytes d W H =
        2 * W * H + planeHeight d H .p1 * (planeWidth d W .p1 * 4) := by
      rw [payloadBytes_semiPlanar hl hsemi hbpp hW hH, p01x_rowBytes hl hv, p01x_rowBytes hl hv,
        show planeWidth d W .p0 = W from rfl]
      ring
    rwa [hsize]
  case packedYuv422 =>
    obtain ⟨hyuv, hbpp⟩ := hvariant
    obtain ⟨_, _, hsubH, _⟩ := Descriptor.yuv422_facts hyuv
    refine undropped (by decide) _ (bodyMoves_yuv422 hv W H) ?_
    rw [sourceOffsets_yuv422Moves d (hsubH ▸ hW), payloadBytes_packed (B := 2) hbpp]
  case packedRgb24 =>
    obtain ⟨_, _, _, hbpp⟩ := hvariant
    refine undropped (by decide) _ (bodyMoves_rgb24 hv W H) ?_
    rw [sourceOffsets_rgbRows, payloadBytes_packed (B := 3) hbpp, Nat.mul_comm W H,
      List.range_eq_range' (n := H * W * 3), ← flatMap_range']
    simp
  case packedRgb32 =>
    obtain ⟨_, _, _, hbpp⟩ := hvariant
    have hbody : bodyMoves d W H = rgb32Moves d W H := by simp [bodyMoves, hv, Variant.code]
    rw [hbody, droppedOffsets, if_pos hv, payloadBytes_packed (B := 4) hbpp]
    exact sourceOffsets_rgb32Moves d W H
  case packedRgb48 =>
    obtain ⟨_, _, _, hbpp⟩ := hvariant
    refine undropped (by decide) _ (bodyMoves_rgb48 hv W H) ?_
    rw [sourceOffsets_rgb48Moves, payloadBytes_packed (B := 6) hbpp]

/-- Which offsets of the payload are dropped ones. -/
theorem mem_droppedOffsets {d : Descriptor} (hl : d.legal = true) {W H i : Nat}
    (hi : i < payloadBytes d W H) :
    i ∈ droppedOffsets d W H ↔ d.variant = Variant.packedRgb32.code ∧ i % 4 = droppedByte d := by
  by_cases hv : d.variant = Variant.packedRgb32.code
  · obtain ⟨_, _, _, hbpp⟩ := Descriptor.legal_variant (v := .packedRgb32) hl hv
    rw [payloadBytes_packed (B := 4) hbpp, Nat.mul_comm W H] at hi
    have hbyte : droppedByte d < 4 := by
      rw [droppedByte]
      split <;> omega
    rw [droppedOffsets, if_pos hv, List.mem_map]
    simp only [List.mem_range, hv, true_and]
    constructor
    · rintro ⟨n, _, rfl⟩
      omega
    · intro hmod
      exact ⟨i / 4, by omega, by omega⟩
  · simp [droppedOffsets_of_ne hv, hv]

/-- Settles O40: an offset is read, dropped or outside the payload, and no two moves read the same. -/
theorem payloadBytesAreReadOnce : Obligations.PayloadBytesAreReadOnce := by
  intro d W H hl _ _ hW hH
  have hperm := sourceOffsets_bodyMoves hl hW hH
  have hnodup := hperm.nodup_iff.2 List.nodup_range
  obtain ⟨hread, _, hdisjoint⟩ := List.nodup_append.1 hnodup
  refine ⟨fun m hm i hs => ?_, fun i hi => ?_⟩
  · have hin := hperm.mem_iff.1 (List.mem_append_left _ (mem_sourceOffsets.2 ⟨m, hm, hs⟩))
    exact List.mem_range.1 hin
  · have hcover := List.mem_append.1 (hperm.mem_iff.2 (List.mem_range.2 hi))
    have hmem := mem_droppedOffsets hl hi
    rw [← droppedByte]
    split_ifs with hdropped
    · exact fun m hm hs => hdisjoint i (mem_sourceOffsets.2 ⟨m, hm, hs⟩) i (hmem.2 hdropped) rfl
    · have hkept : i ∉ droppedOffsets d W H := fun h => hdropped (hmem.1 h)
      obtain ⟨m, hm, hs⟩ := mem_sourceOffsets.1 (hcover.resolve_right hkept)
      exact ⟨m, ⟨hm, hs⟩, fun m' ⟨hm', hs'⟩ => eq_of_src_eq hread hm' hm hs' hs⟩

/-! ## The payload from the planes -/

/-- A DECODE is as ready whatever SRC holds. -/
theorem State.DecodeReady.with_src {s : State} {v : Variant} (h : s.DecodeReady v) (src : Mem) :
    State.DecodeReady { s with src := src } v := by
  obtain ⟨hbase, hstride, hcovers, hsrc, hdst, hapart⟩ := h.windows
  exact ⟨h.resolved, h.legal, h.variant, h.geometry, h.payload,
    ⟨hbase, hstride, hcovers, hsrc, hdst, hapart⟩⟩

/-- Settles O53: a payload byte that is used ends in an active byte, where both payloads leave theirs. -/
theorem packedPlanesDetermineThePayload : Obligations.PackedPlanesDetermineThePayload := by
  intro s s' t t' v i hi _ hs' hready ht ht' hplanes j hj hused
  obtain ⟨src', rfl⟩ : ∃ src', s' = { s with src := src' } := ⟨_, hs'⟩
  obtain ⟨hW0, hH0, _, _, hW, hH⟩ := geometryOk_iff.1 hready.geometry
  rw [hready.payload] at hj
  obtain ⟨_, honce⟩ := payloadBytesAreReadOnce s.desc s.W s.H hready.legal
    (Nat.one_le_iff_ne_zero.2 hW0) (Nat.one_le_iff_ne_zero.2 hH0) hW hH
  have hnot : ¬ (s.desc.variant = Variant.packedRgb32.code ∧
      j % 4 = if s.desc.order 0 = 9 then 0 else 3) := by
    rintro ⟨hv, hmod⟩
    refine hused ⟨?_, hmod⟩
    rw [hready.variant] at hv
    revert hv
    cases v <;> decide
  have hread := honce j hj
  rw [if_neg hnot] at hread
  obtain ⟨⟨p, y, k, src⟩, ⟨hm, hsrc⟩, _⟩ := hread
  obtain rfl : src = some j := hsrc
  have hk := bodyMoves_col_lt hready.legal hm (.inl (by simp))
  obtain ⟨hp, hy, _⟩ := bodyMoves_inPlanes hready.legal s.W s.H _ hm
  have hready' := hready.with_src src'
  obtain ⟨hexec, _⟩ := hready.completes hi rfl
  obtain ⟨hexec', _⟩ := hready'.completes hi rfl
  obtain rfl := Host.Outcome.next.inj (hexec.symm.trans ht)
  obtain rfl := Host.Outcome.next.inj (hexec'.symm.trans ht')
  exact (hready.read_assigned rfl hm hk).symm.trans
    ((hplanes _ ⟨p, hp, y, hy, k, hk, rfl⟩).trans (hready'.read_assigned rfl hm hk))

end Sys2Proof.Machine
end

section
/-! PROOFS. The reset event (spec/70_reset_and_hazards.md, R250): what it clears, and what a DECODE that it
cuts short leaves of DST, whatever its geometry. -/

namespace Sys2Proof.Machine

/-! ## One source for each active byte that a body assigns

Without a geometry that the descriptor admits a body may leave active bytes unassigned, but it never gives
one of them two sources. -/

/-- The position of a move has one source, the move's own. -/
def HasSource (ms : List Move) (m : Move) : Prop := ∃ i, IsSource ms m.plane m.row m.col i

/-- What every body owes the active bytes that it assigns. -/
def ActiveMovesHaveSource (d : Descriptor) (W : Nat) (ms : List Move) : Prop :=
  ∀ m ∈ ms, m.col < rowBytes d W m.plane → HasSource ms m

theorem hasSource_of_mem {ms : List Move} {m : Move} {i : Nat} (hm : m ∈ ms) (hs : m.src = some i)
    (honly : ∀ m' ∈ ms, m'.plane = m.plane → m'.row = m.row → m'.col = m.col → m'.src = some i) :
    HasSource ms m := by
  obtain ⟨p, y, k, src⟩ := m
  obtain rfl : src = some i := hs
  exact ⟨i, hm, honly⟩

theorem planarMoves_hasSource {d : Descriptor} (hl : d.legal = true)
    (hv : d.variant = Variant.planar.code) (W H : Nat) :
    ActiveMovesHaveSource d W (planarMoves d W H) := by
  intro m hm _
  obtain ⟨hp, _, _⟩ := planarMoves_active hl hv W H m hm
  obtain ⟨i, hi, hplane⟩ := List.getElem_of_mem ((planarOrder_perm hl hv).mem_iff.2 hp)
  refine hasSource_of_mem hm (planarMoves_src hl hv hi hm hplane.symm) fun m' hm' hp' hr' hc' => ?_
  rw [planarMoves_src hl hv hi hm' (hp'.trans hplane.symm), hp', hr', hc']

/-- A semi-planar body: luma copied, chroma rows on the planes of slots 1 and 2. -/
theorem semiPlanar_hasSource {d : Descriptor} (hs : d.semiPlanarLegal = true) {W H h : Nat}
    {row : Nat → List Move}
    (hrow : ∀ y, ∀ m ∈ row y, m.row = y ∧ (m.plane = slotPlane d 1 ∨ m.plane = slotPlane d 2))
    (hchroma : ∀ y, ∀ m ∈ row y, m.col < rowBytes d W .p1 → HasSource (row y) m) :
    ActiveMovesHaveSource d W (copyPlane .p0 0 (rowBytes d W .p0) H ++ (List.range h).flatMap row) := by
  obtain ⟨hfirst, hsecond⟩ := slots_chroma_of_semiPlanar hs
  have chroma : ∀ y, ∀ m ∈ row y, m.plane = .p1 ∨ m.plane = .p2 := fun y m hm =>
    (hrow y m hm).2.elim (fun hp => hp ▸ hfirst) fun hp => hp ▸ hsecond
  intro m hm hk
  rcases List.mem_append.1 hm with hluma | hrows
  · obtain ⟨hp, hy, hcol, _⟩ := mem_copyPlane.1 hluma
    rw [HasSource, hp]
    refine ⟨_, (isSource_copyPlane hy hcol).append_left fun m' hm' => ?_⟩
    obtain ⟨y', _, hm'⟩ := List.mem_flatMap.1 hm'
    rcases chroma y' m' hm' with h | h <;> simp [h]
  · obtain ⟨y, hy, hmrow⟩ := List.mem_flatMap.1 hrows
    obtain ⟨hr, _⟩ := hrow y m hmrow
    have hcol : m.col < rowBytes d W .p1 := by
      rcases chroma y m hmrow with hp | hp <;> (rw [hp] at hk; exact hk)
    obtain ⟨i, hsrc⟩ := hchroma y m hmrow hcol
    rw [hr] at hsrc
    refine ⟨i, hr.symm ▸ (hsrc.flatMap_rows (List.mem_range.1 hy) fun y' m' hm' =>
      (hrow y' m' hm').1).append_right fun m' hm' => ?_⟩
    rw [(mem_copyPlane.1 hm').1]
    rcases chroma y m hmrow with hp | hp <;> simp [hp]

/-- A chroma row of DECODE.NV stays in its row, on the planes of slots 1 and 2. -/
theorem nvRow_places {pa pb : Plane} {cb cw y : Nat} {m : Move} (hm : m ∈ nvRow pa pb cb cw y) :
    m.row = y ∧ (m.plane = pa ∨ m.plane = pb) := by
  rcases mem_nvRow.1 hm with ⟨hp, hr, _⟩ | ⟨hp, hr, _⟩ | ⟨hp, hr, _⟩
  · exact ⟨hr, .inl hp⟩
  · exact ⟨hr, .inr hp⟩
  · exact ⟨hr, hp⟩

/-- So does a chroma row of DECODE.P01X. -/
theorem p01xRow_places {pa pb : Plane} {cb cw y : Nat} {m : Move} (hm : m ∈ p01xRow pa pb cb cw y) :
    m.row = y ∧ (m.plane = pa ∨ m.plane = pb) := by
  obtain ⟨_, _, _, _, hr, _, ⟨hp, _⟩ | ⟨hp, _⟩⟩ := mem_p01xRow.1 hm
  · exact ⟨hr, .inl hp⟩
  · exact ⟨hr, .inr hp⟩

/-- A move of a chroma row, for either of whose planes the row gives byte `m.col` a source, has one. -/
theorem hasSource_of_places {ms : List Move} {m : Move} {pa pb : Plane} {y i j : Nat}
    (hplace : m.row = y ∧ (m.plane = pa ∨ m.plane = pb)) (ha : IsSource ms pa y m.col i)
    (hb : IsSource ms pb y m.col j) : HasSource ms m := by
  obtain ⟨hr, hp | hp⟩ := hplace <;> rw [HasSource, hr, hp]
  · exact ⟨i, ha⟩
  · exact ⟨j, hb⟩

theorem nvMoves_hasSource {d : Descriptor} (hl : d.legal = true)
    (hv : d.variant = Variant.nvSemiplanar.code) (W H : Nat) :
    ActiveMovesHaveSource d W (nvMoves d W H) := by
  obtain ⟨hs, _⟩ := Descriptor.legal_variant hl hv
  have hrb := nv_rowBytes hl hv W
  have hbody : nvMoves d W H = copyPlane .p0 0 (rowBytes d W .p0) H ++
      (List.range (planeHeight d H .p1)).flatMap
        (nvRow (slotPlane d 1) (slotPlane d 2) (W * H) (planeWidth d W .p1)) := by
    rw [hrb]
    rfl
  rw [hbody]
  refine semiPlanar_hasSource hs (fun y m hm => nvRow_places hm) fun y m hm hk => ?_
  obtain ⟨hfirst, hsecond⟩ := nvRow_sources (slots_ne_of_semiPlanar hs) (hrb .p1 ▸ hk)
  exact hasSource_of_places (nvRow_places hm) hfirst hsecond

theorem p01xMoves_hasSource {d : Descriptor} (hl : d.legal = true)
    (hv : d.variant = Variant.p01xSemiplanar16.code) (W H : Nat) :
    ActiveMovesHaveSource d W (p01xMoves d W H) := by
  obtain ⟨hs, _⟩ := Descriptor.legal_variant hl hv
  have hrb := p01x_rowBytes hl hv W
  have hbody : p01xMoves d W H = copyPlane .p0 0 (rowBytes d W .p0) H ++
      (List.range (planeHeight d H .p1)).flatMap
        (p01xRow (slotPlane d 1) (slotPlane d 2) (2 * W * H) (planeWidth d W .p1)) := by
    rw [hrb]
    rfl
  rw [hbody]
  refine semiPlanar_hasSource hs (fun y m hm => p01xRow_places hm) fun y m hm hk => ?_
  obtain ⟨hfirst, hsecond⟩ := p01xRow_sources (slots_ne_of_semiPlanar hs) (hrb .p1 ▸ hk)
  exact hasSource_of_places (p01xRow_places hm) hfirst hsecond

theorem yuv422Moves_hasSource {d : Descriptor} (hl : d.legal = true)
    (hv : d.variant = Variant.packedYuv422.code) (W H : Nat) :
    ActiveMovesHaveSource d W (yuv422Moves d W H) := by
  intro m hm _
  obtain ⟨_, x, _, j, hj, hp, hc, hs⟩ := mem_yuv422Moves.1 hm
  refine hasSource_of_mem hm hs fun m' hm' hp' hr' hc' => ?_
  rw [← hr']
  exact yuv422Moves_src hl hv hj hm' (hp'.trans hp) (by rw [hc', hp', hc])

/-- A word-gather RGB body whose planes are those of slots `a` to `a + 2`. -/
theorem rgbRows_hasSource {d : Descriptor} (hp : d.packedLegal = true) (h8 : d.depth.toNat = 8)
    {B a : Nat} (ha : 3 + a ≤ B)
    (h : isPermutation (d.order a) (d.order (1 + a)) (d.order (2 + a)) = true) (W H : Nat) :
    ActiveMovesHaveSource d W ((List.range H).flatMap fun y => rgbRow d W B a y) := by
  have hrow : ∀ y, ∀ m ∈ rgbRow d W B a y, m.row = y := fun y m hm => by
    rcases mem_rgbRow.1 hm with ⟨hr, _⟩ | ⟨hr, _⟩ <;> exact hr
  intro m hm hk
  rw [packed_rowBytes hp, Descriptor.bps_eight h8, Nat.mul_one] at hk
  obtain ⟨y, hy, hmrow⟩ := List.mem_flatMap.1 hm
  obtain ⟨_, _, hsrc⟩ := rgbRow_sources (y := y) (p := m.plane) hk ha h
  rw [HasSource, hrow y m hmrow]
  exact ⟨_, hsrc.flatMap_rows (List.mem_range.1 hy) hrow⟩

theorem rgb48Moves_hasSource {d : Descriptor} (hl : d.legal = true)
    (hv : d.variant = Variant.packedRgb48.code) (W H : Nat) :
    ActiveMovesHaveSource d W (rgb48Moves d W H) := by
  obtain ⟨_, _, horder, _⟩ := Descriptor.legal_variant hl hv
  intro m hm _
  obtain ⟨_, x, _, c, hc, b, hb, hslot, hcol, hs⟩ := mem_rgb48Moves.1 hm
  obtain ⟨c₀, _, _, honly⟩ :=
    exists_slot_of_permutation (a := 0) (Descriptor.trailing_perm horder).1 m.plane
  refine hasSource_of_mem hm hs fun m' hm' hp' hr' hc' => ?_
  obtain ⟨_, x', _, c', hcc', b', hb', hslot', hcol', hs'⟩ := mem_rgb48Moves.1 hm'
  have hchannel : c' = c :=
    (honly c' hcc' (hslot'.symm.trans hp')).trans (honly c hc hslot.symm).symm
  rw [hs', hr', hchannel, show x' = x by omega, show b' = b by omega]

/-- No body of a legal descriptor gives an active byte two sources, whatever the geometry (R70). -/
theorem bodyMoves_hasSource {d : Descriptor} (hl : d.legal = true) (W H : Nat) :
    ActiveMovesHaveSource d W (bodyMoves d W H) := by
  obtain ⟨v, hv⟩ := Descriptor.legal_has_variant hl
  have hvariant := Descriptor.legal_variant hl hv
  unfold bodyMoves
  cases v <;> (rw [hv]; simp only [Variant.code])
  case planar => exact planarMoves_hasSource hl hv W H
  case nvSemiplanar => exact nvMoves_hasSource hl hv W H
  case p01xSemiplanar16 => exact p01xMoves_hasSource hl hv W H
  case packedYuv422 => exact yuv422Moves_hasSource hl hv W H
  case packedRgb24 =>
    obtain ⟨hp, h8, horder, _⟩ := hvariant
    exact rgbRows_hasSource hp h8 (by decide) (Descriptor.trailing_perm horder).1 W H
  case packedRgb32 =>
    obtain ⟨hp, h8, horder, _⟩ := hvariant
    obtain ⟨hshift, hperm⟩ := alphaShift_cases horder
    exact rgbRows_hasSource hp h8 (by omega) hperm W H
  case packedRgb48 => exact rgb48Moves_hasSource hl hv W H

/-! ## A body cut short -/

/-- A body cut short leaves an address as it was, or with the byte that every move to it copies. -/
theorem State.cutMoves_read_of_agree (s : State) (ms : List Move) {a i : Nat}
    (h : ∀ m ∈ ms, s.moveAddr m = a → m.src = some i) :
    Mem.read (s.cutMoves ms).dst a = Mem.read s.dst a ∨
      Mem.read (s.cutMoves ms).dst a = s.srcByte i := by
  induction ms generalizing s with
  | nil => exact .inl rfl
  | cons m ms ih =>
    obtain ⟨hm, hms⟩ := List.forall_mem_cons.1 h
    have hdrawn := fun m' => State.moveAddr_congr s s.dst (s.free + 1) m'
    rw [State.cutMoves]
    split
    · rcases ih (State.applyMove { s with free := s.free + 1 } m) fun m' hm' ha =>
        hms m' hm' (by rwa [State.applyMove_moveAddr, hdrawn] at ha) with hcut | hcut
      · rw [hcut, State.applyMove_read]
        split_ifs with ha
        · rw [hm (by rw [ha, hdrawn])]
          exact .inr rfl
        · exact .inl rfl
      · rw [hcut, State.applyMove_srcByte]
        exact .inr rfl
    · exact ih { s with free := s.free + 1 } fun m' hm' ha => hms m' hm' (by rwa [hdrawn] at ha)

/-- Within checked windows the moves of a body to the address of an active byte all copy one source
byte. -/
theorem bodyMoves_agree {s : State} (hl : s.desc.legal = true) (hw : s.WindowsOk s.desc) {a : Nat}
    (ha : s.ActiveAddr s.desc a) :
    ∃ i, ∀ m ∈ bodyMoves s.desc s.W s.H, s.moveAddr m = a → m.src = some i := by
  obtain ⟨p, hp, y, hy, k, hk, rfl⟩ := ha
  have hin := (bodyMoves_inPlanes hl s.W s.H).inPlane
  have hpos : InPlane s s.desc p y k := ⟨hp, hy, lt_of_lt_of_le hk (le_ceil4 _)⟩
  have same : ∀ m ∈ bodyMoves s.desc s.W s.H, s.moveAddr m = s.dstAddr p y k →
      m.plane = p ∧ m.row = y ∧ m.col = k := fun m hm h => InPlane.addr_inj hw (hin m hm) hpos h
  by_cases hex : ∃ m ∈ bodyMoves s.desc s.W s.H, s.moveAddr m = s.dstAddr p y k
  · obtain ⟨m, hm, hma⟩ := hex
    obtain ⟨rfl, rfl, rfl⟩ := same m hm hma
    obtain ⟨i, hsrc⟩ := bodyMoves_hasSource hl s.W s.H m hm hk
    refine ⟨i, fun m' hm' hma' => ?_⟩
    obtain ⟨hp', hr', hc'⟩ := same m' hm' hma'
    exact hsrc.only m' hm' hp' hr' hc'
  · exact ⟨0, fun m hm hma => absurd ⟨m, hm, hma⟩ hex⟩

/-- What the completion step of a DECODE in flight answers: its body, carried out and completed. -/
theorem engineStep_of_bodyInFlight {s u : State} (hflight : s.bodyInFlight = true)
    (hu : engineStep s = .next u) :
    s.WindowsOk s.desc ∧ u.dst = (s.runMoves (bodyMoves s.desc s.W s.H)).dst := by
  obtain ⟨hbusy, hp, hr, hl, hwindow⟩ := State.bodyInFlight_iff.1 hflight
  obtain ⟨v, hv⟩ := Descriptor.legal_has_variant hl
  obtain ⟨i, hi⟩ := exists_decodeVariant v
  rw [engineStep_busy hbusy, completion_of_ok ((decode_dispatch_decode hp).trans (hv ▸ hi))] at hu
  rcases exec_decode_next hi hu with ⟨hunres, _⟩ | ⟨_, _, _, c, herr, _⟩ | ⟨_, _, _, hw, rfl⟩
  · simp [hr] at hunres
  · simp [hwindow] at herr
  · exact ⟨hw, State.complete_dst _⟩

/-! ## DST after the reset event -/

theorem State.abandon_of_no_body {s : State} (h : s.bodyInFlight = false) : s.abandon = s := by
  simp [State.abandon, h]

theorem State.abandon_of_body {s : State} (h : s.bodyInFlight = true) :
    s.abandon = s.cutMoves (bodyMoves s.desc s.W s.H) := by
  simp [State.abandon, h]

/-- Outside the planes nothing was written (R76, R250). -/
theorem State.abandon_read_outside {s : State} {a : Nat} (ha : ¬ s.TouchableAddr s.desc a) :
    Mem.read s.abandon.dst a = Mem.read s.dst a := by
  cases hflight : s.bodyInFlight with
  | false => rw [State.abandon_of_no_body hflight]
  | true =>
    obtain ⟨_, _, _, hl, _⟩ := State.bodyInFlight_iff.1 hflight
    rw [State.abandon_of_body hflight]
    refine s.cutMoves_read_untouched _ a fun m hm heq => ?_
    obtain ⟨hp, hy, hk⟩ := bodyMoves_inPlanes hl s.W s.H m hm
    exact ha ⟨m.plane, hp, m.row, hy, m.col, hk, heq⟩

/-- An active byte holds its old value or the one the command would have given it (R250). -/
theorem State.abandon_read_active {s u : State} (as : List HostAction) (hu : engineStep s = .next u)
    {a : Nat} (ha : s.ActiveAddr s.desc a) :
    Mem.read (State.abandon { s with inputs := as }).dst a = Mem.read s.dst a ∨
      Mem.read (State.abandon { s with inputs := as }).dst a = Mem.read u.dst a := by
  cases hflight : s.bodyInFlight with
  | false =>
    rw [State.abandon_of_no_body (s := { s with inputs := as }) hflight]
    exact .inl rfl
  | true =>
    obtain ⟨_, _, _, hl, _⟩ := State.bodyInFlight_iff.1 hflight
    obtain ⟨hw, hdst⟩ := engineStep_of_bodyInFlight hflight hu
    obtain ⟨i, hagree⟩ := bodyMoves_agree hl hw ha
    rw [State.abandon_of_body (s := { s with inputs := as }) hflight, hdst]
    by_cases hex : ∃ m ∈ bodyMoves s.desc s.W s.H, s.moveAddr m = a
    · rw [s.runMoves_read_of_agree _ a i hex hagree]
      exact State.cutMoves_read_of_agree { s with inputs := as } _ hagree
    · exact .inl (State.cutMoves_read_untouched { s with inputs := as } _ a
        fun m hm heq => hex ⟨m, hm, heq.symm⟩)

theorem State.clearRegisters_readReg (s : State) (r : Reg) : s.clearRegisters.readReg r = 0 := by
  cases r with
  | status => exact State.statusWord_eq_zero rfl rfl rfl rfl rfl rfl
  | _ => rfl

/-- Settles O5: the registers are cleared after the command in flight is abandoned. -/
theorem resetEventClearsRegistersAndAbandons : Obligations.ResetEventClearsRegistersAndAbandons := by
  intro s rest hi
  obtain ⟨hsrc, hrom, _, hinputs⟩ := State.abandon_clearRegisters_keeps { s with inputs := rest }
  refine ⟨_, step_cons hi, rfl, State.readOffset_eq_zero (State.clearRegisters_readReg _), hsrc, hrom,
    hinputs, fun a ha => ?_, fun hflight => ?_, fun u hu a ha => ?_⟩
  · exact State.abandon_read_outside (s := { s with inputs := rest }) ha
  · have hdst : (State.abandon { s with inputs := rest }).dst = s.dst := by
      rw [State.abandon_of_no_body (s := { s with inputs := rest }) hflight]
    exact hdst
  · exact State.abandon_read_active rest hu ha

end Sys2Proof.Machine
end
